-- ==== Sys2Proof/Word.lean ====
section
/-! DEFINITION. The word types of HDRS-CDE (00_scope.md R9, R12, R14) and their plainest readings. -/

namespace Sys2Proof

/-- A register, a symbol value, a command word (R9: "every register is 32 bits"). -/
abbrev Word := BitVec 32

/-- A byte of the stream buffer BUF (R59). -/
abbrev Byte := BitVec 8

/-- An offset in the engine's 2^24-byte space (20_memory.md R90). -/
abbrev Offset := BitVec 24

/-- `s32(v)` of R14: the word read as a signed two's-complement integer. -/
abbrev s32 (v : Word) : Int := v.toInt

/-- `u32(x)` of R14: the integer reduced modulo 2^32. -/
abbrev u32 (x : Int) : Word := BitVec.ofInt 32 x

/-- `x` lies in `[-2^31, 2^31 - 1]`, the range of `s32` (R14). -/
abbrev inS32 (x : Int) : Prop := -2147483648 ≤ x ∧ x ≤ 2147483647

end Sys2Proof
end

