-- ==== Sys2Proof/Config.lean ====
section
/-! DEFINITION. What one implementation of HDRS-CDE fixes (the sizes of R7 and R8) and the values the
spec leaves open (93_implementation_defined.md U1, U2, U3). A free value is an opaque constant with no
body: nothing can be proved of it, so a statement that mentions it holds whatever the hardware gives. -/

namespace Sys2Proof.Config

/-- The two size parameters, "a parameter the model takes as an argument" (R7, R8). They are fixed for
a machine: no step changes them. -/
structure Params where
  /-- `S_MAX`, the words in each of CUR and VAL (R7). -/
  sMax : Nat
  /-- `BUF_BYTES`, the bytes in BUF (R8). -/
  bufBytes : Nat
  deriving DecidableEq, Repr

/-- The ranges R7 and R8 give the parameters. -/
def Params.wf (p : Params) : Bool :=
  decide (1 ≤ p.sMax) && decide (p.sMax ≤ 262144) && decide (16 ≤ p.bufBytes) && decide (p.bufBytes ≤ 8388608)

/-- The sizes of the machine `State.reset` starts: each RAM fills its window (R92).
DESIGN CHOICE (log 1), unsafe: the spec fixes no sizes. -/
def wholeWindows : Params := { sMax := 262144, bufBytes := 8388608 }

/-- U1, word `CUR[i]` that nothing has written: the value the `mention`-th reading of it in the step
numbered `draw` gives ("a fresh nondeterministic value on every read"). Two states of equal `draw` get the same value:
DESIGN CHOICE (log 2), unsafe for a statement that compares two states. -/
opaque freeCur (draw mention i : Nat) : Word

/-- U1 for `VAL[i]`, as `freeCur`. Log 2. -/
opaque freeVal (draw mention i : Nat) : Word

/-- U1 for byte `BUF[a]`: its value in the step numbered `draw`. One byte a step loses nothing, since no
command uses one bit of an unwritten byte twice. Log 2. -/
opaque freeBuf (draw a : Nat) : Byte

/-- U2: what a host read of anything but STATUS returns while a command is in flight. Two states of equal
`draw` get the same value: DESIGN CHOICE (log 3), unsafe for a statement that compares two states. -/
opaque freeBusyRead (draw : Nat) : Word

/-- U3: how many steps pass between a command's start and its completion. Any number, and finite
because it is a number (R372). DESIGN CHOICE (log 4), unsafe for a statement that compares two states:
R372 lets the number depend on NSYM and on the data, and here it is a function of the step's number
alone, so two states of equal `draw` get the same number whatever the command, NSYM or data. -/
opaque latency (draw : Nat) : Nat

end Sys2Proof.Config
end

