-- ==== Sys2Proof/Syntax.lean ====
section
/-! DEFINITION. The commands of HDRS-CDE: one constructor per row of spec/opcode_table.json
(30_encoding.md R137). The only operands in a command word are IMM8, LAYER and WIDTH (R139). -/

namespace Sys2Proof

/-- A command. A `layer` of 3 and a `width` above 32 can be written here as the fields can hold them;
`Instr.wellFormed` refuses them (R133, R134). -/
inductive Instr where
  /-- R304. -/
  | nop
  /-- R273. -/
  | crcInit
  /-- R274; `imm8` is the byte fed to the CRC engine (R135). -/
  | crcByte (imm8 : BitVec 8)
  /-- R275. -/
  | crcRange
  /-- R276; `layer` names the checksum layer (R133). -/
  | crcCheck (layer : BitVec 2)
  /-- R277. -/
  | crcEmit
  /-- R230. -/
  | refCapture
  /-- R231. -/
  | refLoad
  /-- R233. -/
  | encTick
  /-- R235. -/
  | decTick
  /-- R212. -/
  | analyze
  /-- R185; `width` is the bit count (R134). -/
  | wbits (width : BitVec 6)
  /-- R186; `width` is the bit count (R134). -/
  | rbits (width : BitVec 6)
  /-- R187. -/
  | wflush
  /-- R188. -/
  | ralign
  deriving DecidableEq, Repr

end Sys2Proof
end

