-- ==== Sys2Proof/WellFormed.lean ====
section
/-! DEFINITION. Which terms of `Instr` stand for a legal command word (30_encoding.md R133, R134, R138). -/

namespace Sys2Proof

/-- R133: "The value 3 is reserved and makes the word illegal." -/
def layerLegal (layer : BitVec 2) : Bool := layer != 3#2

/-- R134: "Values 0 to 32 are legal". -/
def widthLegal (width : BitVec 6) : Bool := decide (width.toNat ≤ 32)

/-- The field values are in the ranges the command's row gives (R137). -/
def Instr.wellFormed : Instr → Bool
  | .nop => true
  | .crcInit => true
  | .crcByte _ => true
  | .crcRange => true
  | .crcCheck layer => layerLegal layer
  | .crcEmit => true
  | .refCapture => true
  | .refLoad => true
  | .encTick => true
  | .decTick => true
  | .analyze => true
  | .wbits width => widthLegal width
  | .rbits width => widthLegal width
  | .wflush => true
  | .ralign => true

end Sys2Proof
end

