-- ==== Sys2Proof/Decode.lean ====
section
/-! DEFINITION. Command words to commands and back (30_encoding.md R130 to R138). The decoder is total
on every 32-bit word and rejects by name; the encoder is written from the same map of R137. -/

namespace Sys2Proof

/-- Why a word is illegal: the four grounds R138 lists. Each one makes a started command raise
ILLEGAL_COMMAND (R305). -/
inductive DecodeReject where
  /-- "an unassigned OPCODE". -/
  | unassignedOpcode
  /-- "a nonzero reserved bit": bits 31:24 (R136). -/
  | reservedBits
  /-- "a nonzero ... unused field" (R136). -/
  | unusedField
  /-- "CRC_CHECK with LAYER = 3". -/
  | layerReserved
  /-- "WBITS or RBITS with WIDTH > 32". -/
  | widthAbove32
  deriving DecidableEq, Repr

/-- OPCODE = c[7:0] (R132). -/
def opcodeField (c : Word) : BitVec 8 := c.extractLsb' 0 8

/-- LAYER = c[9:8] (R133). -/
def layerField (c : Word) : BitVec 2 := c.extractLsb' 8 2

/-- WIDTH = c[15:10] (R134). -/
def widthField (c : Word) : BitVec 6 := c.extractLsb' 10 6

/-- IMM8 = c[23:16] (R135). -/
def imm8Field (c : Word) : BitVec 8 := c.extractLsb' 16 8

/-- Bits 31:24, reserved in every command (R136). -/
def reservedField (c : Word) : BitVec 8 := c.extractLsb' 24 8

/-- R136: the reserved bits and the fields the command does not use are 0, or the word is rejected. -/
def whenUnusedZero (c : Word) (unusedZero : Bool) (i : Except DecodeReject Instr) : Except DecodeReject Instr :=
  if reservedField c != 0#8 then .error .reservedBits else if unusedZero then i else .error .unusedField

/-- A command with no field besides OPCODE. -/
def plainCommand (c : Word) (i : Instr) : Except DecodeReject Instr :=
  whenUnusedZero c (layerField c == 0#2 && widthField c == 0#6 && imm8Field c == 0#8) (.ok i)

/-- A command whose one field is WIDTH, 0 to 32 (WBITS, RBITS). -/
def widthCommand (c : Word) (i : BitVec 6 → Instr) : Except DecodeReject Instr :=
  whenUnusedZero c (layerField c == 0#2 && imm8Field c == 0#8)
    (if widthLegal (widthField c) then .ok (i (widthField c)) else .error .widthAbove32)

/-- The command a word stands for, by the map of R137, or why there is none (R138). -/
def decode (c : Word) : Except DecodeReject Instr :=
  match (opcodeField c).toNat with
  | 0x00 => plainCommand c .nop
  | 0x01 => plainCommand c .crcInit
  | 0x02 => whenUnusedZero c (layerField c == 0#2 && widthField c == 0#6) (.ok (.crcByte (imm8Field c)))
  | 0x03 => plainCommand c .crcRange
  | 0x04 =>
    whenUnusedZero c (widthField c == 0#6 && imm8Field c == 0#8)
      (if layerLegal (layerField c) then .ok (.crcCheck (layerField c)) else .error .layerReserved)
  | 0x05 => plainCommand c .crcEmit
  | 0x10 => plainCommand c .refCapture
  | 0x11 => plainCommand c .refLoad
  | 0x12 => plainCommand c .encTick
  | 0x13 => plainCommand c .decTick
  | 0x20 => plainCommand c .analyze
  | 0x30 => widthCommand c .wbits
  | 0x31 => widthCommand c .rbits
  | 0x32 => plainCommand c .wflush
  | 0x33 => plainCommand c .ralign
  | _ => .error .unassignedOpcode

/-- The word of a command: OPCODE by R137, and its field, if it has one, in the place R131 gives it. -/
def encode : Instr → Word
  | .nop => 0x00#32
  | .crcInit => 0x01#32
  | .crcByte imm8 => 0x02#32 ||| (imm8.setWidth 32 <<< 16)
  | .crcRange => 0x03#32
  | .crcCheck layer => 0x04#32 ||| (layer.setWidth 32 <<< 8)
  | .crcEmit => 0x05#32
  | .refCapture => 0x10#32
  | .refLoad => 0x11#32
  | .encTick => 0x12#32
  | .decTick => 0x13#32
  | .analyze => 0x20#32
  | .wbits width => 0x30#32 ||| (width.setWidth 32 <<< 10)
  | .rbits width => 0x31#32 ||| (width.setWidth 32 <<< 10)
  | .wflush => 0x32#32
  | .ralign => 0x33#32

/-- A command word given as its low `nbits` bits, every bit above them 0. A command is one 32-bit word
(R130), so the hardware stores it as that word. -/
def tableWord (nbits w : Nat) : Word := BitVec.ofNat 32 (w % 2 ^ nbits)

/-- What the decoder reads from a row of spec/opcode_table.json's bits. -/
def decodeTableWord (nbits w : Nat) : Option Instr :=
  match decode (tableWord nbits w) with
  | .ok i => some i
  | .error _ => none

end Sys2Proof
end

