-- ==== Sys2Proof/Machine/State.lean ====
section
/-! DEFINITION. The state of HDRS-CDE and of the host that drives it (10_state.md), the reasons a step
can stop, and the machine right after power-on reset (70_reset_and_hazards.md R360, R361). -/

namespace Sys2Proof.Machine

/-- Why the machine stops with a fault: there is no such reason. "No behaviour of HDRS-CDE is `stuck`"
(93_implementation_defined.md), a command error is recorded and the engine goes on (R325), and a bus error
is a reply to the host that changes no engine state (R94, log 7). Closed, with no constructor; safe. -/
inductive Fault where
  deriving DecidableEq, Repr

/-- Why a command has no meaning. -/
inductive Refusal where
  /-- Raised by an arm of `exec` whose command is not modelled; no arm raises it in this model. Safe: a run
  stops there. -/
  | notModelled (mnemonic : String)
  deriving DecidableEq, Repr

/-- The error codes a command can raise (60_exceptions.md R321, codes 1 to 6). -/
inductive ErrCode where
  | truncatedStream
  | checksumMismatch
  | deltaRangeViolation
  | bufferRange
  | illegalCommand
  | badConfig
  deriving DecidableEq, Repr

/-- `raise E(info, sym, layer)` of R325: what a failing command records. -/
structure CmdError where
  code : ErrCode
  info : Word
  sym : Word
  layer : BitVec 2
  deriving DecidableEq, Repr

/-- The one command in flight (R61). The state it reads is the machine's state: while it is in flight no
host write but a soft reset takes effect (R111), and a soft reset aborts it. -/
structure InFlight where
  /-- The command word the host wrote to CMD. -/
  word : Word
  /-- Steps left before the step that completes it (U3, log 4). -/
  remaining : Nat
  deriving DecidableEq, Repr

/-- The width of a host access (20_memory.md R93). -/
inductive AccessWidth where
  | bits8
  | bits16
  | bits32
  /-- "a 64-bit or longer access". -/
  | bits64Up
  deriving DecidableEq, Repr

/-- One operation of the host program. An access has a width and an offset in the engine's space (R90);
an 8-bit write carries its byte in bits 7:0 of the data. -/
inductive HostOp where
  /-- A host read. -/
  | read (width : AccessWidth) (off : Offset)
  /-- A host write. -/
  | write (width : AccessWidth) (off : Offset) (data : Word)
  /-- The pseudo-operation `wait` of R143: read STATUS until BUSY is 0, one read a step. -/
  | wait
  /-- The host makes no access until `irq` is 1 (R109, R369: "or take the DONE interrupt"). -/
  | awaitIrq
  deriving DecidableEq, Repr

/-- What the engine answers an access of the host. A legal write answers nothing the host reads. -/
inductive Reply where
  | byte (v : Byte)
  | word (v : Word)
  /-- The bus error of R94. -/
  | busError
  deriving DecidableEq, Repr

/-- The machine: the register page (R32), the three RAMs (R57 to R59), the command in flight (R61), and
the model's own host program and free-value counter. -/
structure State where
  /-- S_MAX and BUF_BYTES, which CAP_SYM (R38) and CAP_BUF (R39) read back. -/
  params : Config.Params
  /-- The command in flight; STATUS.BUSY (R36) is 1 exactly when there is one (log 9). -/
  inFlight : Option InFlight
  /-- STATUS.DONE (R36). -/
  done : Bool
  /-- STATUS.ERR (R36). -/
  errFlag : Bool
  /-- STATUS.OVERRUN (R36). -/
  overrun : Bool
  /-- STATUS.REJECT (R36). -/
  reject : Bool
  /-- INT_EN (R40). -/
  intEn : Word
  /-- ERR: CODE 3:0, LAYER 5:4 (R41). -/
  errReg : Word
  /-- ERR_INFO (R42). -/
  errInfo : Word
  /-- ERR_SYM (R43). -/
  errSym : Word
  /-- NSYM (R44). -/
  nsym : Word
  /-- TIER_CFG (R46). -/
  tierCfg : Word
  /-- WPTR (R47). -/
  wptr : Word
  /-- RPTR (R48). -/
  rptr : Word
  /-- RLIM (R49). -/
  rlim : Word
  /-- TICKCNT (R50). -/
  tickcnt : Word
  /-- ARG0 (R51). -/
  arg0 : Word
  /-- ARG1 (R51). -/
  arg1 : Word
  /-- OPA (R52). -/
  opa : Word
  /-- OPB (R52). -/
  opb : Word
  /-- RESULT (R53). -/
  result : Word
  /-- AUX (R54). -/
  aux : Word
  /-- CRC_STATE (R55). -/
  crcState : Word
  /-- CUR (R57): the words written since power-on, by symbol index. -/
  cur : List (Nat × Word)
  /-- VAL (R58): the words written since power-on, by symbol index. -/
  val : List (Nat × Word)
  /-- BUF (R59): the bytes written since power-on, by byte address in BUF. -/
  buf : List Host.Cell
  /-- The host's operations still to come (model's own, log 5). -/
  host : List HostOp
  /-- What the host has read, newest first (model's own, log 5). -/
  replies : List Reply
  /-- The number of the next step, which numbers its free values (model's own, log 19). -/
  draw : Nat
  deriving DecidableEq, Repr

/-- Power-on reset of a machine of given sizes, with a host program to run (R360, R361): every register at
the value R32 lists, no command in flight, nothing written to a RAM. -/
def State.powerOn (p : Config.Params) (program : List HostOp) : State where
  params := p
  inFlight := none
  done := false
  errFlag := false
  overrun := false
  reject := false
  intEn := 0x00000000#32
  errReg := 0x00000000#32
  errInfo := 0x00000000#32
  errSym := 0xFFFFFFFF#32
  nsym := 0x00000000#32
  tierCfg := 0x00007F07#32
  wptr := 0x00000000#32
  rptr := 0x00000000#32
  rlim := 0x00000000#32
  tickcnt := 0x00000000#32
  arg0 := 0x00000000#32
  arg1 := 0x00000000#32
  opa := 0x00000000#32
  opb := 0x00000000#32
  result := 0x00000000#32
  aux := 0x00000000#32
  crcState := 0xFFFFFFFF#32
  cur := []
  val := []
  buf := []
  host := program
  replies := []
  draw := 0

/-- The machine right after power-on reset, with the sizes of `Config.wholeWindows` (log 1) and a host that
issues nothing (log 6). -/
def State.reset : State := State.powerOn Config.wholeWindows []

end Sys2Proof.Machine
end

