-- ==== Sys2Proof/Machine/Ops.lean ====
section
/-! DEFINITION. The shared operations: a RAM of sparse elements, the stream's bits, completing a command
(R302, R303), recording an error (R325) and returning from one (R330), and the soft reset (R362). -/

namespace Sys2Proof.Machine

/-! ### A RAM: (index, element) pairs, indexes strictly rising; an unlisted element was never written -/

/-- The element last written at an index, or `none` where nothing has been written since power-on (R361). -/
def Memory.read {α : Type} (m : List (Nat × α)) (k : Nat) : Option α :=
  match m with
  | [] => none
  | (j, x) :: rest => if j = k then some x else Memory.read rest k

/-- Writing one element keeps the indexes strictly rising. -/
def Memory.write {α : Type} (m : List (Nat × α)) (k : Nat) (v : α) : List (Nat × α) :=
  match m with
  | [] => [(k, v)]
  | (j, x) :: rest =>
    if k < j then (k, v) :: (j, x) :: rest
    else if k = j then (k, v) :: rest
    else (j, x) :: Memory.write rest k v

/-- Writing consecutive elements from an index up. -/
def Memory.writeAll {α : Type} (m : List (Nat × α)) (k : Nat) (vs : List α) : List (Nat × α) :=
  match vs with
  | [] => m
  | v :: rest => Memory.writeAll (Memory.write m k v) (k + 1) rest

/-- The indexes are at least `lo`, below `size`, and strictly rising. -/
def Memory.wfFrom {α : Type} (size lo : Nat) (m : List (Nat × α)) : Bool :=
  match m with
  | [] => true
  | (k, _) :: rest => decide (lo ≤ k) && decide (k < size) && Memory.wfFrom size (k + 1) rest

/-- The canonical form of a RAM of `size` elements: equal contents are equal lists. An unlisted element
reads as no value at all, so no entry can repeat it. -/
def Memory.wf {α : Type} (size : Nat) (m : List (Nat × α)) : Bool := Memory.wfFrom size 0 m

/-! ### The stream: bit positions of BUF, most significant bit first (R13, R180) -/

/-- The shift of stream position `p` in its byte: `k = 7 - (p mod 8)` of R181. -/
def bitShift (p : Nat) : Nat := 7 - p % 8

/-- A byte with its bit `k` replaced: R181's `(BUF[..] AND NOT (1 << k)) OR (b << k)`. -/
def setBit (old : Byte) (k : Nat) (b : Bool) : Byte :=
  (old &&& ~~~(1#8 <<< k)) ||| ((BitVec.ofBool b).setWidth 8 <<< k)

/-- Byte `a` of BUF contents `m`; one that nothing has written is the step's free value (U1, log 2). -/
def byteOr (draw : Nat) (m : List Host.Cell) (a : Nat) : Byte := (Memory.read m a).getD (Config.freeBuf draw a)

/-- `PutBit(p, b)` (R181). The byte is read and written back: one that nothing has written takes its other
seven bits from the free value (log 15). -/
def putBit (draw : Nat) (m : List Host.Cell) (p : Nat) (b : Bool) : List Host.Cell :=
  Memory.write m (p / 8) (setBit (byteOr draw m (p / 8)) (bitShift p) b)

/-- Bits written one after another from position `p` up: R183's loop, for any sequence of fields. -/
def putBits (draw : Nat) (m : List Host.Cell) (p : Nat) (bits : List Bool) : List Host.Cell :=
  match bits with
  | [] => m
  | b :: rest => putBits draw (putBit draw m p b) (p + 1) rest

/-- The `w` low-order bits of `v`, most significant first: the bits `PutBits(v, w)` writes (R183). -/
def fieldBits (v : Word) (w : Nat) : List Bool := (List.range w).map fun i => v.getLsbD (w - 1 - i)

/-- `n` zero bits: padding (R150 part 3, R187). -/
def zeroBits (n : Nat) : List Bool := List.replicate n false

/-- `GetBit(p)` of BUF contents `m` (R182). -/
def getBit (draw : Nat) (m : List Host.Cell) (p : Nat) : Bool := (byteOr draw m (p / 8)).getLsbD (bitShift p)

/-- Bits `p` to `p + w - 1` of the stream, in stream order. -/
def getBitList (draw : Nat) (m : List Host.Cell) (p w : Nat) : List Bool :=
  (List.range w).map fun i => getBit draw m (p + i)

/-- Bits read as an unsigned number, the first most significant: R184's `r <- 2*r + GetBit(..)`. -/
def bitsToNat (bits : List Bool) : Nat := bits.foldl (fun r b => 2 * r + b.toNat) 0

/-- `roundup8(p) = 8 * ceil(p/8)` (R14). -/
def roundup8 (p : Nat) : Nat := 8 * ((p + 7) / 8)

/-- The zero bits that take position `p` to a byte boundary: `(8 - (p mod 8)) mod 8` (R187, R233). -/
def padTo8 (p : Nat) : Nat := (8 - p % 8) % 8

/-- The four bytes of a word, most significant first: the order of `MemWrite(a, 4, v)` (R16, R97). -/
def bytesBE (v : Word) : List Byte :=
  [v.extractLsb' 24 8, v.extractLsb' 16 8, v.extractLsb' 8 8, v.extractLsb' 0 8]

/-- Four bytes as a word, `b3` most significant: `BUF[a] ++ ... ++ BUF[a+3]` of R16, and R96's lanes. -/
def wordOfBytes (b3 b2 b1 b0 : Byte) : Word := b3 ++ b2 ++ b1 ++ b0

/-! ### Completion, error recording and return, soft reset -/

/-- ERR_SYM when no symbol applies (R43). -/
def noSymbol : Word := 0xFFFFFFFF#32

/-- ERR.CODE of an error (R321). -/
def ErrCode.toCode (e : ErrCode) : BitVec 4 :=
  match e with
  | .truncatedStream => 1#4
  | .checksumMismatch => 2#4
  | .deltaRangeViolation => 3#4
  | .bufferRange => 4#4
  | .illegalCommand => 5#4
  | .badConfig => 6#4

/-- ERR.LAYER of an error: "layer if E = CHECKSUM_MISMATCH else 0" (R325). -/
def CmdError.layerField (e : CmdError) : BitVec 2 :=
  match e.code with
  | .checksumMismatch => e.layer
  | _ => 0#2

/-- The ERR word of an error: CODE in 3:0, LAYER in 5:4, the rest 0 (R41). -/
def CmdError.errWord (e : CmdError) : Word := e.layerField.setWidth 32 <<< 4 ||| e.code.toCode.setWidth 32

/-- One step has passed: the next free values are new ones (log 19). -/
def advance (s : State) : State := { s with draw := s.draw + 1 }

/-- Successful completion (R303): the command's writes, which `s` holds, take effect at once, BUSY falls and
DONE rises. -/
def commit (s : State) : State := { s with inFlight := none, done := true, draw := s.draw + 1 }

/-- Taking a command error (R325), the one exception of the engine (R320): the error latch is written, BUSY
falls and DONE rises; "Nothing else changes". `s` is the state before the command. -/
def raiseError (s : State) (e : CmdError) : State :=
  { s with
    errFlag := true, errReg := e.errWord, errInfo := e.info, errSym := e.sym
    inFlight := none, done := true, draw := s.draw + 1 }

/-- Returning from an error (R330): STATUS.ERR and the three error registers go to their reset values. -/
def clearError (s : State) : State :=
  { s with errFlag := false, errReg := 0x00000000#32, errInfo := 0x00000000#32, errSym := noSymbol }

/-- A command completes: either every write it computed, or the one error it raised (R302). -/
def complete (s : State) (r : Except CmdError State) : Host.Outcome State Fault Refusal :=
  match r with
  | .ok t => .next (commit t)
  | .error e => .next (raiseError s e)

/-- ILLEGAL_COMMAND on a word: ERR_INFO is the word (R305). -/
def illegalWord (c : Word) : CmdError := { code := .illegalCommand, info := c, sym := noSymbol, layer := 0#2 }

/-- The soft reset (R362): every register to its power-on value, any command in flight aborted (R363);
CUR, VAL, BUF and the parameters stay. -/
def softReset (s : State) : State :=
  { State.powerOn s.params s.host with
    cur := s.cur, val := s.val, buf := s.buf, replies := s.replies, draw := s.draw }

end Sys2Proof.Machine
end

