-- ==== Sys2Proof/Machine/Operands.lean ====
section
/-! DEFINITION. The operands of the commands (30_encoding.md R139): fields of registers, words of CUR and
VAL, bytes and bit fields of BUF, and the checks the rules make on them before any access. -/

namespace Sys2Proof.Machine

/-- `CUR[i]`; a word that nothing has written is a free value, a new one at each mention of the word in the
command's rule (U1, log 2). -/
def State.curWord (s : State) (mention i : Nat) : Word :=
  (Memory.read s.cur i).getD (Config.freeCur s.draw mention i)

/-- `VAL[i]`, as `curWord`. -/
def State.valWord (s : State) (mention i : Nat) : Word :=
  (Memory.read s.val i).getD (Config.freeVal s.draw mention i)

/-- `BUF[a]` (R59). -/
def State.bufByte (s : State) (a : Nat) : Byte := byteOr s.draw s.buf a

/-- `MemRead(a, 4)`: the big-endian word at byte address `a` (R16, R97). -/
def State.bufWordBE (s : State) (a : Nat) : Word :=
  wordOfBytes (s.bufByte a) (s.bufByte (a + 1)) (s.bufByte (a + 2)) (s.bufByte (a + 3))

/-- TIER_CFG.T4 (R46). -/
def State.t4 (s : State) : Nat := (s.tierCfg.extractLsb' 0 3).toNat

/-- TIER_CFG.T8 (R46). -/
def State.t8 (s : State) : Nat := (s.tierCfg.extractLsb' 8 7).toNat

/-- `S`, the symbol count of a symbol command (R44). -/
def State.symbols (s : State) : Nat := s.nsym.toNat

/-- "NSYM is legal when 1 <= NSYM <= S_MAX" (R45). -/
def State.nsymLegal (s : State) : Bool := decide (1 ≤ s.nsym.toNat) && decide (s.nsym.toNat ≤ s.params.sMax)

/-- `8 * BUF_BYTES`, the writer's bound (R183). -/
def State.writeLimit (s : State) : Nat := 8 * s.params.bufBytes

/-- `8 * RLIM`, the reader's bound (R184). -/
def State.readLimit (s : State) : Nat := 8 * s.rlim.toNat

/-- The current CRC, `CRC_STATE XOR 0xFFFFFFFF` (R56, R272). -/
def State.crcResult (s : State) : Word := s.crcState ^^^ 0xFFFFFFFF#32

/-- BAD_CONFIG with ERR_INFO = NSYM (R324, `check_S` of 42_delta_codec.md). -/
def State.badConfig (s : State) : CmdError := { code := .badConfig, info := s.nsym, sym := noSymbol, layer := 0#2 }

/-- BUFFER_RANGE of a stream writer: ERR_INFO = WPTR (R324). -/
def State.writerRange (s : State) : CmdError := { code := .bufferRange, info := s.wptr, sym := noSymbol, layer := 0#2 }

/-- BUFFER_RANGE of a byte command: ERR_INFO = ARG0 (R324). -/
def State.byteRange (s : State) : CmdError := { code := .bufferRange, info := s.arg0, sym := noSymbol, layer := 0#2 }

/-- TRUNCATED_STREAM: ERR_INFO is the position the failing read starts at (R324); see log 18 for a position
that needs more than 32 bits. -/
def truncated (rp : Nat) (sym : Word) : CmdError :=
  { code := .truncatedStream, info := BitVec.ofNat 32 rp, sym := sym, layer := 0#2 }

/-- DELTA_RANGE_VIOLATION: ERR_INFO is the position of the symbol's selector, ERR_SYM the symbol (R237). -/
def deltaRange (p0 i : Nat) : CmdError :=
  { code := .deltaRangeViolation, info := BitVec.ofNat 32 p0, sym := BitVec.ofNat 32 i, layer := 0#2 }

/-- `GetBits(w)` at the working cursor `rp` (R184): the field, or TRUNCATED_STREAM. The new cursor is `rp + w`. -/
def State.getBits (s : State) (rp w : Nat) (sym : Word) : Except CmdError Nat :=
  if rp + w ≤ s.readLimit then .ok (bitsToNat (getBitList s.draw s.buf rp w)) else .error (truncated rp sym)

/-- The stream writer's one check and its commit (R183): `bits` go to BUF at WPTR and WPTR moves past them,
unless they would pass the end of BUF. -/
def State.append (s : State) (bits : List Bool) : Except CmdError State :=
  if s.wptr.toNat + bits.length ≤ s.writeLimit then
    .ok { s with
      buf := putBits s.draw s.buf s.wptr.toNat bits
      wptr := BitVec.ofNat 32 (s.wptr.toNat + bits.length) }
  else .error s.writerRange

end Sys2Proof.Machine
end

