-- ==== Sys2Proof/Machine/Flags.lean ====
section
/-! DEFINITION. The STATUS word (R36), the interrupt line (R332), the W1C bits, and the flags of the ANALYZE
result (R213). There are no condition codes (R60). -/

namespace Sys2Proof.Machine

/-- STATUS.BUSY: a command is in flight (R36, log 9). -/
def State.busy (s : State) : Bool := s.inFlight.isSome

/-- STATUS as a host reads it: REJECT 4, OVERRUN 3, ERR 2, DONE 1, BUSY 0; bits 31:5 read 0 (R36). -/
def State.statusWord (s : State) : Word :=
  0#27 ++ BitVec.ofBool s.reject ++ BitVec.ofBool s.overrun ++ BitVec.ofBool s.errFlag ++ BitVec.ofBool s.done
    ++ BitVec.ofBool s.busy

/-- INT_EN.DONE_IE (R40). -/
def State.doneIE (s : State) : Bool := s.intEn.getLsbD 0

/-- INT_EN.ERR_IE (R40). -/
def State.errIE (s : State) : Bool := s.intEn.getLsbD 1

/-- `irq = (STATUS.DONE AND INT_EN.DONE_IE) OR (STATUS.ERR AND INT_EN.ERR_IE)` (R332). -/
def State.irq (s : State) : Bool := (s.done && s.doneIE) || (s.errFlag && s.errIE)

/-- A host write of `v` to STATUS (R36): DONE, OVERRUN and REJECT are cleared where `v` has a 1, and a 1 in
bit 2 clears ERR and the error registers (R330). BUSY and bits 31:5 are not written. -/
def writeStatus (v : Word) (s : State) : State :=
  let s := if v.getLsbD 2 then clearError s else s
  { s with
    done := s.done && !v.getLsbD 1
    overrun := s.overrun && !v.getLsbD 3
    reject := s.reject && !v.getLsbD 4 }

/-- ZERO of the ANALYZE result: "1 when d = 0" (R213). -/
def zeroFlag (d : Int) : Bool := decide (d = 0)

/-- DOVF of the ANALYZE result: "1 when d is outside [-2^31, 2^31 - 1]" (R213). -/
def dovfFlag (d : Int) : Bool := decide (¬ inS32 d)

end Sys2Proof.Machine
end

