-- ==== Sys2Proof/Machine/BitStream.lean ====
section
/-! DEFINITION. The bit stream commands WBITS, RBITS, WFLUSH and RALIGN (40_bitstream.md R185 to R188). -/

namespace Sys2Proof.Machine

/-- R306's first check for a word built with WIDTH above 32: the word is illegal (R134, log 10). -/
def whenWidthLegal (width : BitVec 6) (i : Instr) (r : Except CmdError State) : Except CmdError State :=
  if widthLegal width then r else .error (illegalWord (encode i))

/-- WBITS (R185): the low WIDTH bits of ARG0 at WPTR. -/
def execWbits (width : BitVec 6) (s : State) : Host.Outcome State Fault Refusal :=
  complete s (whenWidthLegal width (.wbits width) (s.append (fieldBits s.arg0 width.toNat)))

/-- RBITS (R186): WIDTH bits at RPTR into RESULT, zero-extended. -/
def execRbits (width : BitVec 6) (s : State) : Host.Outcome State Fault Refusal :=
  complete s (whenWidthLegal width (.rbits width)
    (match s.getBits s.rptr.toNat width.toNat noSymbol with
     | .ok r => .ok { s with result := BitVec.ofNat 32 r, rptr := BitVec.ofNat 32 (s.rptr.toNat + width.toNat) }
     | .error e => .error e))

/-- WFLUSH (R187): zero bits up to a byte boundary. -/
def execWflush (s : State) : Host.Outcome State Fault Refusal :=
  complete s (s.append (zeroBits (padTo8 s.wptr.toNat)))

/-- RALIGN (R188): RPTR up to a byte boundary; the skipped bits are not checked. -/
def execRalign (s : State) : Host.Outcome State Fault Refusal :=
  complete s
    (if roundup8 s.rptr.toNat ≤ s.readLimit then .ok { s with rptr := BitVec.ofNat 32 (roundup8 s.rptr.toNat) }
     else .error (truncated s.rptr.toNat noSymbol))

end Sys2Proof.Machine
end

