-- ==== Sys2Proof/Machine/Control.lean ====
section
/-! DEFINITION. Engine control: NOP, and what a CMD write does (44_control.md R300, R304). -/

namespace Sys2Proof.Machine

/-- NOP (R304): nothing but completion. -/
def execNop (s : State) : Host.Outcome State Fault Refusal := complete s (.ok s)

/-- A host write of `c` to CMD while BUSY = 0 (R300 cases 2 and 3): rejected while ERR = 1 (R328), else command
`c` starts and BUSY rises in the same step. How long it takes is a free value (U3, log 4). -/
def issue (c : Word) (s : State) : State :=
  if s.errFlag then { s with reject := true }
  else { s with inFlight := some { word := c, remaining := Config.latency s.draw } }

end Sys2Proof.Machine
end

