-- ==== Sys2Proof/Machine/Crc.lean ====
section
/-! DEFINITION. The CRC32 engine: the state update and CRC_INIT, CRC_BYTE, CRC_RANGE, CRC_CHECK and CRC_EMIT
(43_crc.md R270 to R277). -/

namespace Sys2Proof.Machine

/-- One of the eight shifts of R271, with the reflected IEEE polynomial of R270. -/
def crcShift (st : Word) : Word := if st.getLsbD 0 then (st >>> 1) ^^^ 0xEDB88320#32 else st >>> 1

/-- `crc_update(st, b)` (R271). -/
def crcUpdate (st : Word) (b : Byte) : Word :=
  crcShift (crcShift (crcShift (crcShift (crcShift (crcShift (crcShift (crcShift (st ^^^ b.setWidth 32))))))))

/-- Bytes fed one after another (R271). -/
def crcFeed (st : Word) (bytes : List Byte) : Word := bytes.foldl crcUpdate st

/-- The bytes `BUF[a] .. BUF[a+n-1]` (R275). -/
def State.bufBytes (s : State) (a n : Nat) : List Byte := (List.range n).map fun i => s.bufByte (a + i)

/-- The `n` bytes at ARG0 lie in BUF, or BUFFER_RANGE; the sum is exact (R275, R276, R277). -/
def whenBytesInBuf (s : State) (n : Nat) (r : Except CmdError State) : Except CmdError State :=
  if s.arg0.toNat + n ≤ s.params.bufBytes then r else .error s.byteRange

/-- CRC_INIT (R273). -/
def execCrcInit (s : State) : Host.Outcome State Fault Refusal :=
  complete s (.ok { s with crcState := 0xFFFFFFFF#32 })

/-- CRC_BYTE (R274). -/
def execCrcByte (imm8 : BitVec 8) (s : State) : Host.Outcome State Fault Refusal :=
  complete s (.ok { s with crcState := crcUpdate s.crcState imm8 })

/-- CRC_RANGE (R275): ARG1 bytes from BUF[ARG0]. -/
def execCrcRange (s : State) : Host.Outcome State Fault Refusal :=
  complete s (whenBytesInBuf s s.arg1.toNat
    (.ok { s with crcState := crcFeed s.crcState (s.bufBytes s.arg0.toNat s.arg1.toNat) }))

/-- CHECKSUM_MISMATCH: ERR_INFO is the address of the stored word, and the layer is the command's (R276, R324). -/
def State.mismatch (s : State) (layer : BitVec 2) : CmdError :=
  { code := .checksumMismatch, info := s.arg0, sym := noSymbol, layer := layer }

/-- CRC_CHECK (R276): the big-endian word at BUF[ARG0] against the current CRC. LAYER = 3 is an illegal word
(R133, log 10). -/
def execCrcCheck (layer : BitVec 2) (s : State) : Host.Outcome State Fault Refusal :=
  complete s
    (if layerLegal layer then
      whenBytesInBuf s 4
        (if s.bufWordBE s.arg0.toNat = s.crcResult then .ok s
         else .error (s.mismatch layer))
     else .error (illegalWord (encode (.crcCheck layer))))

/-- CRC_EMIT (R277): the current CRC as a big-endian word at BUF[ARG0]. -/
def execCrcEmit (s : State) : Host.Outcome State Fault Refusal :=
  complete s (whenBytesInBuf s 4
    (.ok { s with buf := Memory.writeAll s.buf s.arg0.toNat (bytesBE s.crcResult) }))

end Sys2Proof.Machine
end

