-- ==== Sys2Proof/Machine/Analyzer.lean ====
section
/-! DEFINITION. The bit-width analyzer: the tier function and ANALYZE (41_width_analyzer.md R210 to R214). -/

namespace Sys2Proof.Machine

/-- The three tiers of R210. -/
inductive Tier where
  /-- The 4-bit delta tier. -/
  | delta4
  /-- The 8-bit delta tier. -/
  | delta8
  /-- The 32-bit absolute tier. -/
  | absolute
  deriving DecidableEq, Repr

/-- The 2-bit tier selector (R145). -/
def Tier.selector (t : Tier) : BitVec 2 :=
  match t with
  | .delta4 => 0b00#2
  | .delta8 => 0b01#2
  | .absolute => 0b10#2

/-- The tier a selector names; 11 is reserved (R145). -/
def tierOfSelector (sel : BitVec 2) : Option Tier :=
  match sel.toNat with
  | 0 => some .delta4
  | 1 => some .delta8
  | 2 => some .absolute
  | _ => none

/-- The payload width of a tier (R214). -/
def Tier.payloadWidth (t : Tier) : Nat :=
  match t with
  | .delta4 => 4
  | .delta8 => 8
  | .absolute => 32

/-- The tier of a delta under thresholds T4 and T8, tested in ascending order (R210). -/
def tierOf (t4 t8 : Nat) (d : Int) : Tier :=
  if -(t4 : Int) ≤ d ∧ d ≤ t4 then .delta4
  else if -(t8 : Int) ≤ d ∧ d ≤ t8 then .delta8
  else .absolute

/-- `d = s32(curr) - s32(prev)`, exact (R211). -/
def delta (curr prev : Word) : Int := s32 curr - s32 prev

/-- COST: 0 for an unchanged symbol, else selector and payload (R212, R213). -/
def costOf (t : Tier) (d : Int) : Nat := if zeroFlag d then 0 else 2 + t.payloadWidth

/-- `RESULT <- cost << 24 | dovf << 17 | zero << 16 | w << 8 | t` (R212). -/
def analyzeWord (t : Tier) (d : Int) : Word :=
  BitVec.ofNat 32 (costOf t d) <<< 24 ||| (BitVec.ofBool (dovfFlag d)).setWidth 32 <<< 17
    ||| (BitVec.ofBool (zeroFlag d)).setWidth 32 <<< 16 ||| BitVec.ofNat 32 t.payloadWidth <<< 8
    ||| t.selector.setWidth 32

/-- ANALYZE (R212): the tier function on OPA and OPB; AUX takes `u32(d)`. -/
def execAnalyze (s : State) : Host.Outcome State Fault Refusal :=
  complete s (.ok { s with
    result := analyzeWord (tierOf s.t4 s.t8 (delta s.opa s.opb)) (delta s.opa s.opb)
    aux := u32 (delta s.opa s.opb) })

end Sys2Proof.Machine
end

