-- ==== Sys2Proof/Machine/DeltaCodec.lean ====
section
/-! DEFINITION. Reference frame, delta encoder and delta decoder: REF_CAPTURE, REF_LOAD, ENC_TICK and DEC_TICK
(42_delta_codec.md R230 to R237). The `mention` numbers tell apart the places of a command's rule that name
the same RAM word (log 2); for a word that has been written they make no difference. -/

namespace Sys2Proof.Machine

/-- `check_S`: BAD_CONFIG when NSYM is not legal (R45). -/
def whenNsymLegal (s : State) (r : Except CmdError State) : Except CmdError State :=
  if s.nsymLegal then r else .error s.badConfig

/-- The words of `CUR[0..S-1]` at one mention. -/
def State.curWords (s : State) (mention : Nat) : List Word := (List.range s.symbols).map (s.curWord mention)

/-! ### The reference frame -/

/-- The reference-frame record: 32-bit fields in symbol order (R152). -/
def State.frameBits (s : State) : List Bool := (s.curWords 0).flatMap fun v => fieldBits v 32

/-- REF_CAPTURE (R230). -/
def execRefCapture (s : State) : Host.Outcome State Fault Refusal :=
  complete s (whenNsymLegal s
    (match s.append s.frameBits with
     | .ok t => .ok { t with val := Memory.writeAll s.val 0 (s.curWords 1), tickcnt := 0#32 }
     | .error e => .error e))

/-- REF_LOAD's loop: `n` fields of 32 bits from symbol `i` and position `rp` on, with the position after them. -/
def State.loadFrame (s : State) (n i rp : Nat) : Except CmdError (List Word × Nat) :=
  match n with
  | 0 => .ok ([], rp)
  | n + 1 =>
    match s.getBits rp 32 (BitVec.ofNat 32 i) with
    | .error e => .error e
    | .ok f =>
      match s.loadFrame n (i + 1) (rp + 32) with
      | .error e => .error e
      | .ok (vs, rp') => .ok (BitVec.ofNat 32 f :: vs, rp')

/-- REF_LOAD (R231). -/
def execRefLoad (s : State) : Host.Outcome State Fault Refusal :=
  complete s (whenNsymLegal s
    (match s.loadFrame s.symbols 0 s.rptr.toNat with
     | .ok (vs, rp) =>
       .ok { s with val := Memory.writeAll s.val 0 vs, rptr := BitVec.ofNat 32 rp, tickcnt := 0#32 }
     | .error e => .error e))

/-! ### The encoder -/

/-- The number of bitmap bits, `8 * ceil(S / 8)` (R151). -/
def bitmapBits (symbols : Nat) : Nat := roundup8 symbols

/-- Symbol `i` is changed: `CUR[i] != VAL[i]` as 32-bit words (R232). -/
def State.changed (s : State) (i : Nat) : Bool := s.curWord 0 i != s.valWord 0 i

/-- The delta of symbol `i` (R233, R211). -/
def State.symbolDelta (s : State) (i : Nat) : Int := delta (s.curWord 1 i) (s.valWord 1 i)

/-- The tier of symbol `i` under TIER_CFG (R210). -/
def State.symbolTier (s : State) (i : Nat) : Tier := tierOf s.t4 s.t8 (s.symbolDelta i)

/-- The payload of symbol `i`: the low bits of the delta, or the value itself (R234). -/
def State.payload (s : State) (i : Nat) : Word :=
  match s.symbolTier i with
  | .delta4 => u32 (s.symbolDelta i)
  | .delta8 => u32 (s.symbolDelta i)
  | .absolute => s.curWord 2 i

/-- The tiered field of a changed symbol, selector then payload; none for an unchanged one (R146). -/
def State.tieredField (s : State) (i : Nat) : List Bool :=
  if s.changed i then
    fieldBits ((s.symbolTier i).selector.setWidth 32) 2 ++ fieldBits (s.payload i) (s.symbolTier i).payloadWidth
  else []

/-- The change bitmap: the bit of symbol `i` at position `i`, padding bits 0 (R151). -/
def State.bitmap (s : State) : List Bool :=
  (List.range (bitmapBits s.symbols)).map fun i => decide (i < s.symbols) && s.changed i

/-- Parts 1 and 2 of the tick record: the bitmap and the tiered fields (R150). -/
def State.tickBody (s : State) : List Bool := s.bitmap ++ (List.range s.symbols).flatMap s.tieredField

/-- The whole tick record: padded to a byte boundary of the stream (R150, R233). -/
def State.tickRecord (s : State) : List Bool :=
  s.tickBody ++ zeroBits (padTo8 (s.wptr.toNat + s.tickBody.length))

/-- The number of changed symbols of the tick (R233). -/
def State.changedCount (s : State) : Nat := (List.range s.symbols).countP s.changed

/-- ENC_TICK (R233). -/
def execEncTick (s : State) : Host.Outcome State Fault Refusal :=
  complete s (whenNsymLegal s
    (match s.append s.tickRecord with
     | .ok t =>
       .ok { t with
         val := Memory.writeAll s.val 0 (s.curWords 3)
         tickcnt := s.tickcnt + 1#32
         result := BitVec.ofNat 32 s.changedCount
         aux := BitVec.ofNat 32 s.tickRecord.length }
     | .error e => .error e))

/-! ### The decoder -/

/-- The exact decoded value of a payload `f` of a tier, from the previous value `prev` (R236). -/
def decodedValue (t : Tier) (prev : Word) (f : Nat) : Int :=
  match t with
  | .delta4 => s32 prev + (BitVec.ofNat 4 f).toInt
  | .delta8 => s32 prev + (BitVec.ofNat 8 f).toInt
  | .absolute => s32 (BitVec.ofNat 32 f)

/-- One changed symbol of DEC_TICK's loop (R235): selector, payload, decoded value, checked in stream order.
Answers the new value and the position after the field. -/
def State.decodeSymbol (s : State) (i rp : Nat) : Except CmdError (Word × Nat) :=
  match s.getBits rp 2 (BitVec.ofNat 32 i) with
  | .error e => .error e
  | .ok sel =>
    match tierOfSelector (BitVec.ofNat 2 sel) with
    | none => .error (deltaRange rp i)
    | some t =>
      match s.getBits (rp + 2) t.payloadWidth (BitVec.ofNat 32 i) with
      | .error e => .error e
      | .ok f =>
        if inS32 (decodedValue t (s.valWord 1 i) f) then
          .ok (u32 (decodedValue t (s.valWord 1 i) f), rp + 2 + t.payloadWidth)
        else .error (deltaRange rp i)

/-- What DEC_TICK's loop has computed: the new words in symbol order, the working cursor, the changed count. -/
structure Decoded where
  values : List Word
  rp : Nat
  count : Nat
  deriving DecidableEq, Repr

/-- DEC_TICK's loop over the bitmap bits of symbols `i`, `i + 1`, ... (R235): a symbol whose bit is 0 keeps its
value and takes no bits (R240). -/
def State.decodeSymbols (s : State) (bits : List Bool) (i rp : Nat) : Except CmdError Decoded :=
  match bits with
  | [] => .ok { values := [], rp := rp, count := 0 }
  | false :: rest =>
    match s.decodeSymbols rest (i + 1) rp with
    | .error e => .error e
    | .ok d => .ok { values := s.valWord 0 i :: d.values, rp := d.rp, count := d.count }
  | true :: rest =>
    match s.decodeSymbol i rp with
    | .error e => .error e
    | .ok (v, rp') =>
      match s.decodeSymbols rest (i + 1) rp' with
      | .error e => .error e
      | .ok d => .ok { values := v :: d.values, rp := d.rp, count := d.count + 1 }

/-- DEC_TICK's pass over the record at RPTR: the bitmap check, then the symbols; bitmap bits at S and above are
read and ignored (R235, R238). -/
def State.decodeRecord (s : State) : Except CmdError Decoded :=
  if s.rptr.toNat + bitmapBits s.symbols ≤ s.readLimit then
    s.decodeSymbols (getBitList s.draw s.buf s.rptr.toNat s.symbols) 0 (s.rptr.toNat + bitmapBits s.symbols)
  else .error (truncated s.rptr.toNat noSymbol)

/-- DEC_TICK (R235): the padding up to the byte boundary is skipped unchecked. -/
def execDecTick (s : State) : Host.Outcome State Fault Refusal :=
  complete s (whenNsymLegal s
    (match s.decodeRecord with
     | .ok d =>
       .ok { s with
         val := Memory.writeAll s.val 0 d.values
         aux := BitVec.ofNat 32 (roundup8 d.rp - s.rptr.toNat)
         rptr := BitVec.ofNat 32 (roundup8 d.rp)
         tickcnt := s.tickcnt + 1#32
         result := BitVec.ofNat 32 d.count }
     | .error e => .error e))

end Sys2Proof.Machine
end

