-- ==== Sys2Proof/Machine/Dispatch.lean ====
section
/-! DEFINITION. What each command does at its completion: one arm per constructor of `Instr` (44_control.md R307:
"Every legal command word has exactly one rule"). -/

namespace Sys2Proof.Machine

def exec (i : Instr) (s : State) : Host.Outcome State Fault Refusal :=
  match i with
  | .nop => Sys2Proof.Machine.execNop s
  | .crcInit => Sys2Proof.Machine.execCrcInit s
  | .crcByte imm8 => Sys2Proof.Machine.execCrcByte imm8 s
  | .crcRange => Sys2Proof.Machine.execCrcRange s
  | .crcCheck layer => Sys2Proof.Machine.execCrcCheck layer s
  | .crcEmit => Sys2Proof.Machine.execCrcEmit s
  | .refCapture => Sys2Proof.Machine.execRefCapture s
  | .refLoad => Sys2Proof.Machine.execRefLoad s
  | .encTick => Sys2Proof.Machine.execEncTick s
  | .decTick => Sys2Proof.Machine.execDecTick s
  | .analyze => Sys2Proof.Machine.execAnalyze s
  | .wbits width => Sys2Proof.Machine.execWbits width s
  | .rbits width => Sys2Proof.Machine.execRbits width s
  | .wflush => Sys2Proof.Machine.execWflush s
  | .ralign => Sys2Proof.Machine.execRalign s

end Sys2Proof.Machine
end

