-- ==== Sys2Proof/Machine/Completion.lean ====
section
/-! DEFINITION. The completion of the command in flight: its word is decoded and executed, or raises
ILLEGAL_COMMAND before anything else (44_control.md R303, R305, R306). -/

namespace Sys2Proof.Machine

/-- The command word `c` completes at `s`. -/
def completeWord (c : Word) (s : State) : Host.Outcome State Fault Refusal :=
  match decode c with
  | .ok i => exec i s
  | .error _ => .next (raiseError s (illegalWord c))

/-- A command in flight that the next step completes (R300 case 3, with no step left). -/
def inFlightNow (c : Word) : Option InFlight := some { word := c, remaining := 0 }

/-- The command in flight with one step less to go; the machine is otherwise as it is. -/
def countDown (f : InFlight) (left : Nat) (s : State) : State :=
  { s with inFlight := some { word := f.word, remaining := left } }

end Sys2Proof.Machine
end

