-- ==== Sys2Proof/Machine/HostPort.lean ====
section
/-! DEFINITION. The host's accesses to the engine's space: the address map (R92), which accesses are legal (R93),
reads and writes of the register page (R32, R33) and of the windows (R96, R114), accesses while busy (R301), and
one step of the host program. -/

namespace Sys2Proof.Machine

/-- The registers of the page (R32). -/
inductive Reg where
  | id | capSym | capBuf | ctrl | status | cmd | intEn | err | errInfo | errSym | nsym | tierCfg | wptr | rptr
  | rlim | tickcnt | arg0 | arg1 | opa | opb | result | aux | crcState | crcResult
  deriving DecidableEq, Repr

/-- The byte offset of a register in the page (R32). -/
def Reg.offset (r : Reg) : Nat :=
  match r with
  | .id => 0x000 | .capSym => 0x004 | .capBuf => 0x008 | .ctrl => 0x00C | .status => 0x010 | .cmd => 0x014
  | .intEn => 0x018 | .err => 0x01C | .errInfo => 0x020 | .errSym => 0x024 | .nsym => 0x028 | .tierCfg => 0x02C
  | .wptr => 0x030 | .rptr => 0x034 | .rlim => 0x038 | .tickcnt => 0x03C | .arg0 => 0x040 | .arg1 => 0x044
  | .opa => 0x048 | .opb => 0x04C | .result => 0x050 | .aux => 0x054 | .crcState => 0x058 | .crcResult => 0x05C

/-- The register at an aligned offset of the page; every other offset of the page is reserved (R32). -/
def regAt (off : Nat) : Option Reg :=
  match off with
  | 0x000 => some .id | 0x004 => some .capSym | 0x008 => some .capBuf | 0x00C => some .ctrl
  | 0x010 => some .status | 0x014 => some .cmd | 0x018 => some .intEn | 0x01C => some .err
  | 0x020 => some .errInfo | 0x024 => some .errSym | 0x028 => some .nsym | 0x02C => some .tierCfg
  | 0x030 => some .wptr | 0x034 => some .rptr | 0x038 => some .rlim | 0x03C => some .tickcnt
  | 0x040 => some .arg0 | 0x044 => some .arg1 | 0x048 => some .opa | 0x04C => some .opb
  | 0x050 => some .result | 0x054 => some .aux | 0x058 => some .crcState | 0x05C => some .crcResult
  | _ => none

/-- A place in the engine's space (R92), with the index of the element there. -/
inductive Place where
  /-- The register page, at a byte offset. -/
  | page (off : Nat)
  /-- The CUR window, at a byte offset in the window. -/
  | curWindow (off : Nat)
  /-- The VAL window, at a byte offset in the window. -/
  | valWindow (off : Nat)
  /-- The reserved region. -/
  | reserved
  /-- The BUF window, at a byte address in BUF. -/
  | bufWindow (a : Nat)
  deriving DecidableEq, Repr

/-- The division of the space (R92). -/
def placeOf (off : Offset) : Place :=
  if off.toNat < 0x100000 then .page off.toNat
  else if off.toNat < 0x200000 then .curWindow (off.toNat - 0x100000)
  else if off.toNat < 0x300000 then .valWindow (off.toNat - 0x200000)
  else if off.toNat < 0x800000 then .reserved
  else .bufWindow (off.toNat - 0x800000)

/-- The places that allow 8-bit accesses: BUF and the reserved region (R93, log 12). -/
def Place.byteLegal (p : Place) : Bool :=
  match p with
  | .page _ => false
  | .curWindow _ => false
  | .valWindow _ => false
  | .reserved => true
  | .bufWindow _ => true

/-- The legal host accesses (R93). -/
def legalAccess (width : AccessWidth) (off : Offset) : Bool :=
  match width with
  | .bits8 => (placeOf off).byteLegal
  | .bits16 => false
  | .bits32 => decide (off.toNat % 4 = 0)
  | .bits64Up => false

/-! ### The register page -/

/-- What a host read of a register returns while BUSY = 0 (R33 to R56), and of STATUS at any time (R301). -/
def readReg (r : Reg) (s : State) : Word :=
  match r with
  | .id => 0x48445253#32
  | .capSym => BitVec.ofNat 32 s.params.sMax
  | .capBuf => BitVec.ofNat 32 s.params.bufBytes
  | .ctrl => 0x00000000#32
  | .status => s.statusWord
  | .cmd => 0x00000000#32
  | .intEn => s.intEn
  | .err => s.errReg
  | .errInfo => s.errInfo
  | .errSym => s.errSym
  | .nsym => s.nsym
  | .tierCfg => s.tierCfg
  | .wptr => s.wptr
  | .rptr => s.rptr
  | .rlim => s.rlim
  | .tickcnt => s.tickcnt
  | .arg0 => s.arg0
  | .arg1 => s.arg1
  | .opa => s.opa
  | .opb => s.opb
  | .result => s.result
  | .aux => s.aux
  | .crcState => s.crcState
  | .crcResult => s.crcResult

/-- `min(v, BUF_BYTES)`, the value RLIM keeps of a written `v` (R49). -/
def clampRlim (v : Word) (s : State) : Word := BitVec.ofNat 32 (min v.toNat s.params.bufBytes)

/-- A host write of a register while BUSY = 0 (R33 to R56): RO registers ignore it, reserved bits stay 0. -/
def writeReg (r : Reg) (v : Word) (s : State) : State :=
  match r with
  | .id => s
  | .capSym => s
  | .capBuf => s
  | .ctrl => if v.getLsbD 0 then softReset s else s
  | .status => writeStatus v s
  | .cmd => issue v s
  | .intEn => { s with intEn := v &&& 0x00000003#32 }
  | .err => s
  | .errInfo => s
  | .errSym => s
  | .nsym => { s with nsym := v }
  | .tierCfg => { s with tierCfg := v &&& 0x00007F07#32 }
  | .wptr => { s with wptr := v }
  | .rptr => { s with rptr := v }
  | .rlim => { s with rlim := clampRlim v s }
  | .tickcnt => { s with tickcnt := v }
  | .arg0 => { s with arg0 := v }
  | .arg1 => { s with arg1 := v }
  | .opa => { s with opa := v }
  | .opb => { s with opb := v }
  | .result => s
  | .aux => s
  | .crcState => { s with crcState := v }
  | .crcResult => s

/-! ### The windows -/

/-- Byte `a` of the BUF window: 0 beyond BUF_BYTES (R95). -/
def State.windowByte (s : State) (a : Nat) : Byte := if a < s.params.bufBytes then s.bufByte a else 0#8

/-- Four bytes of the BUF window, little-endian lanes (R96); each lane beyond BUF_BYTES reads 0 (log 11). -/
def State.windowWordLE (s : State) (a : Nat) : Word :=
  wordOfBytes (s.windowByte (a + 3)) (s.windowByte (a + 2)) (s.windowByte (a + 1)) (s.windowByte a)

/-- A byte written through the BUF window: ignored beyond BUF_BYTES (R95). -/
def writeWindowByte (a : Nat) (b : Byte) (s : State) : State :=
  if a < s.params.bufBytes then { s with buf := Memory.write s.buf a b } else s

/-- A word written through the BUF window: `BUF[a+i] <- v[8i+7:8i]` (R96). -/
def writeWindowWordLE (a : Nat) (v : Word) (s : State) : State :=
  writeWindowByte (a + 3) (v.extractLsb' 24 8) (writeWindowByte (a + 2) (v.extractLsb' 16 8)
    (writeWindowByte (a + 1) (v.extractLsb' 8 8) (writeWindowByte a (v.extractLsb' 0 8) s)))

/-- What a legal 32-bit host read returns while BUSY = 0. -/
def readPlace32 (p : Place) (s : State) : Word :=
  match p with
  | .page off => match regAt off with
    | some r => readReg r s
    | none => 0#32
  | .curWindow off => if off / 4 < s.params.sMax then s.curWord 0 (off / 4) else 0#32
  | .valWindow off => if off / 4 < s.params.sMax then s.valWord 0 (off / 4) else 0#32
  | .reserved => 0#32
  | .bufWindow a => s.windowWordLE a

/-- What a legal 8-bit host read returns while BUSY = 0. -/
def readPlace8 (p : Place) (s : State) : Byte :=
  match p with
  | .bufWindow a => s.windowByte a
  | .page _ => 0#8
  | .curWindow _ => 0#8
  | .valWindow _ => 0#8
  | .reserved => 0#8

/-- A legal 32-bit host write while BUSY = 0. -/
def writePlace32 (p : Place) (v : Word) (s : State) : State :=
  match p with
  | .page off => match regAt off with
    | some r => writeReg r v s
    | none => s
  | .curWindow off => if off / 4 < s.params.sMax then { s with cur := Memory.write s.cur (off / 4) v } else s
  | .valWindow off => if off / 4 < s.params.sMax then { s with val := Memory.write s.val (off / 4) v } else s
  | .reserved => s
  | .bufWindow a => writeWindowWordLE a v s

/-- A legal 8-bit host write while BUSY = 0. -/
def writePlace8 (p : Place) (b : Byte) (s : State) : State :=
  match p with
  | .bufWindow a => writeWindowByte a b s
  | .page _ => s
  | .curWindow _ => s
  | .valWindow _ => s
  | .reserved => s

/-! ### Accesses -/

/-- What the engine answers a host read: a bus error (R94), STATUS exactly, a free value for anything else
while busy (R301, U2, log 3), or what the place holds. No read changes the engine (R102). -/
def readReply (width : AccessWidth) (off : Offset) (s : State) : Reply :=
  if legalAccess width off then
    match width with
    | .bits8 => .byte (if s.busy then (Config.freeBusyRead s.draw).extractLsb' 0 8 else readPlace8 (placeOf off) s)
    | _ => .word (if s.busy && off.toNat != Reg.status.offset then Config.freeBusyRead s.draw
        else readPlace32 (placeOf off) s)
  else .busError

/-- A host read: the answer goes to the host, and nothing else changes (R102). -/
def hostRead (width : AccessWidth) (off : Offset) (s : State) : State :=
  { s with replies := readReply width off s :: s.replies }

/-- The access is the one write that takes effect while busy: CTRL with bit 0 = 1 (R301). -/
def isSoftReset (width : AccessWidth) (off : Offset) (v : Word) : Bool :=
  width == .bits32 && off.toNat == Reg.ctrl.offset && v.getLsbD 0

/-- A host write: a bus error (R94), while busy dropped with OVERRUN set unless it is a soft reset (R301), else
the write itself. -/
def hostWrite (width : AccessWidth) (off : Offset) (v : Word) (s : State) : State :=
  if legalAccess width off then
    if s.busy && !isSoftReset width off v then { s with overrun := true }
    else
      match width with
      | .bits8 => writePlace8 (placeOf off) (v.extractLsb' 0 8) s
      | _ => writePlace32 (placeOf off) v s
  else { s with replies := .busError :: s.replies }

/-- The host's next operation, when it is `op`, with `rest` to come after it. `wait` and `awaitIrq` stay until
what they wait for holds (R143, R369); the reads of `wait` are not kept in `replies` (log 5). -/
def hostOp (op : HostOp) (rest : List HostOp) (s : State) : State :=
  match op with
  | .read width off => hostRead width off { s with host := rest }
  | .write width off v => hostWrite width off v { s with host := rest }
  | .wait => if s.busy then s else { s with host := rest }
  | .awaitIrq => if s.irq then { s with host := rest } else s

/-- One step of the host program: its next operation, or nothing where it has ended (R375). -/
def hostStep (s : State) : State :=
  match s.host with
  | [] => advance s
  | op :: rest => advance (hostOp op rest s)

end Sys2Proof.Machine
end

