-- ==== Sys2Proof/Machine/HostProgram.lean ====
section
/-! DEFINITION. The program notation of 30_encoding.md R142 and R143: each line of a host program as the host
operations it stands for. -/

namespace Sys2Proof.Machine

/-- `wr NAME, v`. -/
def wr (r : Reg) (v : Word) : List HostOp := [.write .bits32 (BitVec.ofNat 24 r.offset) v]

/-- `rd NAME`. -/
def rd (r : Reg) : List HostOp := [.read .bits32 (BitVec.ofNat 24 r.offset)]

/-- `wrw CUR[i], v`. -/
def wrwCur (i : Nat) (v : Word) : List HostOp := [.write .bits32 (BitVec.ofNat 24 (0x100000 + 4 * i)) v]

/-- `wrw VAL[i], v`. -/
def wrwVal (i : Nat) (v : Word) : List HostOp := [.write .bits32 (BitVec.ofNat 24 (0x200000 + 4 * i)) v]

/-- `rdw VAL[i]`. -/
def rdwVal (i : Nat) : List HostOp := [.read .bits32 (BitVec.ofNat 24 (0x200000 + 4 * i))]

/-- `wrb BUF[a], b`. -/
def wrb (a : Nat) (b : Byte) : List HostOp := [.write .bits8 (BitVec.ofNat 24 (0x800000 + a)) (b.setWidth 32)]

/-- `rdb BUF[a]`. -/
def rdb (a : Nat) : List HostOp := [.read .bits8 (BitVec.ofNat 24 (0x800000 + a))]

/-- `issue <command>`: the CMD write alone. -/
def issueOnly (i : Instr) : List HostOp := wr .cmd (encode i)

/-- `<command mnemonic and operands>`: the CMD write, then `wait`. -/
def run (i : Instr) : List HostOp := issueOnly i ++ [.wait]

/-- `clrst`: clear DONE, ERR, OVERRUN and REJECT. -/
def clrst : List HostOp := wr .status 0x0000001E#32

/-- `put32 v`. -/
def put32 (v : Word) : List HostOp := wr .arg0 v ++ run (.wbits 32#6)

/-- `crc a, n`. -/
def crc (a n : Word) : List HostOp := wr .arg0 a ++ wr .arg1 n ++ run .crcRange

/-- `check L, a`. -/
def check (layer : BitVec 2) (a : Word) : List HostOp := wr .arg0 a ++ run (.crcCheck layer)

/-- `emit a`. -/
def emit (a : Word) : List HostOp := wr .arg0 a ++ run .crcEmit

/-- `wrbuf a, b0 b1 ... bk`. -/
def wrbuf (a : Nat) (bytes : List Byte) : List HostOp :=
  match bytes with
  | [] => []
  | b :: rest => wrb a b ++ wrbuf (a + 1) rest

end Sys2Proof.Machine
end

