-- ==== Sys2Proof/Machine/Step.lean ====
section
/-! DEFINITION. One step of the machine: "one host access ... or one command completion" (00_scope.md R6). -/

namespace Sys2Proof.Machine

/-- A command in flight with no step left completes. Otherwise the host's next operation is performed, with a
command in flight one step nearer its completion (R303, R372; log 8). -/
def step (s : State) : Host.Outcome State Fault Refusal :=
  match s.inFlight with
  | none => .next (hostStep s)
  | some f =>
    match f.remaining with
    | 0 => completeWord f.word s
    | left + 1 => .next (hostStep (countDown f left s))

/-- `s` with the command word `w` in flight and due: what a host write of it to CMD leaves (R300 case 3), with
no step left (log 6). -/
def State.withFetchWord (s : State) (nbits w : Nat) : State := { s with inFlight := inFlightNow (tableWord nbits w) }

end Sys2Proof.Machine
end

