-- ==== Sys2Proof/Safety.lean ====
section
/-! DEFINITION. What a sound state and a safe run are, in the terms the statements use: the invariant every
step keeps, and the signs that a host kept the rules of 70_reset_and_hazards.md. -/

namespace Sys2Proof.Machine

/-- The three RAMs are in canonical form and hold no element beyond their sizes (R57 to R59, R115). -/
def State.ramsWf (s : State) : Bool :=
  Memory.wf s.params.sMax s.cur && Memory.wf s.params.sMax s.val && Memory.wf s.params.bufBytes s.buf

/-- "Reserved bits of a register read as 0" (R33) in the writable registers: INT_EN[31:2] (R40), TIER_CFG[7:3]
and TIER_CFG[31:15] (R46). -/
def State.reservedZero (s : State) : Bool :=
  s.intEn &&& 0xFFFFFFFC#32 == 0#32 && s.tierCfg &&& 0xFFFF80F8#32 == 0#32

/-- "RLIM never names bytes beyond the buffer" (R49). -/
def State.rlimInBuf (s : State) : Bool := decide (s.rlim.toNat ≤ s.params.bufBytes)

/-- The ERR words a command error can leave: codes 1 to 6, LAYER 0 to 2 with code 2 and 0 with every other
(R321, R324). -/
def legalErrWords : List Word :=
  [0x01#32, 0x02#32, 0x12#32, 0x22#32, 0x03#32, 0x04#32, 0x05#32, 0x06#32]

/-- The error latch holds an error exactly while STATUS.ERR = 1, and its reset values otherwise (R325, R330). -/
def State.latchConsistent (s : State) : Bool :=
  if s.errFlag then legalErrWords.contains s.errReg
  else s.errReg == 0#32 && s.errInfo == 0#32 && s.errSym == 0xFFFFFFFF#32

/-- No command is in flight while an error is latched (R300, R328). -/
def State.noErrWhileBusy (s : State) : Bool := !(s.busy && s.errFlag)

/-- The invariant of the machine. -/
abbrev State.Inv (s : State) : Prop :=
  s.params.wf = true ∧ s.ramsWf = true ∧ s.reservedZero = true ∧ s.rlimInBuf = true ∧ s.latchConsistent = true ∧
    s.noErrWhileBusy = true

/-- The step answers a next state. -/
def isNext (o : Host.Outcome State Fault Refusal) : Bool :=
  match o with
  | .next _ => true
  | .fault _ => false
  | .refused _ => false

/-- The host kept the rules so far: no write while busy (R369), no command while an error was latched (R371), no
illegal access (R94). -/
def State.hostKeptRules (s : State) : Bool := !s.overrun && !s.reject && !s.replies.contains .busError

/-- The end of a run: the host program has ended and no command is in flight (R375). -/
def State.runEnded (s : State) : Bool := s.host.isEmpty && !s.busy

/-! ### The rules' outcomes, as the statements say them -/

/-- The state after a command that raises an error (R325): the latch written, BUSY 0, DONE 1, and nothing else
but the step counted. -/
def errored (s : State) (errWord info sym : Word) : State :=
  { s with
    errFlag := true, errReg := errWord, errInfo := info, errSym := sym
    inFlight := none, done := true, draw := s.draw + 1 }

/-- The state after a command that succeeds with its writes in `s` (R303). -/
def succeeded (s : State) : State := { s with inFlight := none, done := true, draw := s.draw + 1 }

/-- Going from BUF contents `old` to `new` writes the bits at positions `p` to `p + n - 1` as `bit` says and leaves
every other bit of a written byte, and every byte that holds none of those positions, as it was (R183, R189). -/
def bitsWritten (old new : List Host.Cell) (p n : Nat) (bit : Nat → Bool) : Prop :=
  (∀ d k, k < n → getBit d new (p + k) = bit k) ∧
    (∀ d q, (q < p ∨ p + n ≤ q) → (Memory.read old (q / 8)).isSome = true → getBit d new q = getBit d old q) ∧
      (∀ a, (∀ q, p ≤ q → q < p + n → q / 8 ≠ a) → Memory.read new a = Memory.read old a)

/-- The bits of a value, most significant first. -/
def bitsOf {w : Nat} (v : BitVec w) : List Bool := (List.range w).map fun k => v.getLsbD (w - 1 - k)

/-- The tiered field of a symbol whose value goes from `prev` to `cur` (R145 to R149, R210): none if unchanged. -/
def fieldOf (t4 t8 : Nat) (cur prev : Word) : List Bool :=
  let d : Int := cur.toInt - prev.toInt
  if cur = prev then []
  else if -(t4 : Int) ≤ d ∧ d ≤ t4 then [false, false] ++ bitsOf (BitVec.ofInt 4 d)
  else if -(t8 : Int) ≤ d ∧ d ≤ t8 then [false, true] ++ bitsOf (BitVec.ofInt 8 d)
  else [true, false] ++ bitsOf cur

/-- The tick record of `n` symbols at bit position `p` (R150, R151): bitmap, tiered fields, padding. -/
def recordOf (t4 t8 n : Nat) (cur prev : Nat → Word) (p : Nat) : List Bool :=
  let bitmap := (List.range (8 * ((n + 7) / 8))).map fun i => decide (i < n) && decide (cur i ≠ prev i)
  let body := bitmap ++ (List.range n).flatMap fun i => fieldOf t4 t8 (cur i) (prev i)
  body ++ List.replicate ((8 - (p + body.length) % 8) % 8) false

/-- Word `i` of a symbol RAM that has been written there (0 stands in where it has not). -/
def wordAt (m : List (Nat × Word)) (i : Nat) : Word := (Memory.read m i).getD 0#32

/-- The rows of R137 as (mask, match): the 32-bit words of the fifteen commands. -/
def commandRows : List (Word × Word) :=
  [(0xFFFFFFFF#32, 0x00000000#32), (0xFFFFFFFF#32, 0x00000001#32), (0xFF00FFFF#32, 0x00000002#32),
   (0xFFFFFFFF#32, 0x00000003#32), (0xFFFFFCFF#32, 0x00000004#32), (0xFFFFFFFF#32, 0x00000005#32),
   (0xFFFFFFFF#32, 0x00000010#32), (0xFFFFFFFF#32, 0x00000011#32), (0xFFFFFFFF#32, 0x00000012#32),
   (0xFFFFFFFF#32, 0x00000013#32), (0xFFFFFFFF#32, 0x00000020#32), (0xFFFF03FF#32, 0x00000030#32),
   (0xFFFF03FF#32, 0x00000031#32), (0xFFFFFFFF#32, 0x00000032#32), (0xFFFFFFFF#32, 0x00000033#32)]

/-- R138: a word is legal when it matches a row with its fields in range, LAYER 0 to 2 for CRC_CHECK and WIDTH
0 to 32 for WBITS and RBITS. -/
def legalWord (c : Word) : Bool :=
  commandRows.any (fun r => c &&& r.1 == r.2)
    && !(c &&& 0x000000FF#32 == 0x00000004#32 && c &&& 0x00000300#32 == 0x00000300#32)
    && !((c &&& 0x000000FF#32 == 0x00000030#32 || c &&& 0x000000FF#32 == 0x00000031#32)
      && decide (32 < ((c &&& 0x0000FC00#32) >>> 10).toNat))

/-- Every one of the `n` elements from index `i` up has been written since power-on (R361). -/
def written {α : Type} (m : List (Nat × α)) (i n : Nat) : Prop :=
  ∀ j, i ≤ j → j < i + n → (Memory.read m j).isSome = true

/-! ### A tick record as the decoder reads it (R235, R236) -/

/-- The bitmap bit of symbol `i` in the record at RPTR (R151). -/
def bitmapBit (s : State) (i : Nat) : Bool := getBit s.draw s.buf (s.rptr.toNat + i)

/-- The two selector bits at position `p`, in stream order. -/
def selectorAt (s : State) (p : Nat) : Bool × Bool := (getBit s.draw s.buf p, getBit s.draw s.buf (p + 1))

/-- The payload width a selector names; 11 is reserved (R145, R214). -/
def selectorWidth (sel : Bool × Bool) : Option Nat :=
  match sel with
  | (false, false) => some 4
  | (false, true) => some 8
  | (true, false) => some 32
  | (true, true) => none

/-- The tiered field of symbol `i` at position `p` has a payload of width `w` and stands for the exact value `x` (R236):
the payload itself in the 32-bit tier, else the previous value, which has been written, plus the payload. -/
def fieldDecodes (s : State) (i p w : Nat) (x : Int) : Prop :=
  selectorWidth (selectorAt s p) = some w ∧ ∃ f : BitVec w,
    (∀ k, k < w → getBit s.draw s.buf (p + 2 + k) = f.getLsbD (w - 1 - k)) ∧
      (w = 32 ∧ x = f.toInt ∨ w ≠ 32 ∧ (Memory.read s.val i).isSome = true ∧ x = (wordAt s.val i).toInt + f.toInt)

/-- The first `n` symbols of the record decode: the cursor is `pos i` before symbol `i`, a symbol whose bit is 0 takes no
bits, and a changed one has a field below `8 * RLIM` that stands for the value `x i`, inside the 32-bit range (R235). -/
def symbolsDecode (s : State) (pos : Nat → Nat) (x : Nat → Int) (n : Nat) : Prop :=
  pos 0 = s.rptr.toNat + 8 * ((s.nsym.toNat + 7) / 8) ∧ ∀ i, i < n →
    if bitmapBit s i then ∃ w, fieldDecodes s i (pos i) w (x i) ∧ pos (i + 1) = pos i + 2 + w ∧
      pos (i + 1) ≤ 8 * s.rlim.toNat ∧ -2147483648 ≤ x i ∧ x i ≤ 2147483647
    else pos (i + 1) = pos i

end Sys2Proof.Machine
end

