-- ==== Sys2Proof/Certificates/Slice0/Obligations.lean ====
section
/-! DEFINITION. The statements about the model, from the numbered rules of spec/. Each docstring says which
sentence or rule it formalises. `errored` and `succeeded` (Sys2Proof/Safety.lean) write out R325 and R303;
`Memory.read` is the model's read of one byte or word of a RAM. -/

open Sys2Proof Sys2Proof.Machine

/-! ### Encoding -/

/-- Decode and encode agree, both ways: the word of every well-formed command decodes to that command with every
field at every value, and a word that decodes to a command is that command's word, so no bit of it is dropped. -/
def Obligations.DecodeInvertsEncode : Prop :=
  ∀ (i : Instr) (c : Word), decode c = .ok i ↔ i.wellFormed = true ∧ encode i = c

/-- R138: "A command word is legal when it matches a row of rule R137 with its fields in range. Every other word is
illegal": exactly the legal words are decoded. -/
def Obligations.LegalWordsAreTheTableRows : Prop :=
  ∀ c : Word, legalWord c = true ↔ ∃ i, decode c = .ok i

/-- Words written out from R131 and R137 (95_test_vectors.md V1) decode to the commands they stand for. -/
def Obligations.SampleWordsDecode : Prop :=
  decode 0x00310002#32 = .ok (.crcByte 0x31#8) ∧ decode 0x00000104#32 = .ok (.crcCheck 1#2) ∧
    decode 0x00008030#32 = .ok (.wbits 32#6) ∧ decode 0x00001031#32 = .ok (.rbits 4#6) ∧
    decode 0x00000012#32 = .ok .encTick ∧ decode 0x00000020#32 = .ok .analyze ∧ decode 0x00000000#32 = .ok .nop

/-! ### Reset and the invariant -/

/-- R360, through the host's reads: every register of the page at its listed value, no command in flight, `irq`
low, whatever the sizes and the host program. -/
def Obligations.PowerOnResetValues : Prop :=
  ∀ (p : Config.Params) (program : List HostOp), let s := State.powerOn p program
    s.inFlight = none ∧ s.irq = false ∧ ∀ r, readReg r s = match r with
      | .id => 0x48445253#32 | .capSym => BitVec.ofNat 32 p.sMax | .capBuf => BitVec.ofNat 32 p.bufBytes
      | .errSym => 0xFFFFFFFF#32 | .tierCfg => 0x00007F07#32 | .crcState => 0xFFFFFFFF#32
      | _ => 0x00000000#32

/-- The machine right after power-on reset, at every size R7 and R8 allow and at the sizes of `State.reset` (the
model's choice, log 1), satisfies the invariant. -/
def Obligations.ResetSatisfiesInvariant : Prop :=
  (∀ (p : Config.Params) (program : List HostOp), p.wf = true → (State.powerOn p program).Inv) ∧ State.reset.Inv

/-- Every step keeps the invariant: sizes in range, RAMs canonical and in bounds (R57 to R59, R115), reserved bits
0 (R33, R40, R46), RLIM in BUF (R49), the error latch consistent with STATUS.ERR and never a reserved code (R321,
R325, R330), no command in flight while an error is latched (R300, R328). -/
def Obligations.StepKeepsInvariant : Prop :=
  ∀ s t : State, s.Inv → step s = .next t → t.Inv

/-- "No behaviour of HDRS-CDE is `stuck`" (93_implementation_defined.md), and a command error is recorded and the engine
goes on (R325): every step of every state answers a next state. That the step of an ILLEGAL host access does so too is
the model's choice (log 7): R94 lets a model take it as a fault of the host program, and U9 lists it as `fault`. -/
def Obligations.EveryStepGoesOn : Prop :=
  ∀ s : State, ∃ t, step s = .next t

/-! ### Issue, completion and errors of every command -/

/-- A command in flight that is due runs as `exec` says, with nothing around it: the completion is one step (R303). -/
def Obligations.StepRunsDecodedCommand : Prop :=
  ∀ (s : State) (c : Word) (i : Instr), s.inFlight = some { word := c, remaining := 0 } → decode c = .ok i →
    step s = exec i s

/-- R305: a started word that is not legal raises ILLEGAL_COMMAND with ERR_INFO = the word and ERR_SYM =
0xFFFFFFFF, reads and writes nothing else, and completes like any other command. -/
def Obligations.IllegalWordRaises : Prop :=
  ∀ (s : State) (c : Word), s.inFlight = some { word := c, remaining := 0 } → legalWord c = false →
    step s = .next (errored s 0x00000005#32 c 0xFFFFFFFF#32)

/-- R326: after an error every register other than STATUS and the error latch, and every RAM word, holds the value
it had before the failing command. -/
def Obligations.ErrorsArePrecise : Prop :=
  ∀ (i : Instr) (s t : State), s.errFlag = false → exec i s = .next t → t.errFlag = true →
    t = errored s t.errReg t.errInfo t.errSym

/-- R323: the errors each command can raise, besides ILLEGAL_COMMAND (code 5), by the CODE bits of ERR. -/
def Obligations.ErrorsByCommand : Prop :=
  ∀ (i : Instr) (s t : State), s.errFlag = false → exec i s = .next t → t.errFlag = true →
    (t.errReg.extractLsb' 0 4).toNat ∈ (5 :: match i with
      | .nop => [] | .crcInit => [] | .crcByte _ => [] | .analyze => []
      | .crcRange => [4] | .crcEmit => [4] | .crcCheck _ => [4, 2]
      | .refCapture => [6, 4] | .encTick => [6, 4] | .refLoad => [6, 1] | .decTick => [6, 1, 3]
      | .wbits _ => [4] | .wflush => [4] | .rbits _ => [1] | .ralign => [1])

/-- R308's table of writes: on success a command writes, besides STATUS.BUSY and DONE, nothing but what its row lists;
so no command writes INT_EN, NSYM, TIER_CFG, RLIM, ARG0, ARG1, OPA, OPB or CUR. Of VAL it writes only words below NSYM
(R100); of BUF, CRC_EMIT writes only the bytes ARG0 to ARG0+3, and a stream writer only the bits from WPTR up to the
WPTR it leaves, the other bits of a written byte keeping their values (R189). -/
def Obligations.CommandsWriteOnlyTheirRow : Prop :=
  ∀ (i : Instr) (s t : State), s.errFlag = false → exec i s = .next t → t.errFlag = false →
    t = succeeded (match i with
      | .nop => s | .crcCheck _ => s
      | .crcInit => { s with crcState := t.crcState } | .crcByte _ => { s with crcState := t.crcState }
      | .crcRange => { s with crcState := t.crcState }
      | .crcEmit => { s with buf := t.buf }
      | .refCapture => { s with val := t.val, wptr := t.wptr, tickcnt := t.tickcnt, buf := t.buf }
      | .refLoad => { s with val := t.val, rptr := t.rptr, tickcnt := t.tickcnt }
      | .encTick => { s with
          val := t.val, wptr := t.wptr, tickcnt := t.tickcnt, result := t.result, aux := t.aux, buf := t.buf }
      | .decTick => { s with
          val := t.val, rptr := t.rptr, tickcnt := t.tickcnt, result := t.result, aux := t.aux }
      | .analyze => { s with result := t.result, aux := t.aux }
      | .wbits _ => { s with wptr := t.wptr, buf := t.buf } | .wflush => { s with wptr := t.wptr, buf := t.buf }
      | .rbits _ => { s with rptr := t.rptr, result := t.result } | .ralign => { s with rptr := t.rptr }) ∧
    (∀ k, s.nsym.toNat ≤ k → Memory.read t.val k = Memory.read s.val k) ∧
    (i = .crcEmit → ∀ a, (a < s.arg0.toNat ∨ s.arg0.toNat + 4 ≤ a) → Memory.read t.buf a = Memory.read s.buf a) ∧
    (i ≠ .crcEmit → s.params.wf = true →
      (∀ a, (∀ q, s.wptr.toNat ≤ q → q < t.wptr.toNat → q / 8 ≠ a) → Memory.read t.buf a = Memory.read s.buf a) ∧
      ∀ d q, (q < s.wptr.toNat ∨ t.wptr.toNat ≤ q) → (Memory.read s.buf (q / 8)).isSome = true →
        getBit d t.buf q = getBit d s.buf q)

/-- "A command never reads or writes a CUR or VAL word with index NSYM or above" (R100, R241). Never written: those
words are as before. Never read: two states that differ only in such words give the same outcome but for them, the free
values of words nothing has written being the same in both (the model's choice, log 2). -/
def Obligations.WordsAtNsymAndAboveUntouched : Prop :=
  (∀ (i : Instr) (s t : State) (k : Nat), exec i s = .next t → s.nsym.toNat ≤ k →
    Memory.read t.val k = Memory.read s.val k ∧ Memory.read t.cur k = Memory.read s.cur k) ∧
  (∀ (i : Instr) (s t : State) (cur' val' : List (Nat × Word)),
    (∀ k, k < s.nsym.toNat → Memory.read cur' k = Memory.read s.cur k ∧ Memory.read val' k = Memory.read s.val k) →
    exec i s = .next t →
    ∃ v, exec i { s with cur := cur', val := val' } = .next { t with cur := cur', val := v } ∧
      ∀ k, k < s.nsym.toNat → Memory.read v k = Memory.read t.val k)

/-- R190: "Every successful writer command leaves WPTR <= 8 * BUF_BYTES. Every successful reader command leaves
RPTR <= 8 * RLIM", and the cursor moved forward, so it did not wrap. -/
def Obligations.CursorsNeverWrap : Prop :=
  ∀ (i : Instr) (s t : State), s.Inv → s.errFlag = false → exec i s = .next t → t.errFlag = false →
    ((i = .wflush ∨ i = .refCapture ∨ i = .encTick ∨ ∃ n, i = .wbits n) →
      t.wptr.toNat ≤ 8 * s.params.bufBytes ∧ s.wptr.toNat ≤ t.wptr.toNat) ∧
    ((i = .ralign ∨ i = .refLoad ∨ i = .decTick ∨ ∃ n, i = .rbits n) →
      t.rptr.toNat ≤ 8 * s.rlim.toNat ∧ s.rptr.toNat ≤ t.rptr.toNat)

/-- R45: the four symbol commands raise BAD_CONFIG, with ERR_INFO = NSYM, when NSYM is 0 or above S_MAX. -/
def Obligations.IllegalNsymRaisesBadConfig : Prop :=
  ∀ (i : Instr) (s : State), (i = .refCapture ∨ i = .refLoad ∨ i = .encTick ∨ i = .decTick) →
    (s.nsym.toNat = 0 ∨ s.params.sMax < s.nsym.toNat) →
      exec i s = .next (errored s 0x00000006#32 s.nsym 0xFFFFFFFF#32)

/-! ### NOP and the CRC engine -/

/-- R304: NOP does nothing and completes. -/
def Obligations.NopCompletes : Prop :=
  decode 0x00000000#32 = .ok .nop ∧ ∀ s : State, exec .nop s = .next (succeeded s)

/-- R273: CRC_INIT starts a new checksum. -/
def Obligations.CrcInitStartsChecksum : Prop :=
  decode 0x00000001#32 = .ok .crcInit ∧
    ∀ s : State, exec .crcInit s = .next (succeeded { s with crcState := 0xFFFFFFFF#32 })

/-- R274 and R271: CRC_BYTE XORs its byte into CRC_STATE and shifts eight times by the reflected polynomial. -/
def Obligations.CrcByteFeedsByte : Prop :=
  (∀ b : BitVec 8, decode (0x02#32 ||| (b.setWidth 32 <<< 16)) = .ok (.crcByte b)) ∧
    let shift : Word → Word := fun st => if st.getLsbD 0 then (st >>> 1) ^^^ 0xEDB88320#32 else st >>> 1
    ∀ (s : State) (b : BitVec 8),
      exec (.crcByte b) s = .next (succeeded { s with crcState := shift^[8] (s.crcState ^^^ b.setWidth 32) })

/-- R275: CRC_RANGE feeds the ARG1 bytes from BUF[ARG0] up in ascending order, as CRC_BYTE would feed each; a range
that passes the end of BUF, by the exact sum, raises BUFFER_RANGE. -/
def Obligations.CrcRangeFeedsBytes : Prop :=
  decode 0x00000003#32 = .ok .crcRange ∧ ∀ s : State,
    let feed : Word → Nat → Word := fun st k => crcUpdate st (byteOr s.draw s.buf (s.arg0.toNat + k))
    (s.arg0.toNat + s.arg1.toNat ≤ s.params.bufBytes → exec .crcRange s = .next (succeeded { s with
      crcState := (List.range s.arg1.toNat).foldl feed s.crcState })) ∧
    (s.params.bufBytes < s.arg0.toNat + s.arg1.toNat →
      exec .crcRange s = .next (errored s 0x00000004#32 s.arg0 0xFFFFFFFF#32))

/-- R270's check value: CRC_RANGE over the nine ASCII bytes "123456789", wherever they lie in BUF. -/
def Obligations.CrcCheckValue : Prop :=
  ∀ s : State, s.arg1 = 9#32 → s.arg0.toNat + 9 ≤ s.params.bufBytes → s.crcState = 0xFFFFFFFF#32 →
    (∀ k, k < 9 → Memory.read s.buf (s.arg0.toNat + k) = some (BitVec.ofNat 8 (0x31 + k))) →
      ∃ t, exec .crcRange s = .next t ∧ t.crcState = 0x340BC6D9#32 ∧ readReg .crcResult t = 0xCBF43926#32

/-- R279: "Feeding the bytes of one region in several CRC_RANGE ... commands in order gives the same CRC_STATE as
feeding them in one", for two commands. -/
def Obligations.CrcRangeSplits : Prop :=
  ∀ (s u v : State) (n1 n2 : Nat), s.params.wf = true → s.arg0.toNat + n1 + n2 ≤ s.params.bufBytes →
    written s.buf s.arg0.toNat (n1 + n2) → exec .crcRange { s with arg1 := BitVec.ofNat 32 n1 } = .next u →
    exec .crcRange { u with arg0 := BitVec.ofNat 32 (s.arg0.toNat + n1), arg1 := BitVec.ofNat 32 n2 } = .next v →
      ∃ w, exec .crcRange { s with arg1 := BitVec.ofNat 32 (n1 + n2) } = .next w ∧ w.crcState = v.crcState

/-- R276: CRC_CHECK compares the big-endian word at BUF[ARG0] with CRC_STATE XOR 0xFFFFFFFF: it succeeds on a match,
raises CHECKSUM_MISMATCH with its LAYER otherwise, and BUFFER_RANGE first when the word is not in BUF. -/
def Obligations.CrcCheckCompares : Prop :=
  (∀ layer : BitVec 2, layer ≠ 3#2 → decode (0x04#32 ||| (layer.setWidth 32 <<< 8)) = .ok (.crcCheck layer)) ∧
  (∀ (s : State) (layer : BitVec 2), layer ≠ 3#2 →
    exec (.crcCheck layer) s = .next (
      if s.params.bufBytes < s.arg0.toNat + 4 then errored s 0x00000004#32 s.arg0 0xFFFFFFFF#32
      else if byteOr s.draw s.buf s.arg0.toNat ++ byteOr s.draw s.buf (s.arg0.toNat + 1)
          ++ byteOr s.draw s.buf (s.arg0.toNat + 2) ++ byteOr s.draw s.buf (s.arg0.toNat + 3)
        = s.crcState ^^^ 0xFFFFFFFF#32 then succeeded s
      else errored s (0x00000002#32 ||| (layer.setWidth 32 <<< 4)) s.arg0 0xFFFFFFFF#32)) ∧
  (∀ s : State, exec (.crcCheck 3#2) s = .next (errored s 0x00000005#32 0x00000304#32 0xFFFFFFFF#32))

/-- R277: CRC_EMIT stores CRC_STATE XOR 0xFFFFFFFF at BUF[ARG0 .. ARG0+3], most significant byte first, and no other
byte; it raises BUFFER_RANGE when the word is not in BUF. -/
def Obligations.CrcEmitStoresWord : Prop :=
  decode 0x00000005#32 = .ok .crcEmit ∧ ∀ s : State,
    (s.arg0.toNat + 4 ≤ s.params.bufBytes → ∃ m, exec .crcEmit s = .next (succeeded { s with buf := m }) ∧
      (∀ k, k < 4 → Memory.read m (s.arg0.toNat + k)
        = some ((s.crcState ^^^ 0xFFFFFFFF#32).extractLsb' (8 * (3 - k)) 8)) ∧
      (∀ a, a < s.arg0.toNat ∨ s.arg0.toNat + 4 ≤ a → Memory.read m a = Memory.read s.buf a)) ∧
    (s.params.bufBytes < s.arg0.toNat + 4 → exec .crcEmit s = .next (errored s 0x00000004#32 s.arg0 0xFFFFFFFF#32))

/-- The word CRC_EMIT stores is the one CRC_CHECK compares with, for every layer (R276, R277). -/
def Obligations.EmitThenCheckSucceeds : Prop :=
  ∀ (s t : State) (layer : BitVec 2), layer ≠ 3#2 → s.arg0.toNat + 4 ≤ s.params.bufBytes →
    exec .crcEmit s = .next t → exec (.crcCheck layer) t = .next (succeeded t)

/-! ### The reference frame -/

/-- R230: REF_CAPTURE writes CUR[0..S-1] as 32-bit fields at WPTR, copies them to VAL and sets TICKCNT to 0; a record
that would pass the end of BUF raises BUFFER_RANGE. (An illegal NSYM: IllegalNsymRaisesBadConfig.) -/
def Obligations.RefCaptureWritesFrame : Prop :=
  decode 0x00000010#32 = .ok .refCapture ∧ ∀ s : State, 1 ≤ s.nsym.toNat → s.nsym.toNat ≤ s.params.sMax →
    (s.wptr.toNat + 32 * s.nsym.toNat ≤ 8 * s.params.bufBytes → ∃ m v,
      exec .refCapture s = .next (succeeded { s with
        buf := m, val := v, wptr := BitVec.ofNat 32 (s.wptr.toNat + 32 * s.nsym.toNat), tickcnt := 0#32 }) ∧
      (∀ i c, i < s.nsym.toNat → Memory.read s.cur i = some c → Memory.read v i = some c) ∧
      (∀ i, s.nsym.toNat ≤ i → Memory.read v i = Memory.read s.val i) ∧
      (written s.cur 0 s.nsym.toNat → bitsWritten s.buf m s.wptr.toNat (32 * s.nsym.toNat)
        fun k => (wordAt s.cur (k / 32)).getLsbD (31 - k % 32)) ∧
      (∀ a, (∀ q, s.wptr.toNat ≤ q → q < s.wptr.toNat + 32 * s.nsym.toNat → q / 8 ≠ a) →
        Memory.read m a = Memory.read s.buf a)) ∧
    (8 * s.params.bufBytes < s.wptr.toNat + 32 * s.nsym.toNat →
      exec .refCapture s = .next (errored s 0x00000004#32 s.wptr 0xFFFFFFFF#32))

/-- R231: REF_LOAD reads S fields of 32 bits at RPTR into VAL and sets TICKCNT to 0; when the record passes 8 * RLIM
it raises TRUNCATED_STREAM at the first symbol whose field does. -/
def Obligations.RefLoadReadsFrame : Prop :=
  decode 0x00000011#32 = .ok .refLoad ∧ ∀ s : State, 1 ≤ s.nsym.toNat → s.nsym.toNat ≤ s.params.sMax →
    (s.rptr.toNat + 32 * s.nsym.toNat ≤ 8 * s.rlim.toNat → ∃ v,
      exec .refLoad s = .next (succeeded { s with
        val := v, rptr := BitVec.ofNat 32 (s.rptr.toNat + 32 * s.nsym.toNat), tickcnt := 0#32 }) ∧
      (∀ i, i < s.nsym.toNat → ∃ c, Memory.read v i = some c ∧
        ∀ k, k < 32 → c.getLsbD (31 - k) = getBit s.draw s.buf (s.rptr.toNat + 32 * i + k)) ∧
      (∀ i, s.nsym.toNat ≤ i → Memory.read v i = Memory.read s.val i)) ∧
    (8 * s.rlim.toNat < s.rptr.toNat + 32 * s.nsym.toNat →
      exec .refLoad s = .next (errored s 0x00000001#32
        (BitVec.ofNat 32 (s.rptr.toNat + 32 * ((8 * s.rlim.toNat - s.rptr.toNat) / 32)))
        (BitVec.ofNat 32 ((8 * s.rlim.toNat - s.rptr.toNat) / 32))))

/-! ### The encoder and the decoder -/

/-- R233 with R150, R151, R210, R232 and R234: over symbols that have been written, ENC_TICK writes exactly the tick
record of CUR against VAL at WPTR, moves VAL to CUR, counts the tick and reports the changed symbols and the
record's bits; a record that would pass the end of BUF raises BUFFER_RANGE. -/
def Obligations.EncTickWritesRecord : Prop :=
  decode 0x00000012#32 = .ok .encTick ∧ ∀ s : State, 1 ≤ s.nsym.toNat → s.nsym.toNat ≤ s.params.sMax →
    written s.cur 0 s.nsym.toNat → written s.val 0 s.nsym.toNat →
    let record := recordOf (s.tierCfg.extractLsb' 0 3).toNat (s.tierCfg.extractLsb' 8 7).toNat s.nsym.toNat
      (wordAt s.cur) (wordAt s.val) s.wptr.toNat
    (s.wptr.toNat + record.length ≤ 8 * s.params.bufBytes → ∃ m v,
      exec .encTick s = .next (succeeded { s with
        buf := m, val := v, wptr := BitVec.ofNat 32 (s.wptr.toNat + record.length), tickcnt := s.tickcnt + 1#32
        result := BitVec.ofNat 32 ((List.range s.nsym.toNat).countP fun i => decide (wordAt s.cur i ≠ wordAt s.val i))
        aux := BitVec.ofNat 32 record.length }) ∧
      bitsWritten s.buf m s.wptr.toNat record.length (fun k => record.getD k false) ∧
      (∀ i, i < s.nsym.toNat → Memory.read v i = Memory.read s.cur i) ∧
      (∀ i, s.nsym.toNat ≤ i → Memory.read v i = Memory.read s.val i)) ∧
    (8 * s.params.bufBytes < s.wptr.toNat + record.length →
      exec .encTick s = .next (errored s 0x00000004#32 s.wptr 0xFFFFFFFF#32))

/-- R150 and R233: a tick record ends on a byte boundary, wherever it starts. -/
def Obligations.EncTickEndsOnByteBoundary : Prop :=
  ∀ s t : State, s.params.wf = true → exec .encTick s = .next t → t.errFlag = false → t.wptr.toNat % 8 = 0

/-- R239, the round trip of one tick: DEC_TICK over the record ENC_TICK wrote, from the same previous tick, gives the
encoded values back, moves RPTR exactly past the record, and reports the same counts. -/
def Obligations.DecTickInvertsEncTick : Prop :=
  ∀ s t u : State, s.params.wf = true → written s.cur 0 s.nsym.toNat → written s.val 0 s.nsym.toNat →
    exec .encTick s = .next t → t.errFlag = false →
    u.params = s.params → u.nsym = s.nsym → u.rptr = s.wptr → t.wptr.toNat ≤ 8 * u.rlim.toNat →
    (∀ i, i < s.nsym.toNat → Memory.read u.val i = Memory.read s.val i) →
    (∀ a, s.wptr.toNat < 8 * a + 8 → 8 * a < t.wptr.toNat → Memory.read u.buf a = Memory.read t.buf a) →
      ∃ v, exec .decTick u = .next (succeeded { u with
          val := v, rptr := t.wptr, tickcnt := u.tickcnt + 1#32, result := t.result, aux := t.aux }) ∧
        (∀ i, i < s.nsym.toNat → Memory.read v i = Memory.read s.cur i) ∧
        (∀ i, s.nsym.toNat ≤ i → Memory.read v i = Memory.read u.val i)

/-- R235: a tick whose bitmap has no symbol's bit set leaves VAL unchanged and reads no fields; the bitmap's padding
bits and the record's padding are not looked at. -/
def Obligations.DecTickUnchangedTick : Prop :=
  decode 0x00000013#32 = .ok .decTick ∧ ∀ s : State, 1 ≤ s.nsym.toNat → s.nsym.toNat ≤ s.params.sMax →
    s.rptr.toNat + 8 * ((s.nsym.toNat + 7) / 8) ≤ 8 * s.rlim.toNat →
    (∀ i, i < s.nsym.toNat → getBit s.draw s.buf (s.rptr.toNat + i) = false) → ∃ v,
      exec .decTick s = .next (succeeded { s with
        val := v, rptr := BitVec.ofNat 32 (8 * ((s.rptr.toNat + 8 * ((s.nsym.toNat + 7) / 8) + 7) / 8))
        aux := BitVec.ofNat 32 (8 * ((s.rptr.toNat + 8 * ((s.nsym.toNat + 7) / 8) + 7) / 8) - s.rptr.toNat)
        tickcnt := s.tickcnt + 1#32, result := 0#32 }) ∧
      (∀ i, (Memory.read s.val i).isSome = true ∨ s.nsym.toNat ≤ i → Memory.read v i = Memory.read s.val i)

/-- R240: a symbol whose bitmap bit is 0 keeps its value, whatever the other symbols do. -/
def Obligations.UnchangedSymbolKeepsValue : Prop :=
  ∀ (s t : State) (i : Nat), exec .decTick s = .next t → t.errFlag = false → i < s.nsym.toNat →
    getBit s.draw s.buf (s.rptr.toNat + i) = false → (Memory.read s.val i).isSome = true →
      Memory.read t.val i = Memory.read s.val i

/-- R236 and R237 on a tick of one symbol: the payload `f` of a selector of width `w`, sign-extended and added for the
4-bit and 8-bit tiers and absolute for the 32-bit tier, is the new value, or DELTA_RANGE_VIOLATION at the
selector's position when it leaves the 32-bit range. -/
def Obligations.DecTickOneSymbol : Prop :=
  ∀ (s : State) (prev : Word) (w : Nat) (f : BitVec w) (b1 b0 : Bool), 1 ≤ s.params.sMax → s.nsym = 1#32 →
    Memory.read s.val 0 = some prev →
    (b1 = false ∧ b0 = false ∧ w = 4 ∨ b1 = false ∧ b0 = true ∧ w = 8 ∨ b1 = true ∧ b0 = false ∧ w = 32) →
    s.rptr.toNat + 10 + w ≤ 8 * s.rlim.toNat → getBit s.draw s.buf s.rptr.toNat = true →
    getBit s.draw s.buf (s.rptr.toNat + 8) = b1 → getBit s.draw s.buf (s.rptr.toNat + 9) = b0 →
    (∀ k, k < w → getBit s.draw s.buf (s.rptr.toNat + 10 + k) = f.getLsbD (w - 1 - k)) →
    let x : Int := if w = 32 then f.toInt else prev.toInt + f.toInt
    let rp := 8 * ((s.rptr.toNat + 10 + w + 7) / 8)
    exec .decTick s = .next (
      if -2147483648 ≤ x ∧ x ≤ 2147483647 then succeeded { s with
        val := Memory.write s.val 0 (BitVec.ofInt 32 x), rptr := BitVec.ofNat 32 rp
        aux := BitVec.ofNat 32 (rp - s.rptr.toNat), tickcnt := s.tickcnt + 1#32, result := 1#32 }
      else errored s 0x00000003#32 (BitVec.ofNat 32 (s.rptr.toNat + 8)) 0#32)

/-- R235's errors in stream order up to the first changed symbol `i`: a cut bitmap, a cut selector, the reserved
selector 11 (R237), a cut payload, a sum outside the 32-bit range (R237), with the position and symbol R324 gives each.
Later changed symbols: DecTickErrorsInStreamOrder. -/
def Obligations.DecTickFirstErrors : Prop :=
  ∀ s : State, 1 ≤ s.nsym.toNat → s.nsym.toNat ≤ s.params.sMax →
    let p := s.rptr.toNat + 8 * ((s.nsym.toNat + 7) / 8)
    (8 * s.rlim.toNat < p → exec .decTick s = .next (errored s 0x00000001#32 s.rptr 0xFFFFFFFF#32)) ∧
    (∀ i, p ≤ 8 * s.rlim.toNat → i < s.nsym.toNat → getBit s.draw s.buf (s.rptr.toNat + i) = true →
      (∀ j, j < i → getBit s.draw s.buf (s.rptr.toNat + j) = false) →
      let b1 := getBit s.draw s.buf p
      let b0 := getBit s.draw s.buf (p + 1)
      let w := if b1 then 32 else if b0 then 8 else 4
      (8 * s.rlim.toNat < p + 2 →
        exec .decTick s = .next (errored s 0x00000001#32 (BitVec.ofNat 32 p) (BitVec.ofNat 32 i))) ∧
      (p + 2 ≤ 8 * s.rlim.toNat → b1 = true → b0 = true →
        exec .decTick s = .next (errored s 0x00000003#32 (BitVec.ofNat 32 p) (BitVec.ofNat 32 i))) ∧
      (p + 2 ≤ 8 * s.rlim.toNat → (b1 && b0) = false → 8 * s.rlim.toNat < p + 2 + w →
        exec .decTick s = .next (errored s 0x00000001#32 (BitVec.ofNat 32 (p + 2)) (BitVec.ofNat 32 i))) ∧
      (∀ (prev : Word) (f : BitVec w), p + 2 + w ≤ 8 * s.rlim.toNat → (b1 && b0) = false →
        Memory.read s.val i = some prev →
        (∀ k, k < w → getBit s.draw s.buf (p + 2 + k) = f.getLsbD (w - 1 - k)) →
        let x : Int := if w = 32 then f.toInt else prev.toInt + f.toInt
        ¬ (-2147483648 ≤ x ∧ x ≤ 2147483647) →
          exec .decTick s = .next (errored s 0x00000003#32 (BitVec.ofNat 32 p) (BitVec.ofNat 32 i))))

/-! ### The analyzer -/

/-- R212 and R213, with R210 and R214: the RESULT word of ANALYZE field by field, and AUX. -/
def Obligations.AnalyzeReportsTier : Prop :=
  decode 0x00000020#32 = .ok .analyze ∧ ∀ s : State, ∃ r : Word,
    let d : Int := s.opa.toInt - s.opb.toInt
    let t4 : Int := (s.tierCfg.extractLsb' 0 3).toNat
    let t8 : Int := (s.tierCfg.extractLsb' 8 7).toNat
    let tier : Nat := if -t4 ≤ d ∧ d ≤ t4 then 0 else if -t8 ≤ d ∧ d ≤ t8 then 1 else 2
    let width : Nat := if tier = 0 then 4 else if tier = 1 then 8 else 32
    exec .analyze s = .next (succeeded { s with result := r, aux := BitVec.ofInt 32 d }) ∧
      (r.extractLsb' 0 2).toNat = tier ∧ r.extractLsb' 2 6 = 0#6 ∧ (r.extractLsb' 8 8).toNat = width ∧
      r.getLsbD 16 = decide (d = 0) ∧ r.getLsbD 17 = decide (¬ (-2147483648 ≤ d ∧ d ≤ 2147483647)) ∧
      r.extractLsb' 18 6 = 0#6 ∧ (r.extractLsb' 24 8).toNat = if d = 0 then 0 else 2 + width

/-- R218: the COST that ANALYZE reports for each symbol is what ENC_TICK spends on it; summed after the bitmap and
rounded up to a byte boundary it is the record's length. -/
def Obligations.AnalyzePredictsEncoder : Prop :=
  ∀ (s t : State) (r : Nat → State), s.params.wf = true → written s.cur 0 s.nsym.toNat →
    written s.val 0 s.nsym.toNat → exec .encTick s = .next t → t.errFlag = false →
    (∀ i, i < s.nsym.toNat → exec .analyze { s with opa := wordAt s.cur i, opb := wordAt s.val i } = .next (r i)) →
      t.aux.toNat = 8 * ((s.wptr.toNat + 8 * ((s.nsym.toNat + 7) / 8)
        + ((List.range s.nsym.toNat).map fun i => ((r i).result.extractLsb' 24 8).toNat).sum + 7) / 8) - s.wptr.toNat

/-! ### The bit stream commands -/

/-- R185 with R183 and R189: WBITS writes the low WIDTH bits of ARG0 at WPTR, most significant first, and no other bit;
a field that would pass the end of BUF raises BUFFER_RANGE; a WIDTH above 32 is an illegal word. -/
def Obligations.WbitsWritesField : Prop :=
  (∀ n : BitVec 6, n.toNat ≤ 32 → decode (0x30#32 ||| (n.setWidth 32 <<< 10)) = .ok (.wbits n)) ∧
  ∀ (s : State) (n : BitVec 6),
    (n.toNat ≤ 32 → s.wptr.toNat + n.toNat ≤ 8 * s.params.bufBytes → ∃ m, exec (.wbits n) s = .next (succeeded { s with
      buf := m, wptr := BitVec.ofNat 32 (s.wptr.toNat + n.toNat) }) ∧
      bitsWritten s.buf m s.wptr.toNat n.toNat fun k => s.arg0.getLsbD (n.toNat - 1 - k)) ∧
    (n.toNat ≤ 32 → 8 * s.params.bufBytes < s.wptr.toNat + n.toNat →
      exec (.wbits n) s = .next (errored s 0x00000004#32 s.wptr 0xFFFFFFFF#32)) ∧
    (32 < n.toNat → exec (.wbits n) s
      = .next (errored s 0x00000005#32 (0x30#32 ||| (n.setWidth 32 <<< 10)) 0xFFFFFFFF#32))

/-- R186 with R184: RBITS reads WIDTH bits at RPTR, the first most significant, zero-extended into RESULT; a field
that passes 8 * RLIM raises TRUNCATED_STREAM; a WIDTH above 32 is an illegal word. -/
def Obligations.RbitsReadsField : Prop :=
  (∀ n : BitVec 6, n.toNat ≤ 32 → decode (0x31#32 ||| (n.setWidth 32 <<< 10)) = .ok (.rbits n)) ∧
  ∀ (s : State) (n : BitVec 6),
    (n.toNat ≤ 32 → s.rptr.toNat + n.toNat ≤ 8 * s.rlim.toNat → ∃ r : Word,
      exec (.rbits n) s = .next (succeeded { s with
        result := r, rptr := BitVec.ofNat 32 (s.rptr.toNat + n.toNat) }) ∧
      (∀ k, k < n.toNat → r.getLsbD (n.toNat - 1 - k) = getBit s.draw s.buf (s.rptr.toNat + k)) ∧
      r.toNat < 2 ^ n.toNat) ∧
    (n.toNat ≤ 32 → 8 * s.rlim.toNat < s.rptr.toNat + n.toNat →
      exec (.rbits n) s = .next (errored s 0x00000001#32 s.rptr 0xFFFFFFFF#32)) ∧
    (32 < n.toNat → exec (.rbits n) s
      = .next (errored s 0x00000005#32 (0x31#32 ||| (n.setWidth 32 <<< 10)) 0xFFFFFFFF#32))

/-- `readBits` "is the inverse" of `writeBits` (40_bitstream.md): RBITS at the position WBITS wrote gives the written
field back. -/
def Obligations.RbitsInvertsWbits : Prop :=
  ∀ (s t : State) (n : BitVec 6), s.Inv → n.toNat ≤ 32 → s.wptr.toNat + n.toNat ≤ 8 * s.params.bufBytes →
    exec (.wbits n) s = .next t → t.wptr.toNat ≤ 8 * s.rlim.toNat →
      exec (.rbits n) { t with rptr := s.wptr } = .next (succeeded { t with
        rptr := t.wptr, result := BitVec.ofNat 32 (s.arg0.toNat % 2 ^ n.toNat) })

/-- R187: WFLUSH writes zero bits from WPTR to the next byte boundary; it raises BUFFER_RANGE only when WPTR is past
the end of BUF. -/
def Obligations.WflushPadsToByte : Prop :=
  decode 0x00000032#32 = .ok .wflush ∧ ∀ s : State,
    (s.wptr.toNat ≤ 8 * s.params.bufBytes → ∃ m, exec .wflush s = .next (succeeded { s with
      buf := m, wptr := BitVec.ofNat 32 (8 * ((s.wptr.toNat + 7) / 8)) }) ∧
      bitsWritten s.buf m s.wptr.toNat (8 * ((s.wptr.toNat + 7) / 8) - s.wptr.toNat) fun _ => false) ∧
    (8 * s.params.bufBytes < s.wptr.toNat → exec .wflush s = .next (errored s 0x00000004#32 s.wptr 0xFFFFFFFF#32))

/-- R188: RALIGN moves RPTR to the next byte boundary; it raises TRUNCATED_STREAM only when RPTR is past 8 * RLIM. -/
def Obligations.RalignSkipsToByte : Prop :=
  decode 0x00000033#32 = .ok .ralign ∧ ∀ s : State,
    (s.rptr.toNat ≤ 8 * s.rlim.toNat → exec .ralign s = .next (succeeded { s with
      rptr := BitVec.ofNat 32 (8 * ((s.rptr.toNat + 7) / 8)) })) ∧
    (8 * s.rlim.toNat < s.rptr.toNat → exec .ralign s = .next (errored s 0x00000001#32 s.rptr 0xFFFFFFFF#32))

/-! ### The host's accesses -/

/-- R300: what a host write of `c` to CMD does in each of its three cases, the host's next operation being that
write. In case 3 the number of steps `k` to the completion is left open (R303); that DONE stays as it was there is the
model's choice (log 20), which no rule states. -/
def Obligations.CmdWriteStartsOrRejects : Prop :=
  ∀ (s : State) (c : Word) (rest : List HostOp), s.host = .write .bits32 0x000014#24 c :: rest →
    (∀ w k, s.inFlight = some { word := w, remaining := k + 1 } → step s = .next { s with
      overrun := true, inFlight := some { word := w, remaining := k }, host := rest, draw := s.draw + 1 }) ∧
    (s.inFlight = none → s.errFlag = true → step s = .next { s with
      reject := true, host := rest, draw := s.draw + 1 }) ∧
    (s.inFlight = none → s.errFlag = false → ∃ k, step s = .next { s with
      inFlight := some { word := c, remaining := k }, host := rest, draw := s.draw + 1 })

/-- R301: while a command is in flight, every legal host write but a soft reset is dropped and sets OVERRUN. -/
def Obligations.WriteWhileBusyIsDropped : Prop :=
  ∀ (s : State) (w : AccessWidth) (off : Offset) (v c : Word) (k : Nat) (rest : List HostOp),
    s.host = .write w off v :: rest → s.inFlight = some { word := c, remaining := k + 1 } →
    legalAccess w off = true → ¬ (off = 0x00000C#24 ∧ v.getLsbD 0 = true) →
      step s = .next { s with
        overrun := true, inFlight := some { word := c, remaining := k }, host := rest, draw := s.draw + 1 }

/-- R106, R111, R301 and R363: a step before the completion changes nothing a command reads, unless it is the host's
write to CTRL with bit 0 = 1, the soft reset, which aborts the command. Nothing else aborts one, so the command sees the
state at its start. -/
def Obligations.InputFixedWhileBusy : Prop :=
  ∀ (s t : State) (c : Word) (k : Nat), s.inFlight = some { word := c, remaining := k + 1 } → step s = .next t →
    (t = { s with
      inFlight := some { word := c, remaining := k }, overrun := t.overrun, host := t.host, replies := t.replies
      draw := s.draw + 1 }) ∨
    (∃ (v : Word) (rest : List HostOp), s.host = .write .bits32 0x00000C#24 v :: rest ∧ v.getLsbD 0 = true ∧
      t = { State.powerOn s.params rest with
        cur := s.cur, val := s.val, buf := s.buf, replies := s.replies, draw := s.draw + 1 })

/-- R362 and R363: a host write to CTRL with bit 0 = 1 sets every register to its reset value in one step, busy or
not, aborts any command in flight, and leaves CUR, VAL and BUF unchanged. -/
def Obligations.SoftResetAtAnyTime : Prop :=
  ∀ (s : State) (v : Word) (rest : List HostOp), s.host = .write .bits32 0x00000C#24 v :: rest →
    v.getLsbD 0 = true → (s.inFlight = none ∨ ∃ c k, s.inFlight = some { word := c, remaining := k + 1 }) →
      step s = .next { State.powerOn s.params rest with
        cur := s.cur, val := s.val, buf := s.buf, replies := s.replies, draw := s.draw + 1 }

/-- R36 and R330: a host write of `v` to STATUS while BUSY = 0 clears the W1C bits written as 1, and clearing ERR
returns from the error; BUSY and the reserved bits are not written. -/
def Obligations.StatusWriteClears : Prop :=
  ∀ (s : State) (v : Word) (rest : List HostOp), s.host = .write .bits32 0x000010#24 v :: rest → s.inFlight = none →
    step s = .next { s with
      done := s.done && !v.getLsbD 1
      errFlag := s.errFlag && !v.getLsbD 2
      errReg := if v.getLsbD 2 then 0#32 else s.errReg
      errInfo := if v.getLsbD 2 then 0#32 else s.errInfo
      errSym := if v.getLsbD 2 then 0xFFFFFFFF#32 else s.errSym
      overrun := s.overrun && !v.getLsbD 3
      reject := s.reject && !v.getLsbD 4
      host := rest, draw := s.draw + 1 }

/-- R102: "No host read has a side effect": a read, legal or not, changes no state of the engine, idle or busy; the host
learns one reply. That an ILLEGAL read is answered by a reply and the run goes on is the model's choice (log 7): R94 lets
a model take it as a fault of the host program. -/
def Obligations.HostReadHasNoSideEffect : Prop :=
  ∀ (s : State) (w : AccessWidth) (off : Offset) (rest : List HostOp), s.host = .read w off :: rest →
    (s.inFlight = none → ∃ r, step s = .next { s with
      replies := r :: s.replies, host := rest, draw := s.draw + 1 }) ∧
    (∀ c k, s.inFlight = some { word := c, remaining := k + 1 } → ∃ r, step s = .next { s with
      inFlight := some { word := c, remaining := k }
      replies := r :: s.replies, host := rest, draw := s.draw + 1 })

/-- R301 and R36: STATUS reads exactly at any time: REJECT, OVERRUN, ERR, DONE, BUSY in bits 4 to 0, the rest 0. -/
def Obligations.StatusReadIsExact : Prop :=
  ∀ (s t : State) (rest : List HostOp), s.host = .read .bits32 0x000010#24 :: rest →
    (s.inFlight = none ∨ ∃ c k, s.inFlight = some { word := c, remaining := k + 1 }) → step s = .next t →
      t.replies = .word (BitVec.ofNat 32 (s.reject.toNat * 16 + s.overrun.toNat * 8 + s.errFlag.toNat * 4
        + s.done.toNat * 2 + s.inFlight.isSome.toNat)) :: s.replies

/-- R93 and R94: every other access than those of R93 gets a bus error, which is a reply (log 7), and changes no engine
state, busy or not. 8-bit accesses below 0x300000 are illegal ones, reserved offsets of the page included (log 12). -/
def Obligations.IllegalAccessGetsBusError : Prop :=
  ∀ (s : State) (w : AccessWidth) (off : Offset) (v : Word) (rest : List HostOp),
    (s.host = .read w off :: rest ∨ s.host = .write w off v :: rest) →
    (w = .bits16 ∨ w = .bits64Up ∨ w = .bits32 ∧ off.toNat % 4 ≠ 0 ∨ w = .bits8 ∧ off.toNat < 0x300000) →
      (s.inFlight = none → step s = .next { s with
        replies := .busError :: s.replies, host := rest, draw := s.draw + 1 }) ∧
      (∀ c k, s.inFlight = some { word := c, remaining := k + 1 } → step s = .next { s with
        inFlight := some { word := c, remaining := k }
        replies := .busError :: s.replies, host := rest, draw := s.draw + 1 })

/-- R95: a legal 32-bit or 8-bit access to a reserved offset or region, or to an element beyond the valid ones, reads
as 0 and ignores writes, while BUSY = 0. -/
def Obligations.ReservedLocationsReadZero : Prop :=
  ∀ (s : State) (off : Offset) (v : Word) (rest : List HostOp), s.inFlight = none →
    (off.toNat % 4 = 0 →
      (0x60 ≤ off.toNat ∧ off.toNat < 0x100000 ∨
        0x100000 + 4 * s.params.sMax ≤ off.toNat ∧ off.toNat < 0x200000 ∨
        0x200000 + 4 * s.params.sMax ≤ off.toNat ∧ off.toNat < 0x800000 ∨
        0x800000 + s.params.bufBytes ≤ off.toNat) →
        (s.host = .read .bits32 off :: rest → step s = .next { s with
          replies := .word 0#32 :: s.replies, host := rest, draw := s.draw + 1 }) ∧
        (s.host = .write .bits32 off v :: rest → step s = .next { s with host := rest, draw := s.draw + 1 })) ∧
    (0x300000 ≤ off.toNat ∧ off.toNat < 0x800000 ∨ 0x800000 + s.params.bufBytes ≤ off.toNat →
        (s.host = .read .bits8 off :: rest → step s = .next { s with
          replies := .byte 0#8 :: s.replies, host := rest, draw := s.draw + 1 }) ∧
        (s.host = .write .bits8 off v :: rest → step s = .next { s with host := rest, draw := s.draw + 1 }))

/-- R96, at valid bytes of BUF while BUSY = 0: a 32-bit host write at BUF offset `a` stores `BUF[a+i] <- v[8i+7:8i]` and
no other byte, and a 32-bit host read of bytes that have been written returns `BUF[a+3] ++ BUF[a+2] ++ BUF[a+1] ++ BUF[a]`;
an 8-bit write, at any offset (R93), stores bits 7:0 of its data (log 5) in byte `a` and no other, and an 8-bit read of a
byte that has been written returns it. -/
def Obligations.BufWindowLanes : Prop :=
  ∀ (s : State) (a : Nat) (v : Word) (rest : List HostOp), s.inFlight = none → s.params.wf = true →
    (a % 4 = 0 → a + 4 ≤ s.params.bufBytes →
      (s.host = .write .bits32 (BitVec.ofNat 24 (0x800000 + a)) v :: rest → ∃ m,
        step s = .next { s with buf := m, host := rest, draw := s.draw + 1 } ∧
        (∀ i, i < 4 → Memory.read m (a + i) = some (v.extractLsb' (8 * i) 8)) ∧
        (∀ k, (k < a ∨ a + 4 ≤ k) → Memory.read m k = Memory.read s.buf k)) ∧
      (s.host = .read .bits32 (BitVec.ofNat 24 (0x800000 + a)) :: rest → ∀ b3 b2 b1 b0 : Byte,
        Memory.read s.buf a = some b0 → Memory.read s.buf (a + 1) = some b1 → Memory.read s.buf (a + 2) = some b2 →
        Memory.read s.buf (a + 3) = some b3 → step s = .next { s with
          replies := .word (b3 ++ b2 ++ b1 ++ b0) :: s.replies, host := rest, draw := s.draw + 1 })) ∧
    (a < s.params.bufBytes →
      (s.host = .write .bits8 (BitVec.ofNat 24 (0x800000 + a)) v :: rest → ∃ m,
        step s = .next { s with buf := m, host := rest, draw := s.draw + 1 } ∧
        Memory.read m a = some (v.extractLsb' 0 8) ∧ (∀ k, k ≠ a → Memory.read m k = Memory.read s.buf k)) ∧
      (s.host = .read .bits8 (BitVec.ofNat 24 (0x800000 + a)) :: rest → ∀ b : Byte, Memory.read s.buf a = some b →
        step s = .next { s with replies := .byte b :: s.replies, host := rest, draw := s.draw + 1 }))

/-- R114: a host write of `CUR[i]` or `VAL[i]` stores the word and changes no other; a host read of a word that has been
written returns it. -/
def Obligations.SymbolWindowsHoldWords : Prop :=
  ∀ (s : State) (i : Nat) (v : Word) (rest : List HostOp), s.inFlight = none → s.params.wf = true → i < s.params.sMax →
    (s.host = .write .bits32 (BitVec.ofNat 24 (0x100000 + 4 * i)) v :: rest → ∃ m,
      step s = .next { s with cur := m, host := rest, draw := s.draw + 1 } ∧
      ∀ k, Memory.read m k = if k = i then some v else Memory.read s.cur k) ∧
    (s.host = .write .bits32 (BitVec.ofNat 24 (0x200000 + 4 * i)) v :: rest → ∃ m,
      step s = .next { s with val := m, host := rest, draw := s.draw + 1 } ∧
      ∀ k, Memory.read m k = if k = i then some v else Memory.read s.val k) ∧
    (s.host = .read .bits32 (BitVec.ofNat 24 (0x100000 + 4 * i)) :: rest → Memory.read s.cur i = some v →
      step s = .next { s with replies := .word v :: s.replies, host := rest, draw := s.draw + 1 }) ∧
    (s.host = .read .bits32 (BitVec.ofNat 24 (0x200000 + 4 * i)) :: rest → Memory.read s.val i = some v →
      step s = .next { s with replies := .word v :: s.replies, host := rest, draw := s.draw + 1 })

/-- R33 on the register page while BUSY = 0: a written RW register reads back as written, INT_EN and TIER_CFG without
their reserved bits (R40, R46), RLIM as min(v, BUF_BYTES) (R49); a write of a RO register, and one of CTRL with bit 0 = 0
(R35), changes nothing a read shows. The write has no other effect (R103): no other register that is read changes, and
no RAM. CRC_RESULT always reads CRC_STATE XOR 0xFFFFFFFF (R56, R272). -/
def Obligations.RegisterWritesReadBack : Prop :=
  (∀ (s : State) (r q : Reg) (v : Word), s.Inv → r ≠ .status → r ≠ .cmd → (r = .ctrl → v.getLsbD 0 = false) →
    let t := writeReg r v s
    (q ≠ r → (r = .crcState → q ≠ .crcResult) → readReg q t = readReg q s) ∧
    (t.cur = s.cur ∧ t.val = s.val ∧ t.buf = s.buf ∧ t.params = s.params ∧ t.inFlight = s.inFlight ∧
      t.host = s.host ∧ t.replies = s.replies ∧ t.draw = s.draw) ∧
    readReg r t = match r with
      | .intEn => v &&& 0x00000003#32
      | .tierCfg => v &&& 0x00007F07#32
      | .rlim => if v.toNat ≤ s.params.bufBytes then v else BitVec.ofNat 32 s.params.bufBytes
      | .nsym => v | .wptr => v | .rptr => v | .tickcnt => v | .arg0 => v | .arg1 => v | .opa => v | .opb => v
      | .crcState => v
      | _ => readReg r s) ∧
  ∀ s : State, readReg .crcResult s = readReg .crcState s ^^^ 0xFFFFFFFF#32

/-- The register page is reached by 32-bit accesses at the offsets of R32: a host write at a register's offset is
that register's write, and a host read there returns that register, while BUSY = 0. -/
def Obligations.RegisterPageOffsets : Prop :=
  ∀ (s : State) (r : Reg) (v : Word) (rest : List HostOp), s.inFlight = none →
    (s.host = .write .bits32 (BitVec.ofNat 24 r.offset) v :: rest →
      step s = .next (advance (writeReg r v { s with host := rest }))) ∧
    (s.host = .read .bits32 (BitVec.ofNat 24 r.offset) :: rest → step s = .next { s with
      replies := .word (readReg r s) :: s.replies, host := rest, draw := s.draw + 1 }) ∧
    [Reg.id, .capSym, .capBuf, .ctrl, .status, .cmd, .intEn, .err, .errInfo, .errSym, .nsym, .tierCfg, .wptr, .rptr,
      .rlim, .tickcnt, .arg0, .arg1, .opa, .opb, .result, .aux, .crcState, .crcResult][r.offset / 4]? = some r

/-! ### Interrupt and progress -/

/-- R332 and R333: `irq` is the level of STATUS and INT_EN, and changes in the same step as the bits it reads: a
completion raises it if DONE_IE is set, and one that leaves ERR set if ERR_IE is. -/
def Obligations.IrqIsALevel : Prop :=
  (∀ s : State, s.irq = true ↔ s.done = true ∧ s.intEn.getLsbD 0 = true ∨ s.errFlag = true ∧ s.intEn.getLsbD 1 = true) ∧
    ∀ (i : Instr) (s t : State), exec i s = .next t →
      (s.intEn.getLsbD 0 = true ∨ t.errFlag = true ∧ s.intEn.getLsbD 1 = true) → t.irq = true

/-- R372, in the model's countdown (log 4): a started command completes or is aborted by a soft reset: one of the
`k + 1` next steps leaves no command in flight. That illegal host accesses among those steps do not end the run is the
model's choice (log 7). -/
def Obligations.StartedCommandCompletes : Prop :=
  ∀ (s : State) (c : Word) (k : Nat), s.inFlight = some { word := c, remaining := k } →
    ∃ j t, j ≤ k ∧ Sys2Proof.core.run (j + 1) s = .next t ∧ State.inFlight t = none

/-- R303: a command's completion clears BUSY and sets DONE, on success and on error alike. -/
def Obligations.CompletionSetsDone : Prop :=
  ∀ (s t : State) (c : Word), s.inFlight = some { word := c, remaining := 0 } → step s = .next t →
    t.inFlight = none ∧ t.done = true

/-- The model's own counter (log 19): every step advances it by one, so no two steps of a run share a free value. -/
def Obligations.EveryStepDrawsAnew : Prop :=
  ∀ s t : State, step s = .next t → t.draw = s.draw + 1

/-! ### The decoder on any stream -/

/-- R235 and R236 on any stream, one ENC_TICK wrote or not: when the `S` symbols decode in order, `x i` the exact value
of changed symbol `i` and `pos i` the cursor before symbol `i`, DEC_TICK sets VAL to those values, keeps the words of the
symbols whose bit is 0 (R240) and of those from NSYM up (R241), moves RPTR past the record and its padding (unchecked,
R238), and reports the changed symbols and the record's bits. -/
def Obligations.DecTickDecodesStream : Prop :=
  ∀ (s : State) (pos : Nat → Nat) (x : Nat → Int), 1 ≤ s.nsym.toNat → s.nsym.toNat ≤ s.params.sMax →
    s.rptr.toNat + 8 * ((s.nsym.toNat + 7) / 8) ≤ 8 * s.rlim.toNat → symbolsDecode s pos x s.nsym.toNat →
    let rp := 8 * ((pos s.nsym.toNat + 7) / 8)
    ∃ v, exec .decTick s = .next (succeeded { s with
        val := v, rptr := BitVec.ofNat 32 rp, aux := BitVec.ofNat 32 (rp - s.rptr.toNat), tickcnt := s.tickcnt + 1#32
        result := BitVec.ofNat 32 ((List.range s.nsym.toNat).countP (bitmapBit s)) }) ∧
      (∀ i, i < s.nsym.toNat → bitmapBit s i = true → Memory.read v i = some (BitVec.ofInt 32 (x i))) ∧
      (∀ i, i < s.nsym.toNat → bitmapBit s i = false → (Memory.read s.val i).isSome = true →
        Memory.read v i = Memory.read s.val i) ∧
      (∀ i, s.nsym.toNat ≤ i → Memory.read v i = Memory.read s.val i)

/-- R235 and R237 at any changed symbol `n` of any stream, the symbols before it having decoded: a cut selector, the
reserved selector 11, a cut payload of the width the selector names, or a value outside the 32-bit range raises its
error with the position and symbol R324 gives, whatever follows in the stream. -/
def Obligations.DecTickErrorsInStreamOrder : Prop :=
  ∀ (s : State) (pos : Nat → Nat) (x : Nat → Int) (n : Nat), 1 ≤ s.nsym.toNat → s.nsym.toNat ≤ s.params.sMax →
    s.rptr.toNat + 8 * ((s.nsym.toNat + 7) / 8) ≤ 8 * s.rlim.toNat → n < s.nsym.toNat → bitmapBit s n = true →
    symbolsDecode s pos x n →
    let limit := 8 * s.rlim.toNat
    (limit < pos n + 2 →
      exec .decTick s = .next (errored s 0x00000001#32 (BitVec.ofNat 32 (pos n)) (BitVec.ofNat 32 n))) ∧
    (pos n + 2 ≤ limit → selectorAt s (pos n) = (true, true) →
      exec .decTick s = .next (errored s 0x00000003#32 (BitVec.ofNat 32 (pos n)) (BitVec.ofNat 32 n))) ∧
    (∀ w, selectorWidth (selectorAt s (pos n)) = some w → pos n + 2 ≤ limit → limit < pos n + 2 + w →
      exec .decTick s = .next (errored s 0x00000001#32 (BitVec.ofNat 32 (pos n + 2)) (BitVec.ofNat 32 n))) ∧
    (∀ w y, fieldDecodes s n (pos n) w y → pos n + 2 + w ≤ limit → ¬ (-2147483648 ≤ y ∧ y ≤ 2147483647) →
      exec .decTick s = .next (errored s 0x00000003#32 (BitVec.ofNat 32 (pos n)) (BitVec.ofNat 32 n)))
end

