-- ==== Sys2Proof/Laws/Decode.lean ====
section
/-! SUPPORT. The decoder's shared parts, and a command word as its five fields. -/

namespace Sys2Proof

/-- A word is its fields, from bit 31 down (R131). -/
theorem word_eq_fields (c : Word) :
    c = reservedField c ++ imm8Field c ++ widthField c ++ layerField c ++ opcodeField c := by
  unfold reservedField imm8Field widthField layerField opcodeField
  apply BitVec.eq_of_getLsbD_eq
  intro i hi
  simp only [BitVec.getLsbD_append, BitVec.getLsbD_extractLsb']
  have : i < 32 := hi
  interval_cases i <;> simp

/-- A word is given by the values of its fields. -/
theorem word_of_fields {c : Word} {r m o : BitVec 8} {w : BitVec 6} {l : BitVec 2} (hr : reservedField c = r)
    (hm : imm8Field c = m) (hw : widthField c = w) (hl : layerField c = l) (ho : (opcodeField c).toNat = o.toNat) :
    c = r ++ m ++ w ++ l ++ o := by
  rw [word_eq_fields c, hr, hm, hw, hl, BitVec.eq_of_toNat_eq ho]

theorem whenUnusedZero_eq_ok {c : Word} {z : Bool} {e : Except DecodeReject Instr} {i : Instr} :
    whenUnusedZero c z e = .ok i ↔ reservedField c = 0#8 ∧ z = true ∧ e = .ok i := by
  unfold whenUnusedZero
  by_cases h : reservedField c = 0#8 <;> cases z <;> simp [h]

/-- A command with no field is read only from the word with every field but OPCODE 0 (R136). -/
theorem plainCommand_eq_ok {c : Word} {i j : Instr} : plainCommand c i = .ok j ↔
    reservedField c = 0#8 ∧ imm8Field c = 0#8 ∧ widthField c = 0#6 ∧ layerField c = 0#2 ∧ i = j := by
  simp only [plainCommand, whenUnusedZero_eq_ok, Bool.and_eq_true, beq_iff_eq, Except.ok.injEq]
  tauto

/-- A WIDTH command is read only with WIDTH legal and every other field but OPCODE 0 (R134, R136). -/
theorem widthCommand_eq_ok {c : Word} {f : BitVec 6 → Instr} {j : Instr} : widthCommand c f = .ok j ↔
    reservedField c = 0#8 ∧ imm8Field c = 0#8 ∧ layerField c = 0#2 ∧ widthLegal (widthField c) = true ∧
      f (widthField c) = j := by
  simp only [widthCommand, whenUnusedZero_eq_ok, Bool.and_eq_true, beq_iff_eq]
  cases widthLegal (widthField c) <;> (simp; try tauto)

end Sys2Proof
end

