-- ==== Sys2Proof/Laws/State.lean ====
section
/-! SUPPORT. One lemma for each field of State and each shared update of it, true by rfl, so that no proof unfolds
a record update: `advance`, `commit`, `raiseError`, `clearError`, `softReset`. -/

namespace Sys2Proof.Machine

variable (s : State)

@[simp] theorem advance_params : (advance s).params = s.params := rfl
@[simp] theorem advance_inFlight : (advance s).inFlight = s.inFlight := rfl
@[simp] theorem advance_done : (advance s).done = s.done := rfl
@[simp] theorem advance_errFlag : (advance s).errFlag = s.errFlag := rfl
@[simp] theorem advance_overrun : (advance s).overrun = s.overrun := rfl
@[simp] theorem advance_reject : (advance s).reject = s.reject := rfl
@[simp] theorem advance_intEn : (advance s).intEn = s.intEn := rfl
@[simp] theorem advance_errReg : (advance s).errReg = s.errReg := rfl
@[simp] theorem advance_errInfo : (advance s).errInfo = s.errInfo := rfl
@[simp] theorem advance_errSym : (advance s).errSym = s.errSym := rfl
@[simp] theorem advance_nsym : (advance s).nsym = s.nsym := rfl
@[simp] theorem advance_tierCfg : (advance s).tierCfg = s.tierCfg := rfl
@[simp] theorem advance_wptr : (advance s).wptr = s.wptr := rfl
@[simp] theorem advance_rptr : (advance s).rptr = s.rptr := rfl
@[simp] theorem advance_rlim : (advance s).rlim = s.rlim := rfl
@[simp] theorem advance_tickcnt : (advance s).tickcnt = s.tickcnt := rfl
@[simp] theorem advance_arg0 : (advance s).arg0 = s.arg0 := rfl
@[simp] theorem advance_arg1 : (advance s).arg1 = s.arg1 := rfl
@[simp] theorem advance_opa : (advance s).opa = s.opa := rfl
@[simp] theorem advance_opb : (advance s).opb = s.opb := rfl
@[simp] theorem advance_result : (advance s).result = s.result := rfl
@[simp] theorem advance_aux : (advance s).aux = s.aux := rfl
@[simp] theorem advance_crcState : (advance s).crcState = s.crcState := rfl
@[simp] theorem advance_cur : (advance s).cur = s.cur := rfl
@[simp] theorem advance_val : (advance s).val = s.val := rfl
@[simp] theorem advance_buf : (advance s).buf = s.buf := rfl
@[simp] theorem advance_host : (advance s).host = s.host := rfl
@[simp] theorem advance_replies : (advance s).replies = s.replies := rfl
@[simp] theorem advance_draw : (advance s).draw = s.draw + 1 := rfl

@[simp] theorem commit_params : (commit s).params = s.params := rfl
@[simp] theorem commit_inFlight : (commit s).inFlight = none := rfl
@[simp] theorem commit_done : (commit s).done = true := rfl
@[simp] theorem commit_errFlag : (commit s).errFlag = s.errFlag := rfl
@[simp] theorem commit_overrun : (commit s).overrun = s.overrun := rfl
@[simp] theorem commit_reject : (commit s).reject = s.reject := rfl
@[simp] theorem commit_intEn : (commit s).intEn = s.intEn := rfl
@[simp] theorem commit_errReg : (commit s).errReg = s.errReg := rfl
@[simp] theorem commit_errInfo : (commit s).errInfo = s.errInfo := rfl
@[simp] theorem commit_errSym : (commit s).errSym = s.errSym := rfl
@[simp] theorem commit_nsym : (commit s).nsym = s.nsym := rfl
@[simp] theorem commit_tierCfg : (commit s).tierCfg = s.tierCfg := rfl
@[simp] theorem commit_wptr : (commit s).wptr = s.wptr := rfl
@[simp] theorem commit_rptr : (commit s).rptr = s.rptr := rfl
@[simp] theorem commit_rlim : (commit s).rlim = s.rlim := rfl
@[simp] theorem commit_tickcnt : (commit s).tickcnt = s.tickcnt := rfl
@[simp] theorem commit_arg0 : (commit s).arg0 = s.arg0 := rfl
@[simp] theorem commit_arg1 : (commit s).arg1 = s.arg1 := rfl
@[simp] theorem commit_opa : (commit s).opa = s.opa := rfl
@[simp] theorem commit_opb : (commit s).opb = s.opb := rfl
@[simp] theorem commit_result : (commit s).result = s.result := rfl
@[simp] theorem commit_aux : (commit s).aux = s.aux := rfl
@[simp] theorem commit_crcState : (commit s).crcState = s.crcState := rfl
@[simp] theorem commit_cur : (commit s).cur = s.cur := rfl
@[simp] theorem commit_val : (commit s).val = s.val := rfl
@[simp] theorem commit_buf : (commit s).buf = s.buf := rfl
@[simp] theorem commit_host : (commit s).host = s.host := rfl
@[simp] theorem commit_replies : (commit s).replies = s.replies := rfl
@[simp] theorem commit_draw : (commit s).draw = s.draw + 1 := rfl

@[simp] theorem raiseError_params (e : CmdError) : (raiseError s e).params = s.params := rfl
@[simp] theorem raiseError_inFlight (e : CmdError) : (raiseError s e).inFlight = none := rfl
@[simp] theorem raiseError_done (e : CmdError) : (raiseError s e).done = true := rfl
@[simp] theorem raiseError_errFlag (e : CmdError) : (raiseError s e).errFlag = true := rfl
@[simp] theorem raiseError_overrun (e : CmdError) : (raiseError s e).overrun = s.overrun := rfl
@[simp] theorem raiseError_reject (e : CmdError) : (raiseError s e).reject = s.reject := rfl
@[simp] theorem raiseError_intEn (e : CmdError) : (raiseError s e).intEn = s.intEn := rfl
@[simp] theorem raiseError_errReg (e : CmdError) : (raiseError s e).errReg = e.errWord := rfl
@[simp] theorem raiseError_errInfo (e : CmdError) : (raiseError s e).errInfo = e.info := rfl
@[simp] theorem raiseError_errSym (e : CmdError) : (raiseError s e).errSym = e.sym := rfl
@[simp] theorem raiseError_nsym (e : CmdError) : (raiseError s e).nsym = s.nsym := rfl
@[simp] theorem raiseError_tierCfg (e : CmdError) : (raiseError s e).tierCfg = s.tierCfg := rfl
@[simp] theorem raiseError_wptr (e : CmdError) : (raiseError s e).wptr = s.wptr := rfl
@[simp] theorem raiseError_rptr (e : CmdError) : (raiseError s e).rptr = s.rptr := rfl
@[simp] theorem raiseError_rlim (e : CmdError) : (raiseError s e).rlim = s.rlim := rfl
@[simp] theorem raiseError_tickcnt (e : CmdError) : (raiseError s e).tickcnt = s.tickcnt := rfl
@[simp] theorem raiseError_arg0 (e : CmdError) : (raiseError s e).arg0 = s.arg0 := rfl
@[simp] theorem raiseError_arg1 (e : CmdError) : (raiseError s e).arg1 = s.arg1 := rfl
@[simp] theorem raiseError_opa (e : CmdError) : (raiseError s e).opa = s.opa := rfl
@[simp] theorem raiseError_opb (e : CmdError) : (raiseError s e).opb = s.opb := rfl
@[simp] theorem raiseError_result (e : CmdError) : (raiseError s e).result = s.result := rfl
@[simp] theorem raiseError_aux (e : CmdError) : (raiseError s e).aux = s.aux := rfl
@[simp] theorem raiseError_crcState (e : CmdError) : (raiseError s e).crcState = s.crcState := rfl
@[simp] theorem raiseError_cur (e : CmdError) : (raiseError s e).cur = s.cur := rfl
@[simp] theorem raiseError_val (e : CmdError) : (raiseError s e).val = s.val := rfl
@[simp] theorem raiseError_buf (e : CmdError) : (raiseError s e).buf = s.buf := rfl
@[simp] theorem raiseError_host (e : CmdError) : (raiseError s e).host = s.host := rfl
@[simp] theorem raiseError_replies (e : CmdError) : (raiseError s e).replies = s.replies := rfl
@[simp] theorem raiseError_draw (e : CmdError) : (raiseError s e).draw = s.draw + 1 := rfl

@[simp] theorem clearError_params : (clearError s).params = s.params := rfl
@[simp] theorem clearError_inFlight : (clearError s).inFlight = s.inFlight := rfl
@[simp] theorem clearError_done : (clearError s).done = s.done := rfl
@[simp] theorem clearError_errFlag : (clearError s).errFlag = false := rfl
@[simp] theorem clearError_overrun : (clearError s).overrun = s.overrun := rfl
@[simp] theorem clearError_reject : (clearError s).reject = s.reject := rfl
@[simp] theorem clearError_intEn : (clearError s).intEn = s.intEn := rfl
@[simp] theorem clearError_errReg : (clearError s).errReg = 0x00000000#32 := rfl
@[simp] theorem clearError_errInfo : (clearError s).errInfo = 0x00000000#32 := rfl
@[simp] theorem clearError_errSym : (clearError s).errSym = noSymbol := rfl
@[simp] theorem clearError_nsym : (clearError s).nsym = s.nsym := rfl
@[simp] theorem clearError_tierCfg : (clearError s).tierCfg = s.tierCfg := rfl
@[simp] theorem clearError_wptr : (clearError s).wptr = s.wptr := rfl
@[simp] theorem clearError_rptr : (clearError s).rptr = s.rptr := rfl
@[simp] theorem clearError_rlim : (clearError s).rlim = s.rlim := rfl
@[simp] theorem clearError_tickcnt : (clearError s).tickcnt = s.tickcnt := rfl
@[simp] theorem clearError_arg0 : (clearError s).arg0 = s.arg0 := rfl
@[simp] theorem clearError_arg1 : (clearError s).arg1 = s.arg1 := rfl
@[simp] theorem clearError_opa : (clearError s).opa = s.opa := rfl
@[simp] theorem clearError_opb : (clearError s).opb = s.opb := rfl
@[simp] theorem clearError_result : (clearError s).result = s.result := rfl
@[simp] theorem clearError_aux : (clearError s).aux = s.aux := rfl
@[simp] theorem clearError_crcState : (clearError s).crcState = s.crcState := rfl
@[simp] theorem clearError_cur : (clearError s).cur = s.cur := rfl
@[simp] theorem clearError_val : (clearError s).val = s.val := rfl
@[simp] theorem clearError_buf : (clearError s).buf = s.buf := rfl
@[simp] theorem clearError_host : (clearError s).host = s.host := rfl
@[simp] theorem clearError_replies : (clearError s).replies = s.replies := rfl
@[simp] theorem clearError_draw : (clearError s).draw = s.draw := rfl

@[simp] theorem softReset_params : (softReset s).params = s.params := rfl
@[simp] theorem softReset_inFlight : (softReset s).inFlight = none := rfl
@[simp] theorem softReset_done : (softReset s).done = false := rfl
@[simp] theorem softReset_errFlag : (softReset s).errFlag = false := rfl
@[simp] theorem softReset_overrun : (softReset s).overrun = false := rfl
@[simp] theorem softReset_reject : (softReset s).reject = false := rfl
@[simp] theorem softReset_intEn : (softReset s).intEn = 0x00000000#32 := rfl
@[simp] theorem softReset_errReg : (softReset s).errReg = 0x00000000#32 := rfl
@[simp] theorem softReset_errInfo : (softReset s).errInfo = 0x00000000#32 := rfl
@[simp] theorem softReset_errSym : (softReset s).errSym = noSymbol := rfl
@[simp] theorem softReset_nsym : (softReset s).nsym = 0x00000000#32 := rfl
@[simp] theorem softReset_tierCfg : (softReset s).tierCfg = 0x00007F07#32 := rfl
@[simp] theorem softReset_wptr : (softReset s).wptr = 0x00000000#32 := rfl
@[simp] theorem softReset_rptr : (softReset s).rptr = 0x00000000#32 := rfl
@[simp] theorem softReset_rlim : (softReset s).rlim = 0x00000000#32 := rfl
@[simp] theorem softReset_tickcnt : (softReset s).tickcnt = 0x00000000#32 := rfl
@[simp] theorem softReset_arg0 : (softReset s).arg0 = 0x00000000#32 := rfl
@[simp] theorem softReset_arg1 : (softReset s).arg1 = 0x00000000#32 := rfl
@[simp] theorem softReset_opa : (softReset s).opa = 0x00000000#32 := rfl
@[simp] theorem softReset_opb : (softReset s).opb = 0x00000000#32 := rfl
@[simp] theorem softReset_result : (softReset s).result = 0x00000000#32 := rfl
@[simp] theorem softReset_aux : (softReset s).aux = 0x00000000#32 := rfl
@[simp] theorem softReset_crcState : (softReset s).crcState = 0xFFFFFFFF#32 := rfl
@[simp] theorem softReset_cur : (softReset s).cur = s.cur := rfl
@[simp] theorem softReset_val : (softReset s).val = s.val := rfl
@[simp] theorem softReset_buf : (softReset s).buf = s.buf := rfl
@[simp] theorem softReset_host : (softReset s).host = s.host := rfl
@[simp] theorem softReset_replies : (softReset s).replies = s.replies := rfl
@[simp] theorem softReset_draw : (softReset s).draw = s.draw := rfl

end Sys2Proof.Machine
end

