-- ==== Sys2Proof/Laws/Memory.lean ====
section
/-! SUPPORT. The laws of a sparse RAM: a read after a write, and the canonical form every write keeps. -/

namespace Sys2Proof.Machine

variable {α : Type}

@[simp] theorem Memory.read_nil (k : Nat) : Memory.read ([] : List (Nat × α)) k = none := rfl

/-- A read of the element just written gives the value written. -/
@[simp] theorem Memory.read_write_same (m : List (Nat × α)) (k : Nat) (v : α) :
    Memory.read (Memory.write m k v) k = some v := by
  induction m with
  | nil => simp [Memory.write, Memory.read]
  | cons e rest ih =>
    obtain ⟨j, x⟩ := e
    unfold Memory.write
    split
    · simp [Memory.read]
    · split
      · simp [Memory.read]
      · rename_i h; simp [Memory.read, Ne.symm h, ih]

/-- A write leaves every other element as it was. -/
theorem Memory.read_write_other (m : List (Nat × α)) (k i : Nat) (v : α) (h : i ≠ k) :
    Memory.read (Memory.write m k v) i = Memory.read m i := by
  induction m with
  | nil => simp [Memory.write, Memory.read, Ne.symm h]
  | cons e rest ih =>
    obtain ⟨j, x⟩ := e
    unfold Memory.write
    split
    · simp [Memory.read, Ne.symm h]
    · split
      · rename_i hk; subst hk; simp [Memory.read, Ne.symm h]
      · simp [Memory.read, ih]

/-- What a write does to a read of any element. -/
theorem Memory.read_write (m : List (Nat × α)) (k i : Nat) (v : α) :
    Memory.read (Memory.write m k v) i = if i = k then some v else Memory.read m i := by
  split
  · subst_vars; simp
  · exact Memory.read_write_other m k i v ‹_›

/-- What writing consecutive elements does to a read of any element. -/
theorem Memory.read_writeAll (vs : List α) (m : List (Nat × α)) (k i : Nat) :
    Memory.read (Memory.writeAll m k vs) i
      = if k ≤ i ∧ i < k + vs.length then vs[i - k]? else Memory.read m i := by
  induction vs generalizing m k with
  | nil => simp [Memory.writeAll]
  | cons v rest ih =>
    rw [Memory.writeAll, ih, Memory.read_write]
    simp only [List.length_cons]
    by_cases hk : i = k
    · subst hk; simp
    · by_cases h : k + 1 ≤ i ∧ i < k + 1 + rest.length
      · rw [if_pos h, if_pos (by omega), show i - k = (i - (k + 1)) + 1 by omega]; rfl
      · rw [if_neg h, if_neg hk, if_neg (by omega)]

theorem Memory.wfFrom_mono {size lo lo' : Nat} {m : List (Nat × α)} (h : Memory.wfFrom size lo m = true)
    (hlo : lo' ≤ lo) : Memory.wfFrom size lo' m = true := by
  cases m with
  | nil => rfl
  | cons e rest =>
    simp only [Memory.wfFrom, Bool.and_eq_true, decide_eq_true_eq] at h ⊢
    exact ⟨⟨by omega, h.1.2⟩, h.2⟩

theorem Memory.write_wfFrom {size lo k : Nat} {m : List (Nat × α)} (v : α) (h : Memory.wfFrom size lo m = true)
    (hlo : lo ≤ k) (hk : k < size) : Memory.wfFrom size lo (Memory.write m k v) = true := by
  induction m generalizing lo with
  | nil => simp [Memory.write, Memory.wfFrom, hlo, hk]
  | cons e rest ih =>
    obtain ⟨j, x⟩ := e
    simp only [Memory.wfFrom, Bool.and_eq_true, decide_eq_true_eq] at h
    unfold Memory.write
    split
    · simp only [Memory.wfFrom, Bool.and_eq_true, decide_eq_true_eq]; exact ⟨⟨hlo, hk⟩, ⟨by omega, h.1.2⟩, h.2⟩
    · split
      · subst_vars; simp only [Memory.wfFrom, Bool.and_eq_true, decide_eq_true_eq]; exact ⟨⟨hlo, hk⟩, h.2⟩
      · simp only [Memory.wfFrom, Bool.and_eq_true, decide_eq_true_eq]
        exact ⟨h.1, ih h.2 (by omega)⟩

/-- A write of an element inside the RAM keeps the canonical form. -/
theorem Memory.write_wf {size k : Nat} {m : List (Nat × α)} (v : α) (h : Memory.wf size m = true) (hk : k < size) :
    Memory.wf size (Memory.write m k v) = true :=
  Memory.write_wfFrom v h (Nat.zero_le k) hk

/-- Consecutive writes inside the RAM keep the canonical form. -/
theorem Memory.writeAll_wf {size k : Nat} {m : List (Nat × α)} (vs : List α) (h : Memory.wf size m = true)
    (hk : k + vs.length ≤ size) : Memory.wf size (Memory.writeAll m k vs) = true := by
  induction vs generalizing m k with
  | nil => exact h
  | cons v rest ih =>
    simp only [List.length_cons] at hk
    exact ih (Memory.write_wf v h (by omega)) (by omega)

/-- Below its lowest index a RAM in canonical form lists nothing. -/
theorem Memory.read_below {size lo k : Nat} {m : List (Nat × α)} (h : Memory.wfFrom size lo m = true) (hk : k < lo) :
    Memory.read m k = none := by
  induction m generalizing lo with
  | nil => rfl
  | cons e rest ih =>
    obtain ⟨j, x⟩ := e
    simp only [Memory.wfFrom, Bool.and_eq_true, decide_eq_true_eq] at h
    rw [Memory.read, if_neg (by omega), ih h.2 (by omega)]

theorem Memory.ext_wfFrom {size lo : Nat} {m m' : List (Nat × α)} (h : Memory.wfFrom size lo m = true)
    (h' : Memory.wfFrom size lo m' = true) (heq : ∀ k, Memory.read m k = Memory.read m' k) : m = m' := by
  induction m generalizing m' lo with
  | nil =>
    cases m' with
    | nil => rfl
    | cons e rest => obtain ⟨j, x⟩ := e; simpa [Memory.read] using heq j
  | cons e rest ih =>
    obtain ⟨j, x⟩ := e
    cases m' with
    | nil => simpa [Memory.read] using heq j
    | cons e' rest' =>
      obtain ⟨j', x'⟩ := e'
      simp only [Memory.wfFrom, Bool.and_eq_true, decide_eq_true_eq] at h h'
      have hj : j = j' := by
        by_contra hne
        rcases Nat.lt_or_gt_of_ne hne with hlt | hlt
        · have := heq j
          rw [Memory.read, if_pos rfl, Memory.read, if_neg (by omega), Memory.read_below h'.2 (by omega)] at this
          cases this
        · have := heq j'
          rw [Memory.read, if_neg (by omega), Memory.read_below h.2 (by omega), Memory.read, if_pos rfl] at this
          cases this
      subst hj
      have hx : x = x' := by simpa [Memory.read] using heq j
      subst hx
      have : rest = rest' := by
        refine ih h.2 h'.2 fun k => ?_
        by_cases hk : j = k
        · subst hk; rw [Memory.read_below h.2 (by omega), Memory.read_below h'.2 (by omega)]
        · simpa [Memory.read, hk] using heq k
      rw [this]

/-- Equal contents are equal lists: the canonical form is one. -/
theorem Memory.ext_of_wf {size : Nat} {m m' : List (Nat × α)} (h : Memory.wf size m = true)
    (h' : Memory.wf size m' = true) (heq : ∀ k, Memory.read m k = Memory.read m' k) : m = m' :=
  Memory.ext_wfFrom h h' heq

end Sys2Proof.Machine
end

