-- ==== Sys2Proof/Laws/Stream.lean ====
section
/-! SUPPORT. The laws of the stream: a bit read after bits were written, what writing leaves alone, fields read
back as numbers, and the canonical form of BUF. -/

namespace Sys2Proof.Machine

/-! ### One bit -/

/-- Replacing one bit of a byte replaces that bit and no other. -/
theorem setBit_getLsbD (old : Byte) (k : Nat) (b : Bool) (hk : k < 8) (j : Nat) :
    (setBit old k b).getLsbD j = if j = k then b else old.getLsbD j := by
  unfold setBit
  by_cases hj : j < 8
  · simp only [BitVec.getLsbD_or, BitVec.getLsbD_and, BitVec.getLsbD_not, BitVec.getLsbD_shiftLeft, hj,
      BitVec.getLsbD_setWidth, BitVec.getLsbD_ofBool, decide_true, Bool.true_and, BitVec.getLsbD_one]
    by_cases h : j = k
    · subst h; simp
    · rw [if_neg h]
      by_cases hlt : j < k
      · simp [hlt]
      · have : ¬ j - k = 0 := by omega
        simp [hlt, this]
  · rw [BitVec.getLsbD_of_ge _ _ (by omega), if_neg (by omega), BitVec.getLsbD_of_ge _ _ (by omega)]

theorem bitShift_lt (p : Nat) : bitShift p < 8 := by unfold bitShift; omega

theorem position_eq_iff (p q : Nat) : (q / 8 = p / 8 ∧ bitShift q = bitShift p) ↔ q = p := by
  unfold bitShift; omega

theorem byteOr_write (d : Nat) (m : List Host.Cell) (k a : Nat) (v : Byte) :
    byteOr d (Memory.write m k v) a = if a = k then v else byteOr d m a := by
  unfold byteOr; rw [Memory.read_write]; split <;> rfl

/-- A byte that has been written reads the same in every step. -/
theorem byteOr_of_isSome {m : List Host.Cell} {a : Nat} (h : (Memory.read m a).isSome = true) (d d' : Nat) :
    byteOr d m a = byteOr d' m a := by
  obtain ⟨v, hv⟩ := Option.isSome_iff_exists.mp h
  simp [byteOr, hv]

/-- `PutBit` sets its own bit and leaves every other as it was (R181). -/
theorem getBit_putBit (d : Nat) (m : List Host.Cell) (p q : Nat) (b : Bool) :
    getBit d (putBit d m p b) q = if q = p then b else getBit d m q := by
  unfold getBit putBit
  rw [byteOr_write]
  by_cases h8 : q / 8 = p / 8
  · rw [if_pos h8, setBit_getLsbD _ _ _ (bitShift_lt p), h8]
    by_cases hs : bitShift q = bitShift p
    · rw [if_pos hs, if_pos ((position_eq_iff p q).mp ⟨h8, hs⟩)]
    · rw [if_neg hs, if_neg fun h => hs (by rw [h])]
  · rw [if_neg h8, if_neg fun h => h8 (by rw [h])]

/-! ### Many bits -/

/-- Bits written from `p` up read back in place, and every other bit reads as before (R183, R189). -/
theorem getBit_putBits (d : Nat) (bits : List Bool) (m : List Host.Cell) (p q : Nat) :
    getBit d (putBits d m p bits) q
      = if p ≤ q ∧ q < p + bits.length then bits.getD (q - p) false else getBit d m q := by
  induction bits generalizing m p with
  | nil => simp only [putBits, List.length_nil]; rw [if_neg (by omega)]
  | cons b rest ih =>
    rw [putBits, ih, getBit_putBit]
    simp only [List.length_cons]
    by_cases hq : q = p
    · subst hq; rw [if_neg (by omega), if_pos rfl, if_pos (by omega)]; simp
    · by_cases h : p + 1 ≤ q ∧ q < p + 1 + rest.length
      · rw [if_pos h, if_pos (by omega), show q - p = (q - (p + 1)) + 1 by omega]; rfl
      · rw [if_neg h, if_neg hq, if_neg (by omega)]

theorem read_putBit_isSome {d : Nat} {m : List Host.Cell} {p a : Nat} {b : Bool}
    (h : (Memory.read m a).isSome = true) : (Memory.read (putBit d m p b) a).isSome = true := by
  unfold putBit; rw [Memory.read_write]; split
  · rfl
  · exact h

/-- No written byte becomes unwritten. -/
theorem read_putBits_isSome {d : Nat} {bits : List Bool} {m : List Host.Cell} {p a : Nat}
    (h : (Memory.read m a).isSome = true) : (Memory.read (putBits d m p bits) a).isSome = true := by
  induction bits generalizing m p with
  | nil => exact h
  | cons b rest ih => exact ih (read_putBit_isSome h)

/-- Every byte a bit is written to has been written. -/
theorem read_putBits_touched {d : Nat} {bits : List Bool} {m : List Host.Cell} {p q : Nat} (h1 : p ≤ q)
    (h2 : q < p + bits.length) : (Memory.read (putBits d m p bits) (q / 8)).isSome = true := by
  induction bits generalizing m p with
  | nil => simp at h2; omega
  | cons b rest ih =>
    simp only [List.length_cons] at h2
    by_cases hq : q = p
    · subst hq; exact read_putBits_isSome (m := putBit d m q b) (by simp [putBit])
    · exact ih (by omega) (by omega)

/-- A byte that no bit is written to is unchanged. -/
theorem read_putBits_other {d : Nat} {bits : List Bool} {m : List Host.Cell} {p a : Nat}
    (h : ∀ q, p ≤ q → q < p + bits.length → q / 8 ≠ a) :
    Memory.read (putBits d m p bits) a = Memory.read m a := by
  induction bits generalizing m p with
  | nil => rfl
  | cons b rest ih =>
    simp only [List.length_cons] at h
    rw [putBits, ih fun q h1 h2 => h q (by omega) (by omega), putBit,
      Memory.read_write_other _ _ _ _ (Ne.symm (h p (by omega) (by omega)))]

/-- Bits just written read back in every later step. -/
theorem getBit_putBits_in {d d' : Nat} {bits : List Bool} {m : List Host.Cell} {p q : Nat} (h1 : p ≤ q)
    (h2 : q < p + bits.length) : getBit d' (putBits d m p bits) q = bits.getD (q - p) false := by
  rw [← (getBit_putBits d bits m p q).trans (if_pos ⟨h1, h2⟩)]
  unfold getBit
  rw [byteOr_of_isSome (read_putBits_touched h1 h2) d' d]

/-- Writing one sequence and then another is writing both in a row. -/
theorem putBits_append (d : Nat) (xs ys : List Bool) (m : List Host.Cell) (p : Nat) :
    putBits d m p (xs ++ ys) = putBits d (putBits d m p xs) (p + xs.length) ys := by
  induction xs generalizing m p with
  | nil => rfl
  | cons x rest ih =>
    rw [List.cons_append, putBits, ih, putBits, List.length_cons, Nat.add_right_comm, Nat.add_assoc]

theorem putBits_wf {d size : Nat} {bits : List Bool} {m : List Host.Cell} {p : Nat}
    (h : Memory.wf size m = true) (hp : p + bits.length ≤ 8 * size) :
    Memory.wf size (putBits d m p bits) = true := by
  induction bits generalizing m p with
  | nil => exact h
  | cons b rest ih =>
    simp only [List.length_cons] at hp
    exact ih (Memory.write_wf _ h (by omega)) (by omega)

/-! ### Fields -/

@[simp] theorem fieldBits_length (v : Word) (w : Nat) : (fieldBits v w).length = w := by simp [fieldBits]

@[simp] theorem zeroBits_length (n : Nat) : (zeroBits n).length = n := by simp [zeroBits]

@[simp] theorem getBitList_length (d : Nat) (m : List Host.Cell) (p w : Nat) : (getBitList d m p w).length = w := by
  simp [getBitList]

/-- Bit `i` of a field, in stream order (R183). -/
theorem fieldBits_getD (v : Word) (w i : Nat) (h : i < w) : (fieldBits v w).getD i false = v.getLsbD (w - 1 - i) := by
  simp [fieldBits, List.getD, h]

theorem zeroBits_getD (n i : Nat) : (zeroBits n).getD i false = false := by
  simp [zeroBits, List.getD, List.getElem?_replicate]; split <;> rfl

theorem getBitList_succ (d : Nat) (m : List Host.Cell) (p w : Nat) :
    getBitList d m p (w + 1) = getBit d m p :: getBitList d m (p + 1) w := by
  simp only [getBitList, List.range_succ_eq_map, List.map_cons, List.map_map, Nat.add_zero]
  congr 1
  refine List.map_congr_left fun i _ => ?_
  simp only [Function.comp]
  congr 1
  omega

/-- Two streams that agree on a field give the same field. -/
theorem getBitList_congr {d d' : Nat} {m m' : List Host.Cell} {p w : Nat}
    (h : ∀ q, p ≤ q → q < p + w → getBit d m q = getBit d' m' q) : getBitList d m p w = getBitList d' m' p w := by
  refine List.map_congr_left fun i hi => h _ (by omega) ?_
  have := List.mem_range.mp hi
  omega

/-- A list of bits is what a field reads when each bit reads in place. -/
theorem getBitList_eq {d : Nat} {m : List Host.Cell} {p : Nat} {bits : List Bool}
    (h : ∀ i, i < bits.length → getBit d m (p + i) = bits.getD i false) : getBitList d m p bits.length = bits := by
  apply List.ext_getElem
  · simp
  · intro i h1 h2
    simp only [getBitList, List.getElem_map, List.getElem_range]
    rw [h i h2]; simp [List.getD, h2]

/-- Bits just written read back as the list that was written. -/
theorem getBitList_putBits (d d' : Nat) (bits : List Bool) (m : List Host.Cell) (p : Nat) :
    getBitList d' (putBits d m p bits) p bits.length = bits :=
  getBitList_eq fun i hi => by
    rw [getBit_putBits_in (by omega) (by omega)]; congr 1; omega

theorem bitsToNat_foldl (bits : List Bool) (r : Nat) :
    bits.foldl (fun r b => 2 * r + b.toNat) r = r * 2 ^ bits.length + bitsToNat bits := by
  unfold bitsToNat
  induction bits generalizing r with
  | nil => simp
  | cons b rest ih =>
    simp only [List.foldl_cons, List.length_cons]
    rw [ih, ih (2 * 0 + b.toNat), Nat.pow_succ]
    ring

@[simp] theorem bitsToNat_nil : bitsToNat [] = 0 := rfl

theorem bitsToNat_cons (b : Bool) (rest : List Bool) :
    bitsToNat (b :: rest) = b.toNat * 2 ^ rest.length + bitsToNat rest := by
  conv_lhs => unfold bitsToNat
  rw [List.foldl_cons, bitsToNat_foldl]; simp

/-- A field of `w` bits is below `2^w` (R184). -/
theorem bitsToNat_lt (bits : List Bool) : bitsToNat bits < 2 ^ bits.length := by
  induction bits with
  | nil => simp
  | cons b rest ih =>
    rw [bitsToNat_cons, List.length_cons, Nat.pow_succ]
    cases b <;> simp <;> omega

/-- Bit `length - 1 - i` of a field read is the `i`-th bit of the stream (R184). -/
theorem bitsToNat_testBit (bits : List Bool) (i : Nat) (h : i < bits.length) :
    (bitsToNat bits).testBit (bits.length - 1 - i) = bits.getD i false := by
  induction bits generalizing i with
  | nil => simp at h
  | cons b rest ih =>
    rw [bitsToNat_cons]
    have hlt := bitsToNat_lt rest
    simp only [List.length_cons] at h ⊢
    rw [Nat.mul_comm, Nat.testBit_two_pow_mul_add _ hlt]
    cases i with
    | zero => cases b <;> simp
    | succ i =>
      rw [if_pos (by omega), show rest.length + 1 - 1 - (i + 1) = rest.length - 1 - i by omega, ih i (by omega)]
      simp

/-- `readBits` is the inverse of `writeBits`: the bits of a field give back its low bits (R183, R184). -/
theorem bitsToNat_fieldBits (v : Word) (w : Nat) : bitsToNat (fieldBits v w) = v.toNat % 2 ^ w := by
  apply Nat.eq_of_testBit_eq
  intro j
  rw [Nat.testBit_mod_two_pow]
  by_cases h : j < w
  · have := bitsToNat_testBit (fieldBits v w) (w - 1 - j) (by simp; omega)
    rw [fieldBits_length, show w - 1 - (w - 1 - j) = j by omega] at this
    rw [this, fieldBits_getD _ _ _ (by omega), show w - 1 - (w - 1 - j) = j by omega]
    simp [h, BitVec.getLsbD]
  · rw [Nat.testBit_lt_two_pow]
    · simp [h]
    · exact lt_of_lt_of_le (by simpa using bitsToNat_lt (fieldBits v w)) (Nat.pow_le_pow_right (by decide) (by omega))

/-! ### Byte boundaries -/

theorem roundup8_eq (p : Nat) : roundup8 p = p + padTo8 p := by unfold roundup8 padTo8; omega

theorem roundup8_mod (p : Nat) : roundup8 p % 8 = 0 := by unfold roundup8; omega

theorem le_roundup8 (p : Nat) : p ≤ roundup8 p := by unfold roundup8; omega

/-- Rounding up never passes a multiple of 8 (R188, R235). -/
theorem roundup8_le {p n : Nat} (h : p ≤ 8 * n) : roundup8 p ≤ 8 * n := by unfold roundup8; omega

end Sys2Proof.Machine
end

