-- ==== Sys2Proof/Laws/Ops.lean ====
section
/-! SUPPORT. For each shared operation, one lemma that says once what it can do: completion, the checks, the
stream's writer and reader, the loops of REF_LOAD and DEC_TICK. -/

namespace Sys2Proof.Machine

variable {s t : State}

/-! ### Completion and the checks -/

/-- A completion commits what was computed or records the error raised, and nothing else (R302). -/
theorem complete_cases {r : Except CmdError State} (h : complete s r = .next t) :
    (∃ u, r = .ok u ∧ t = commit u) ∨ (∃ e, r = .error e ∧ t = raiseError s e) := by
  cases r with
  | ok u => exact .inl ⟨u, rfl, by simpa [complete] using h.symm⟩
  | error e => exact .inr ⟨e, rfl, by simpa [complete] using h.symm⟩

theorem complete_answers (r : Except CmdError State) : ∃ t, complete s r = .next t := by
  cases r <;> exact ⟨_, rfl⟩

@[simp] theorem complete_ok (u : State) : complete s (.ok u) = .next (commit u) := rfl

@[simp] theorem complete_error (e : CmdError) : complete s (.error e) = .next (raiseError s e) := rfl

theorem whenNsymLegal_cases {r : Except CmdError State} :
    (s.nsymLegal = true ∧ whenNsymLegal s r = r) ∨ (s.nsymLegal = false ∧ whenNsymLegal s r = .error s.badConfig) := by
  unfold whenNsymLegal; cases s.nsymLegal <;> simp

theorem nsymLegal_iff : s.nsymLegal = true ↔ 1 ≤ s.nsym.toNat ∧ s.nsym.toNat ≤ s.params.sMax := by
  simp [State.nsymLegal]

theorem whenNsymLegal_of_legal {r : Except CmdError State} (h1 : 1 ≤ s.nsym.toNat)
    (h2 : s.nsym.toNat ≤ s.params.sMax) : whenNsymLegal s r = r := by
  rw [whenNsymLegal, if_pos (nsymLegal_iff.mpr ⟨h1, h2⟩)]

theorem whenBytesInBuf_cases {n : Nat} {r : Except CmdError State} :
    (s.arg0.toNat + n ≤ s.params.bufBytes ∧ whenBytesInBuf s n r = r) ∨
      (s.params.bufBytes < s.arg0.toNat + n ∧ whenBytesInBuf s n r = .error s.byteRange) := by
  unfold whenBytesInBuf
  by_cases h : s.arg0.toNat + n ≤ s.params.bufBytes
  · exact .inl ⟨h, if_pos h⟩
  · exact .inr ⟨by omega, if_neg h⟩

theorem whenWidthLegal_cases {w : BitVec 6} {i : Instr} {r : Except CmdError State} :
    (w.toNat ≤ 32 ∧ whenWidthLegal w i r = r) ∨
      (32 < w.toNat ∧ whenWidthLegal w i r = .error (illegalWord (encode i))) := by
  unfold whenWidthLegal widthLegal
  by_cases h : w.toNat ≤ 32
  · exact .inl ⟨h, by simp [h]⟩
  · exact .inr ⟨by omega, by simp [h]⟩

/-! ### The stream's writer and reader -/

/-- The writer appends all its bits and moves WPTR past them, or raises BUFFER_RANGE (R183). -/
theorem append_cases {bits : List Bool} :
    (s.wptr.toNat + bits.length ≤ 8 * s.params.bufBytes ∧ s.append bits = .ok { s with
      buf := putBits s.draw s.buf s.wptr.toNat bits, wptr := BitVec.ofNat 32 (s.wptr.toNat + bits.length) }) ∨
    (8 * s.params.bufBytes < s.wptr.toNat + bits.length ∧ s.append bits = .error s.writerRange) := by
  unfold State.append State.writeLimit
  by_cases h : s.wptr.toNat + bits.length ≤ 8 * s.params.bufBytes
  · exact .inl ⟨h, if_pos h⟩
  · exact .inr ⟨by omega, if_neg h⟩

/-- The reader gives the field, or raises TRUNCATED_STREAM at its cursor (R184). -/
theorem getBits_cases {rp w : Nat} {sym : Word} :
    (rp + w ≤ 8 * s.rlim.toNat ∧ s.getBits rp w sym = .ok (bitsToNat (getBitList s.draw s.buf rp w))) ∨
    (8 * s.rlim.toNat < rp + w ∧ s.getBits rp w sym = .error (truncated rp sym)) := by
  unfold State.getBits State.readLimit
  by_cases h : rp + w ≤ 8 * s.rlim.toNat
  · exact .inl ⟨h, if_pos h⟩
  · exact .inr ⟨by omega, if_neg h⟩

theorem getBits_of_le {rp w : Nat} {sym : Word} (h : rp + w ≤ 8 * s.rlim.toNat) :
    s.getBits rp w sym = .ok (bitsToNat (getBitList s.draw s.buf rp w)) := if_pos h

theorem getBits_of_lt {rp w : Nat} {sym : Word} (h : 8 * s.rlim.toNat < rp + w) :
    s.getBits rp w sym = .error (truncated rp sym) := if_neg (by unfold State.readLimit; omega)

/-! ### The loops -/

/-- The `j`-th word REF_LOAD reads from position `rp` on. -/
def frameWord (s : State) (rp j : Nat) : Word := BitVec.ofNat 32 (bitsToNat (getBitList s.draw s.buf (rp + 32 * j) 32))

/-- A frame that fits below `8 * RLIM` is read whole (R231). -/
theorem loadFrame_of_le (n i rp : Nat) (h : rp + 32 * n ≤ 8 * s.rlim.toNat) :
    s.loadFrame n i rp = .ok ((List.range n).map (frameWord s rp), rp + 32 * n) := by
  induction n generalizing i rp with
  | zero => rfl
  | succ n ih =>
    rw [State.loadFrame, getBits_of_le (by omega), ih (i + 1) (rp + 32) (by omega)]
    simp only [List.range_succ_eq_map, List.map_cons, List.map_map, Except.ok.injEq, Prod.mk.injEq, List.cons.injEq]
    refine ⟨⟨by simp [frameWord], List.map_congr_left fun j _ => ?_⟩, by omega⟩
    simp only [frameWord, Function.comp, Nat.succ_eq_add_one]
    rw [show rp + 32 * (j + 1) = rp + 32 + 32 * j by omega]

/-- A frame that does not fit fails at its first field that passes `8 * RLIM` (R231). -/
theorem loadFrame_of_lt (n i rp : Nat) (h : 8 * s.rlim.toNat < rp + 32 * n) (hn : 0 < n) :
    s.loadFrame n i rp = .error (truncated (rp + 32 * ((8 * s.rlim.toNat - rp) / 32))
      (BitVec.ofNat 32 (i + (8 * s.rlim.toNat - rp) / 32))) := by
  induction n generalizing i rp with
  | zero => omega
  | succ n ih =>
    rw [State.loadFrame]
    rcases getBits_cases (s := s) (rp := rp) (w := 32) (sym := BitVec.ofNat 32 i) with ⟨hle, hg⟩ | ⟨hlt, hg⟩
    · rw [hg]
      simp only
      rw [ih (i + 1) (rp + 32) (by omega) (by omega),
        show (8 * s.rlim.toNat - rp) / 32 = (8 * s.rlim.toNat - (rp + 32)) / 32 + 1 by omega]
      simp only [Except.error.injEq]
      congr 1 <;> first | omega | (congr 1; omega)
    · rw [hg, show (8 * s.rlim.toNat - rp) / 32 = 0 by omega]; rfl

/-- The errors DEC_TICK's symbols can raise. -/
def isDecodeError (e : CmdError) : Prop := e.code = .truncatedStream ∨ e.code = .deltaRangeViolation

/-- One changed symbol: a value in range and a cursor past its field but not past `8 * RLIM`, or one of the two
errors of R237 and R184. -/
theorem decodeSymbol_cases (i rp : Nat) :
    (∃ v w, s.decodeSymbol i rp = .ok (v, rp + 2 + w) ∧ rp + 2 + w ≤ 8 * s.rlim.toNat) ∨
    (∃ e, s.decodeSymbol i rp = .error e ∧ isDecodeError e) := by
  unfold State.decodeSymbol
  rcases getBits_cases (s := s) (rp := rp) (w := 2) (sym := BitVec.ofNat 32 i) with ⟨_, hg⟩ | ⟨_, hg⟩
  · rw [hg]
    simp only
    split
    · exact .inr ⟨_, rfl, .inr rfl⟩
    · rename_i tier _
      rcases getBits_cases (s := s) (rp := rp + 2) (w := tier.payloadWidth) (sym := BitVec.ofNat 32 i)
        with ⟨hle, hg2⟩ | ⟨_, hg2⟩
      · rw [hg2]
        simp only
        split
        · exact .inl ⟨_, _, rfl, hle⟩
        · exact .inr ⟨_, rfl, .inr rfl⟩
      · rw [hg2]; exact .inr ⟨_, rfl, .inl rfl⟩
  · rw [hg]; exact .inr ⟨_, rfl, .inl rfl⟩

/-- DEC_TICK's loop over bitmap bits: one value for each symbol, an unchanged symbol's its own, a cursor that only
moves forward and stays within `8 * RLIM`, and the count of set bits; or one of the decoder's errors. -/
theorem decodeSymbols_cases (bits : List Bool) (i rp : Nat) (hrp : rp ≤ 8 * s.rlim.toNat) :
    (∃ d, s.decodeSymbols bits i rp = .ok d ∧ d.values.length = bits.length ∧ rp ≤ d.rp ∧
      d.rp ≤ 8 * s.rlim.toNat ∧ d.count = bits.count true ∧
      ∀ k, k < bits.length → bits.getD k false = false → d.values[k]? = some (s.valWord 0 (i + k))) ∨
    (∃ e, s.decodeSymbols bits i rp = .error e ∧ isDecodeError e) := by
  induction bits generalizing i rp with
  | nil => exact .inl ⟨_, rfl, rfl, le_refl _, hrp, rfl, fun k hk => by simp at hk⟩
  | cons b rest ih =>
    cases b with
    | false =>
      rcases ih (i + 1) rp hrp with ⟨d, hd, hlen, h1, h2, hc, hv⟩ | ⟨e, he, hE⟩
      · refine .inl ⟨{ values := s.valWord 0 i :: d.values, rp := d.rp, count := d.count },
          by rw [State.decodeSymbols, hd], by simp [hlen], h1, h2, by simp [hc], fun k hk hb => ?_⟩
        cases k with
        | zero => rfl
        | succ k =>
          have := hv k (by simpa using hk) (by simpa using hb)
          simpa [Nat.add_assoc, Nat.add_comm 1 k] using this
      · exact .inr ⟨e, by rw [State.decodeSymbols, he], hE⟩
    | true =>
      rcases decodeSymbol_cases (s := s) i rp with ⟨v, w, hs, hle⟩ | ⟨e, he, hE⟩
      · rcases ih (i + 1) (rp + 2 + w) hle with ⟨d, hd, hlen, h1, h2, hc, hv⟩ | ⟨e, he, hE⟩
        · refine .inl ⟨{ values := v :: d.values, rp := d.rp, count := d.count + 1 },
            by rw [State.decodeSymbols, hs]; simp only; rw [hd], by simp [hlen], ?_, h2, by simp [hc],
            fun k hk hb => ?_⟩
          · show rp ≤ d.rp; omega
          · cases k with
            | zero => simp at hb
            | succ k =>
              have := hv k (by simpa using hk) (by simpa using hb)
              simpa [Nat.add_assoc, Nat.add_comm 1 k] using this
        · exact .inr ⟨e, by rw [State.decodeSymbols, hs]; simp only; rw [he], hE⟩
      · exact .inr ⟨e, by rw [State.decodeSymbols, he], hE⟩

/-- DEC_TICK's pass over the record: the decoded symbols, or one of the decoder's errors (R235). -/
theorem decodeRecord_cases :
    (∃ d, s.decodeRecord = .ok d ∧ d.values.length = s.symbols ∧ s.rptr.toNat + bitmapBits s.symbols ≤ d.rp ∧
      d.rp ≤ 8 * s.rlim.toNat ∧
      ∀ k, k < s.symbols → getBit s.draw s.buf (s.rptr.toNat + k) = false → d.values[k]? = some (s.valWord 0 k)) ∨
    (∃ e, s.decodeRecord = .error e ∧ isDecodeError e) := by
  unfold State.decodeRecord
  by_cases h : s.rptr.toNat + bitmapBits s.symbols ≤ s.readLimit
  · rw [if_pos h]
    rcases decodeSymbols_cases (s := s) (getBitList s.draw s.buf s.rptr.toNat s.symbols) 0 _ h with
      ⟨d, hd, hlen, h1, h2, _, hv⟩ | he
    · refine .inl ⟨d, hd, by simpa using hlen, h1, h2, fun k hk hb => ?_⟩
      simpa using hv k (by simpa using hk) (by simp [getBitList, List.getD, hk, hb])
    · exact .inr he
  · rw [if_neg h]; exact .inr ⟨_, rfl, .inl rfl⟩

end Sys2Proof.Machine
end

