-- ==== Sys2Proof/Laws/Decoder.lean ====
section
/-! SUPPORT. What DEC_TICK does with one changed symbol, in the terms of the statements (`fieldDecodes`): the value its
field stands for, or DELTA_RANGE_VIOLATION. -/

namespace Sys2Proof.Machine

variable {s : State}

/-- A field whose bits are those of `f`, most significant first, reads as `f` (R184). -/
theorem bitsToNat_of_getD {w : Nat} {f : BitVec w} {bits : List Bool} (hlen : bits.length = w)
    (h : ∀ k, k < w → bits.getD k false = f.getLsbD (w - 1 - k)) : bitsToNat bits = f.toNat := by
  subst hlen
  have hlt := bitsToNat_lt bits
  apply Nat.eq_of_testBit_eq
  intro j
  by_cases hj : j < bits.length
  · have := bitsToNat_testBit bits (bits.length - 1 - j) (by omega)
    rw [show bits.length - 1 - (bits.length - 1 - j) = j by omega] at this
    rw [this, h _ (by omega), show bits.length - 1 - (bits.length - 1 - j) = j by omega]
    rfl
  · have hpow : 2 ^ bits.length ≤ 2 ^ j := Nat.pow_le_pow_right (by decide) (by omega)
    rw [Nat.testBit_lt_two_pow (by omega), Nat.testBit_lt_two_pow (lt_of_lt_of_le f.isLt hpow)]

theorem getBitList_two (d : Nat) (m : List Host.Cell) (p : Nat) :
    getBitList d m p 2 = [getBit d m p, getBit d m (p + 1)] := by
  simp [getBitList, List.range_succ_eq_map]

/-- The tier that two selector bits name, with its payload width; none for 11 (R145, R214). -/
theorem tierOfSelector_bits (b1 b0 : Bool) :
    (tierOfSelector (BitVec.ofNat 2 (bitsToNat [b1, b0]))).map Tier.payloadWidth = selectorWidth (b1, b0) := by
  cases b1 <;> cases b0 <;> rfl

/-- A payload's decoded value in each tier (R236). -/
theorem decodedValue_of_field {t : Tier} {prev : Word} {f : BitVec t.payloadWidth} :
    decodedValue t prev f.toNat = if t.payloadWidth = 32 then f.toInt else prev.toInt + f.toInt := by
  cases t
  · change BitVec 4 at f; simp [decodedValue, Tier.payloadWidth, BitVec.ofNat_toNat]
  · change BitVec 8 at f; simp [decodedValue, Tier.payloadWidth, BitVec.ofNat_toNat]
  · change BitVec 32 at f; simp [decodedValue, Tier.payloadWidth, BitVec.ofNat_toNat]

/-- A changed symbol whose field lies below `8 * RLIM` takes the value the field stands for, the cursor moving past the
field, or raises DELTA_RANGE_VIOLATION when that value leaves the 32-bit range (R235 to R237). -/
theorem decodeSymbol_of_field {i p w : Nat} {x : Int} (h : fieldDecodes s i p w x) (hl : p + 2 + w ≤ 8 * s.rlim.toNat) :
    s.decodeSymbol i p = if inS32 x then .ok (u32 x, p + 2 + w) else .error (deltaRange p i) := by
  obtain ⟨hsel, f, hf, hx⟩ := h
  unfold State.decodeSymbol
  rw [getBits_of_le (by omega), getBitList_two]
  have ht := tierOfSelector_bits (getBit s.draw s.buf p) (getBit s.draw s.buf (p + 1))
  rw [show selectorWidth (getBit s.draw s.buf p, getBit s.draw s.buf (p + 1)) = some w from hsel,
    Option.map_eq_some_iff] at ht
  obtain ⟨t, ht, rfl⟩ := ht
  simp only [ht]
  rw [getBits_of_le hl]
  have hread : bitsToNat (getBitList s.draw s.buf (p + 2) t.payloadWidth) = f.toNat :=
    bitsToNat_of_getD (by simp) fun k hk => by rw [← hf k hk]; simp [getBitList, List.getD, hk]
  have hval : decodedValue t (s.valWord 1 i) f.toNat = x := by
    rw [decodedValue_of_field]
    rcases hx with ⟨hw, rfl⟩ | ⟨hw, hv, rfl⟩
    · rw [if_pos hw]
    · obtain ⟨v, hv⟩ := Option.isSome_iff_exists.mp hv
      rw [if_neg hw]; simp [State.valWord, wordAt, hv]
  simp only [hread, hval]

end Sys2Proof.Machine
end

