-- ==== Sys2Proof/Laws/Exec.lean ====
section
/-! SUPPORT. For each command, one lemma that says once everything its meaning can do: the committed writes with
the checks that passed, or the errors it can raise. Statements about `exec` cite these and do not unfold it. -/

namespace Sys2Proof.Machine

variable {s t : State}

theorem execNop_cases (h : execNop s = .next t) : t = commit s := by simpa [execNop] using h.symm

theorem execCrcInit_cases (h : execCrcInit s = .next t) : t = commit { s with crcState := 0xFFFFFFFF#32 } := by
  simpa [execCrcInit] using h.symm

theorem execCrcByte_cases {b : BitVec 8} (h : execCrcByte b s = .next t) :
    t = commit { s with crcState := crcUpdate s.crcState b } := by simpa [execCrcByte] using h.symm

theorem execAnalyze_cases (h : execAnalyze s = .next t) : t = commit { s with
    result := analyzeWord (tierOf s.t4 s.t8 (delta s.opa s.opb)) (delta s.opa s.opb)
    aux := u32 (delta s.opa s.opb) } := by simpa [execAnalyze] using h.symm

theorem execCrcRange_cases (h : execCrcRange s = .next t) :
    (s.arg0.toNat + s.arg1.toNat ≤ s.params.bufBytes ∧
      t = commit { s with crcState := crcFeed s.crcState (s.bufBytes s.arg0.toNat s.arg1.toNat) }) ∨
    (s.params.bufBytes < s.arg0.toNat + s.arg1.toNat ∧ t = raiseError s s.byteRange) := by
  unfold execCrcRange at h
  rcases whenBytesInBuf_cases with ⟨hle, hw⟩ | ⟨hlt, hw⟩ <;> rw [hw] at h
  · exact .inl ⟨hle, by simpa using h.symm⟩
  · exact .inr ⟨hlt, by simpa using h.symm⟩

theorem execCrcCheck_cases {layer : BitVec 2} (h : execCrcCheck layer s = .next t) :
    (layer ≠ 3#2 ∧ s.arg0.toNat + 4 ≤ s.params.bufBytes ∧ s.bufWordBE s.arg0.toNat = s.crcResult ∧ t = commit s) ∨
    (layer ≠ 3#2 ∧ s.arg0.toNat + 4 ≤ s.params.bufBytes ∧ s.bufWordBE s.arg0.toNat ≠ s.crcResult ∧
      t = raiseError s (s.mismatch layer)) ∨
    (layer ≠ 3#2 ∧ s.params.bufBytes < s.arg0.toNat + 4 ∧ t = raiseError s s.byteRange) ∨
    (layer = 3#2 ∧ t = raiseError s (illegalWord (encode (.crcCheck layer)))) := by
  unfold execCrcCheck layerLegal at h
  by_cases hl : layer = 3#2
  · rw [if_neg (by simp [hl])] at h
    exact .inr (.inr (.inr ⟨hl, by simpa using h.symm⟩))
  · rw [if_pos (by simpa using hl)] at h
    rcases whenBytesInBuf_cases with ⟨hle, hw⟩ | ⟨hlt, hw⟩ <;> rw [hw] at h
    · by_cases hm : s.bufWordBE s.arg0.toNat = s.crcResult
      · rw [if_pos hm] at h; exact .inl ⟨hl, hle, hm, by simpa using h.symm⟩
      · rw [if_neg hm] at h; exact .inr (.inl ⟨hl, hle, hm, by simpa using h.symm⟩)
    · exact .inr (.inr (.inl ⟨hl, hlt, by simpa using h.symm⟩))

theorem execCrcEmit_cases (h : execCrcEmit s = .next t) :
    (s.arg0.toNat + 4 ≤ s.params.bufBytes ∧
      t = commit { s with buf := Memory.writeAll s.buf s.arg0.toNat (bytesBE s.crcResult) }) ∨
    (s.params.bufBytes < s.arg0.toNat + 4 ∧ t = raiseError s s.byteRange) := by
  unfold execCrcEmit at h
  rcases whenBytesInBuf_cases with ⟨hle, hw⟩ | ⟨hlt, hw⟩ <;> rw [hw] at h
  · exact .inl ⟨hle, by simpa using h.symm⟩
  · exact .inr ⟨hlt, by simpa using h.symm⟩

theorem execWbits_cases {w : BitVec 6} (h : execWbits w s = .next t) :
    (w.toNat ≤ 32 ∧ s.wptr.toNat + w.toNat ≤ 8 * s.params.bufBytes ∧ t = commit { s with
      buf := putBits s.draw s.buf s.wptr.toNat (fieldBits s.arg0 w.toNat)
      wptr := BitVec.ofNat 32 (s.wptr.toNat + w.toNat) }) ∨
    (w.toNat ≤ 32 ∧ 8 * s.params.bufBytes < s.wptr.toNat + w.toNat ∧ t = raiseError s s.writerRange) ∨
    (32 < w.toNat ∧ t = raiseError s (illegalWord (encode (.wbits w)))) := by
  unfold execWbits at h
  rcases whenWidthLegal_cases (w := w) (i := .wbits w) with ⟨hw, hr⟩ | ⟨hw, hr⟩ <;> rw [hr] at h
  · rcases append_cases (s := s) (bits := fieldBits s.arg0 w.toNat) with ⟨hle, ha⟩ | ⟨hlt, ha⟩ <;>
      rw [ha] at h <;> simp only [fieldBits_length] at *
    · exact .inl ⟨hw, hle, by simpa using h.symm⟩
    · exact .inr (.inl ⟨hw, hlt, by simpa using h.symm⟩)
  · exact .inr (.inr ⟨hw, by simpa using h.symm⟩)

theorem execRbits_cases {w : BitVec 6} (h : execRbits w s = .next t) :
    (w.toNat ≤ 32 ∧ s.rptr.toNat + w.toNat ≤ 8 * s.rlim.toNat ∧ t = commit { s with
      result := BitVec.ofNat 32 (bitsToNat (getBitList s.draw s.buf s.rptr.toNat w.toNat))
      rptr := BitVec.ofNat 32 (s.rptr.toNat + w.toNat) }) ∨
    (w.toNat ≤ 32 ∧ 8 * s.rlim.toNat < s.rptr.toNat + w.toNat ∧
      t = raiseError s (truncated s.rptr.toNat noSymbol)) ∨
    (32 < w.toNat ∧ t = raiseError s (illegalWord (encode (.rbits w)))) := by
  unfold execRbits at h
  rcases whenWidthLegal_cases (w := w) (i := .rbits w) with ⟨hw, hr⟩ | ⟨hw, hr⟩ <;> rw [hr] at h
  · rcases getBits_cases (s := s) (rp := s.rptr.toNat) (w := w.toNat) (sym := noSymbol) with ⟨hle, hg⟩ | ⟨hlt, hg⟩ <;>
      rw [hg] at h
    · exact .inl ⟨hw, hle, by simpa using h.symm⟩
    · exact .inr (.inl ⟨hw, hlt, by simpa using h.symm⟩)
  · exact .inr (.inr ⟨hw, by simpa using h.symm⟩)

theorem execWflush_cases (h : execWflush s = .next t) :
    (s.wptr.toNat + padTo8 s.wptr.toNat ≤ 8 * s.params.bufBytes ∧ t = commit { s with
      buf := putBits s.draw s.buf s.wptr.toNat (zeroBits (padTo8 s.wptr.toNat))
      wptr := BitVec.ofNat 32 (s.wptr.toNat + padTo8 s.wptr.toNat) }) ∨
    (8 * s.params.bufBytes < s.wptr.toNat + padTo8 s.wptr.toNat ∧ t = raiseError s s.writerRange) := by
  unfold execWflush at h
  rcases append_cases (s := s) (bits := zeroBits (padTo8 s.wptr.toNat)) with ⟨hle, ha⟩ | ⟨hlt, ha⟩ <;>
    rw [ha] at h <;> simp only [zeroBits_length] at *
  · exact .inl ⟨hle, by simpa using h.symm⟩
  · exact .inr ⟨hlt, by simpa using h.symm⟩

theorem execRalign_cases (h : execRalign s = .next t) :
    (roundup8 s.rptr.toNat ≤ 8 * s.rlim.toNat ∧
      t = commit { s with rptr := BitVec.ofNat 32 (roundup8 s.rptr.toNat) }) ∨
    (8 * s.rlim.toNat < roundup8 s.rptr.toNat ∧ t = raiseError s (truncated s.rptr.toNat noSymbol)) := by
  unfold execRalign State.readLimit at h
  by_cases hle : roundup8 s.rptr.toNat ≤ 8 * s.rlim.toNat
  · rw [if_pos hle] at h; exact .inl ⟨hle, by simpa using h.symm⟩
  · rw [if_neg hle] at h; exact .inr ⟨by omega, by simpa using h.symm⟩

theorem execRefCapture_cases (h : execRefCapture s = .next t) :
    (s.nsymLegal = true ∧ s.wptr.toNat + s.frameBits.length ≤ 8 * s.params.bufBytes ∧ t = commit { s with
      buf := putBits s.draw s.buf s.wptr.toNat s.frameBits
      wptr := BitVec.ofNat 32 (s.wptr.toNat + s.frameBits.length)
      val := Memory.writeAll s.val 0 (s.curWords 1), tickcnt := 0#32 }) ∨
    (s.nsymLegal = true ∧ 8 * s.params.bufBytes < s.wptr.toNat + s.frameBits.length ∧
      t = raiseError s s.writerRange) ∨
    (s.nsymLegal = false ∧ t = raiseError s s.badConfig) := by
  unfold execRefCapture at h
  rcases whenNsymLegal_cases with ⟨hn, hw⟩ | ⟨hn, hw⟩ <;> rw [hw] at h
  · rcases append_cases (s := s) (bits := s.frameBits) with ⟨hle, ha⟩ | ⟨hlt, ha⟩ <;> rw [ha] at h
    · exact .inl ⟨hn, hle, by simpa using h.symm⟩
    · exact .inr (.inl ⟨hn, hlt, by simpa using h.symm⟩)
  · exact .inr (.inr ⟨hn, by simpa using h.symm⟩)

theorem execRefLoad_cases (h : execRefLoad s = .next t) :
    (s.nsymLegal = true ∧ s.rptr.toNat + 32 * s.symbols ≤ 8 * s.rlim.toNat ∧ t = commit { s with
      val := Memory.writeAll s.val 0 ((List.range s.symbols).map (frameWord s s.rptr.toNat))
      rptr := BitVec.ofNat 32 (s.rptr.toNat + 32 * s.symbols), tickcnt := 0#32 }) ∨
    (s.nsymLegal = true ∧ 8 * s.rlim.toNat < s.rptr.toNat + 32 * s.symbols ∧
      t = raiseError s (truncated (s.rptr.toNat + 32 * ((8 * s.rlim.toNat - s.rptr.toNat) / 32))
        (BitVec.ofNat 32 ((8 * s.rlim.toNat - s.rptr.toNat) / 32)))) ∨
    (s.nsymLegal = false ∧ t = raiseError s s.badConfig) := by
  unfold execRefLoad at h
  rcases whenNsymLegal_cases with ⟨hn, hw⟩ | ⟨hn, hw⟩ <;> rw [hw] at h
  · have hS : 0 < s.symbols := (nsymLegal_iff.mp hn).1
    by_cases hle : s.rptr.toNat + 32 * s.symbols ≤ 8 * s.rlim.toNat
    · rw [loadFrame_of_le _ _ _ hle] at h; exact .inl ⟨hn, hle, by simpa using h.symm⟩
    · rw [loadFrame_of_lt _ _ _ (by omega) hS, Nat.zero_add] at h
      exact .inr (.inl ⟨hn, by omega, by simpa using h.symm⟩)
  · exact .inr (.inr ⟨hn, by simpa using h.symm⟩)

theorem execEncTick_cases (h : execEncTick s = .next t) :
    (s.nsymLegal = true ∧ s.wptr.toNat + s.tickRecord.length ≤ 8 * s.params.bufBytes ∧ t = commit { s with
      buf := putBits s.draw s.buf s.wptr.toNat s.tickRecord
      wptr := BitVec.ofNat 32 (s.wptr.toNat + s.tickRecord.length)
      val := Memory.writeAll s.val 0 (s.curWords 3), tickcnt := s.tickcnt + 1#32
      result := BitVec.ofNat 32 s.changedCount, aux := BitVec.ofNat 32 s.tickRecord.length }) ∨
    (s.nsymLegal = true ∧ 8 * s.params.bufBytes < s.wptr.toNat + s.tickRecord.length ∧
      t = raiseError s s.writerRange) ∨
    (s.nsymLegal = false ∧ t = raiseError s s.badConfig) := by
  unfold execEncTick at h
  rcases whenNsymLegal_cases with ⟨hn, hw⟩ | ⟨hn, hw⟩ <;> rw [hw] at h
  · rcases append_cases (s := s) (bits := s.tickRecord) with ⟨hle, ha⟩ | ⟨hlt, ha⟩ <;> rw [ha] at h
    · exact .inl ⟨hn, hle, by simpa using h.symm⟩
    · exact .inr (.inl ⟨hn, hlt, by simpa using h.symm⟩)
  · exact .inr (.inr ⟨hn, by simpa using h.symm⟩)

theorem execDecTick_cases (h : execDecTick s = .next t) :
    (s.nsymLegal = true ∧ ∃ d, s.decodeRecord = .ok d ∧ d.values.length = s.symbols ∧
      s.rptr.toNat + bitmapBits s.symbols ≤ d.rp ∧ d.rp ≤ 8 * s.rlim.toNat ∧
      (∀ k, k < s.symbols → getBit s.draw s.buf (s.rptr.toNat + k) = false → d.values[k]? = some (s.valWord 0 k)) ∧
      t = commit { s with
        val := Memory.writeAll s.val 0 d.values
        aux := BitVec.ofNat 32 (roundup8 d.rp - s.rptr.toNat)
        rptr := BitVec.ofNat 32 (roundup8 d.rp)
        tickcnt := s.tickcnt + 1#32
        result := BitVec.ofNat 32 d.count }) ∨
    (s.nsymLegal = true ∧ ∃ e, s.decodeRecord = .error e ∧ isDecodeError e ∧ t = raiseError s e) ∨
    (s.nsymLegal = false ∧ t = raiseError s s.badConfig) := by
  unfold execDecTick at h
  rcases whenNsymLegal_cases with ⟨hn, hw⟩ | ⟨hn, hw⟩ <;> rw [hw] at h
  · rcases decodeRecord_cases (s := s) with ⟨d, hd, h1, h2, h3, h4⟩ | ⟨e, he, hE⟩
    · rw [hd] at h; exact .inl ⟨hn, d, hd, h1, h2, h3, h4, by simpa using h.symm⟩
    · rw [he] at h; exact .inr (.inl ⟨hn, e, he, hE, by simpa using h.symm⟩)
  · exact .inr (.inr ⟨hn, by simpa using h.symm⟩)

/-- Every meaning answers a next state: it commits or takes the error it raises. -/
theorem exec_answers (i : Instr) (s : State) : ∃ t, exec i s = .next t := by
  cases i <;> first | exact ⟨_, rfl⟩ | exact complete_answers _

end Sys2Proof.Machine
end

