-- ==== Sys2Proof/Laws/Errors.lean ====
section
/-! SUPPORT. What each error of the commands leaves, in the terms of the statements (`errored`, `succeeded`), and
which ERR words there are (R321, R324). -/

namespace Sys2Proof.Machine

variable (s : State)

theorem commit_eq_succeeded : commit s = succeeded s := rfl

theorem raiseError_eq_errored (e : CmdError) : raiseError s e = errored s e.errWord e.info e.sym := rfl

/-- The ERR word of every error but CHECKSUM_MISMATCH is its code alone (R324: LAYER 0). -/
theorem errWord_of_code {e : CmdError} (h : e.code ≠ .checksumMismatch) : e.errWord = e.code.toCode.setWidth 32 := by
  obtain ⟨c, info, sym, layer⟩ := e
  cases c <;> first | exact absurd rfl h | (simp only [CmdError.errWord, CmdError.layerField]; decide)

theorem raise_badConfig : raiseError s s.badConfig = errored s 0x00000006#32 s.nsym 0xFFFFFFFF#32 := by
  rw [raiseError_eq_errored, errWord_of_code (by simp [State.badConfig])]; rfl

theorem raise_writerRange : raiseError s s.writerRange = errored s 0x00000004#32 s.wptr 0xFFFFFFFF#32 := by
  rw [raiseError_eq_errored, errWord_of_code (by simp [State.writerRange])]; rfl

theorem raise_byteRange : raiseError s s.byteRange = errored s 0x00000004#32 s.arg0 0xFFFFFFFF#32 := by
  rw [raiseError_eq_errored, errWord_of_code (by simp [State.byteRange])]; rfl

theorem raise_illegalWord (c : Word) :
    raiseError s (illegalWord c) = errored s 0x00000005#32 c 0xFFFFFFFF#32 := by
  rw [raiseError_eq_errored, errWord_of_code (by simp [illegalWord])]; rfl

theorem raise_truncated (rp : Nat) (sym : Word) :
    raiseError s (truncated rp sym) = errored s 0x00000001#32 (BitVec.ofNat 32 rp) sym := by
  rw [raiseError_eq_errored, errWord_of_code (by simp [truncated])]; rfl

theorem raise_deltaRange (p0 i : Nat) :
    raiseError s (deltaRange p0 i) = errored s 0x00000003#32 (BitVec.ofNat 32 p0) (BitVec.ofNat 32 i) := by
  rw [raiseError_eq_errored, errWord_of_code (by simp [deltaRange])]; rfl

theorem raise_mismatch (layer : BitVec 2) : raiseError s (s.mismatch layer)
    = errored s (0x00000002#32 ||| (layer.setWidth 32 <<< 4)) s.arg0 0xFFFFFFFF#32 := by
  rw [raiseError_eq_errored]
  have : (s.mismatch layer).errWord = 0x00000002#32 ||| (layer.setWidth 32 <<< 4) := by
    show layer.setWidth 32 <<< 4 ||| _ = _
    rw [BitVec.or_comm]; rfl
  rw [this]; rfl

/-- An error with a legal layer leaves one of the legal ERR words (R321, R324). -/
theorem errWord_legal {e : CmdError} (h : e.code = .checksumMismatch → e.layer ≠ 3#2) :
    legalErrWords.contains e.errWord = true := by
  obtain ⟨c, info, sym, layer⟩ := e
  simp only at h
  simp only [CmdError.errWord, CmdError.layerField]
  clear info sym
  revert layer
  cases c <;> decide

end Sys2Proof.Machine
end

