-- ==== Sys2Proof/Laws/HostPort.lean ====
section
/-! SUPPORT. What one step is in each of its three cases, where the host's offsets lead, and what a host access can
do to the RAMs. -/

namespace Sys2Proof.Machine

variable {s : State}

/-! ### The three cases of a step -/

/-- No command in flight: the host moves. -/
theorem step_idle (h : s.inFlight = none) : step s = .next (hostStep s) := by simp only [step, h]

/-- A command in flight with steps left: the host moves, and the command is one step nearer its completion. -/
theorem step_busy {c : Word} {k : Nat} (h : s.inFlight = some { word := c, remaining := k + 1 }) :
    step s = .next (hostStep (countDown { word := c, remaining := k + 1 } k s)) := by simp only [step, h]

/-- A command in flight and due: it completes. -/
theorem step_due {c : Word} (h : s.inFlight = some { word := c, remaining := 0 }) : step s = completeWord c s := by
  simp only [step, h]

theorem hostStep_ended (h : s.host = []) : hostStep s = advance s := by simp only [hostStep, h]

theorem hostStep_cons {op : HostOp} {rest : List HostOp} (h : s.host = op :: rest) :
    hostStep s = advance (hostOp op rest s) := by simp only [hostStep, h]

theorem busy_of_idle (h : s.inFlight = none) : s.busy = false := by simp [State.busy, h]

/-! ### Where offsets lead -/

@[simp] theorem regAt_offset (r : Reg) : regAt r.offset = some r := by cases r <;> rfl

/-- Every offset of the page from 0x60 up is reserved (R32). -/
theorem regAt_reserved {off : Nat} (h : 0x60 ≤ off) : regAt off = none := by
  unfold regAt; split <;> first | omega | rfl

theorem placeOf_reg (r : Reg) : placeOf (BitVec.ofNat 24 r.offset) = .page r.offset := by cases r <;> rfl

theorem legalAccess_reg (r : Reg) : legalAccess .bits32 (BitVec.ofNat 24 r.offset) = true := by cases r <;> rfl

theorem toNat_offset {n : Nat} (h : n < 0x1000000) : (BitVec.ofNat 24 n).toNat = n := by
  rw [BitVec.toNat_ofNat, Nat.mod_eq_of_lt h]

theorem placeOf_cur {n : Nat} (h : n < 0x100000) : placeOf (BitVec.ofNat 24 (0x100000 + n)) = .curWindow n := by
  unfold placeOf
  rw [toNat_offset (by omega), if_neg (by omega), if_pos (by omega), Nat.add_sub_cancel_left]

theorem placeOf_val {n : Nat} (h : n < 0x100000) : placeOf (BitVec.ofNat 24 (0x200000 + n)) = .valWindow n := by
  unfold placeOf
  rw [toNat_offset (by omega), if_neg (by omega), if_neg (by omega), if_pos (by omega), Nat.add_sub_cancel_left]

theorem placeOf_buf {n : Nat} (h : n < 0x800000) : placeOf (BitVec.ofNat 24 (0x800000 + n)) = .bufWindow n := by
  unfold placeOf
  rw [toNat_offset (by omega), if_neg (by omega), if_neg (by omega), if_neg (by omega), if_neg (by omega),
    Nat.add_sub_cancel_left]

/-! ### What an access can do -/

/-- A write while busy is a bus error, is dropped, or is the soft reset (R94, R301). -/
theorem hostWrite_busy (w : AccessWidth) (off : Offset) (v : Word) (h : s.busy = true) :
    (legalAccess w off = false ∧ hostWrite w off v s = { s with replies := .busError :: s.replies }) ∨
    (legalAccess w off = true ∧ isSoftReset w off v = false ∧ hostWrite w off v s = { s with overrun := true }) ∨
    (isSoftReset w off v = true ∧ hostWrite w off v s = softReset s) := by
  unfold hostWrite
  cases hl : legalAccess w off with
  | false => exact .inl ⟨rfl, by simp⟩
  | true =>
    cases hr : isSoftReset w off v with
    | false => exact .inr (.inl ⟨rfl, rfl, by simp [h]⟩)
    | true =>
      refine .inr (.inr ⟨rfl, ?_⟩)
      simp only [isSoftReset, Bool.and_eq_true, beq_iff_eq] at hr
      obtain ⟨⟨rfl, ho⟩, hv⟩ := hr
      simp only [Bool.not_true, Bool.and_false, if_true, placeOf, ho, Reg.offset]
      simp [writePlace32, regAt, writeReg, hv]

/-- A byte written through the BUF window keeps BUF canonical (R95, R115). -/
theorem writeWindowByte_wf (a : Nat) (b : Byte) (h : Memory.wf s.params.bufBytes s.buf = true) :
    Memory.wf (writeWindowByte a b s).params.bufBytes (writeWindowByte a b s).buf = true := by
  unfold writeWindowByte
  split
  · exact Memory.write_wf b h ‹_›
  · exact h

theorem writeWindowWordLE_wf (a : Nat) (v : Word) (h : Memory.wf s.params.bufBytes s.buf = true) :
    Memory.wf (writeWindowWordLE a v s).params.bufBytes (writeWindowWordLE a v s).buf = true :=
  writeWindowByte_wf _ _ (writeWindowByte_wf _ _ (writeWindowByte_wf _ _ (writeWindowByte_wf _ _ h)))

/-- The RAMs after power-on reset are canonical, whatever the sizes. -/
theorem powerOn_rams_wf (p : Config.Params) (program : List HostOp) :
    Memory.wf p.sMax (State.powerOn p program).cur = true ∧ Memory.wf p.sMax (State.powerOn p program).val = true ∧
      Memory.wf p.bufBytes (State.powerOn p program).buf = true := ⟨rfl, rfl, rfl⟩

end Sys2Proof.Machine
end

