-- ==== Sys2Proof/Laws/PerInstr.lean ====
section
/-! SUPPORT. A statement made once for each command: its word matches its row of R137, and is legal when its field
is in range. -/

namespace Sys2Proof.Laws

open Sys2Proof.Machine

/-- The row of R137 of a command, as (mask, match): the OPCODE and, masked out, the one field it uses. -/
def rowOf (i : Instr) : Word × Word :=
  match i with
  | .nop => (0xFFFFFFFF#32, 0x00000000#32)
  | .crcInit => (0xFFFFFFFF#32, 0x00000001#32)
  | .crcByte _ => (0xFF00FFFF#32, 0x00000002#32)
  | .crcRange => (0xFFFFFFFF#32, 0x00000003#32)
  | .crcCheck _ => (0xFFFFFCFF#32, 0x00000004#32)
  | .crcEmit => (0xFFFFFFFF#32, 0x00000005#32)
  | .refCapture => (0xFFFFFFFF#32, 0x00000010#32)
  | .refLoad => (0xFFFFFFFF#32, 0x00000011#32)
  | .encTick => (0xFFFFFFFF#32, 0x00000012#32)
  | .decTick => (0xFFFFFFFF#32, 0x00000013#32)
  | .analyze => (0xFFFFFFFF#32, 0x00000020#32)
  | .wbits _ => (0xFFFF03FF#32, 0x00000030#32)
  | .rbits _ => (0xFFFF03FF#32, 0x00000031#32)
  | .wflush => (0xFFFFFFFF#32, 0x00000032#32)
  | .ralign => (0xFFFFFFFF#32, 0x00000033#32)

/-- The word of a command matches its row, and is legal exactly when the command is well-formed (R137, R138). -/
def EncodesItsRow.Statement (i : Instr) : Prop :=
  encode i &&& (rowOf i).1 = (rowOf i).2 ∧ legalWord (encode i) = i.wellFormed

theorem EncodesItsRow.nop : EncodesItsRow.Statement .nop := by unfold EncodesItsRow.Statement; decide
theorem EncodesItsRow.crcInit : EncodesItsRow.Statement .crcInit := by unfold EncodesItsRow.Statement; decide
theorem EncodesItsRow.crcByte (imm8 : BitVec 8) : EncodesItsRow.Statement (.crcByte imm8) := by
  unfold EncodesItsRow.Statement; revert imm8; decide
theorem EncodesItsRow.crcRange : EncodesItsRow.Statement .crcRange := by unfold EncodesItsRow.Statement; decide
theorem EncodesItsRow.crcCheck (layer : BitVec 2) : EncodesItsRow.Statement (.crcCheck layer) := by
  unfold EncodesItsRow.Statement; revert layer; decide
theorem EncodesItsRow.crcEmit : EncodesItsRow.Statement .crcEmit := by unfold EncodesItsRow.Statement; decide
theorem EncodesItsRow.refCapture : EncodesItsRow.Statement .refCapture := by unfold EncodesItsRow.Statement; decide
theorem EncodesItsRow.refLoad : EncodesItsRow.Statement .refLoad := by unfold EncodesItsRow.Statement; decide
theorem EncodesItsRow.encTick : EncodesItsRow.Statement .encTick := by unfold EncodesItsRow.Statement; decide
theorem EncodesItsRow.decTick : EncodesItsRow.Statement .decTick := by unfold EncodesItsRow.Statement; decide
theorem EncodesItsRow.analyze : EncodesItsRow.Statement .analyze := by unfold EncodesItsRow.Statement; decide
theorem EncodesItsRow.wbits (width : BitVec 6) : EncodesItsRow.Statement (.wbits width) := by
  unfold EncodesItsRow.Statement; revert width; decide
theorem EncodesItsRow.rbits (width : BitVec 6) : EncodesItsRow.Statement (.rbits width) := by
  unfold EncodesItsRow.Statement; revert width; decide
theorem EncodesItsRow.wflush : EncodesItsRow.Statement .wflush := by unfold EncodesItsRow.Statement; decide
theorem EncodesItsRow.ralign : EncodesItsRow.Statement .ralign := by unfold EncodesItsRow.Statement; decide

end Sys2Proof.Laws
end

