-- ==== Sys2Proof/Tests/Slice0.lean ====
section
/-! SUPPORT. Tests of single steps on small states. Expected values are those of 95_test_vectors.md (V1 to V8 and L1.1,
derived there from the rules), or are worked by hand from the rule a comment names. -/

namespace Sys2Proof.Machine.Tests

/-! ### Small states -/

/-- BUF contents: bytes from address `a` up. -/
def bytesAt (a : Nat) (bytes : List Byte) : List Host.Cell := (List.range bytes.length).zipWith (fun k b => (a + k, b)) bytes

/-- Symbol words from index 0 up. -/
def words (ws : List Word) : List (Nat × Word) := (List.range ws.length).zipWith (fun k v => (k, v)) ws

/-- The reset state of a machine with S_MAX = 9 and BUF_BYTES = 16, BUF all zero and both symbol RAMs zero. -/
def small : State :=
  { State.powerOn { sMax := 9, bufBytes := 16 } [] with
    cur := words (List.replicate 9 0#32), val := words (List.replicate 9 0#32), buf := bytesAt 0 (List.replicate 16 0#8) }

/-- `small` with the bytes from address 0 up. -/
def withBytes (bytes : List Byte) : State := { small with buf := Memory.writeAll small.buf 0 bytes }

/-- `small` set for an encoder: S, VAL, CUR, WPTR. -/
def enc (val cur : List Word) (wptr : Nat) : State :=
  { small with nsym := BitVec.ofNat 32 cur.length, val := words val, cur := words cur, wptr := BitVec.ofNat 32 wptr }

/-- `small` set for a decoder: VAL, stream bytes from 0, RLIM. -/
def dec (val : List Word) (bytes : List Byte) (rlim : Nat) : State :=
  { withBytes bytes with nsym := BitVec.ofNat 32 val.length, val := words val, rlim := BitVec.ofNat 32 rlim }

/-- The next state of a step, when there is one. -/
def nextOf (o : Host.Outcome State Fault Refusal) : State :=
  match o with
  | .next s => s
  | .fault _ => State.reset
  | .refused _ => State.reset

/-- Symbol words `VAL[0..n-1]` that have been written. -/
def valOf (s : State) (n : Nat) : List (Option Word) := (List.range n).map (Memory.read s.val)

/-- BUF bytes from `a` up that have been written. -/
def bufOf (s : State) (a n : Nat) : List (Option Byte) := (List.range n).map fun k => Memory.read s.buf (a + k)

/-- STATUS, ERR, ERR_INFO, ERR_SYM. -/
def latchOf (s : State) : Word × Word × Word × Word := (s.statusWord, s.errReg, s.errInfo, s.errSym)

/-! ### Well-formedness: the ill-formed terms -/

theorem test_layer3_illFormed : (Instr.crcCheck 3#2).wellFormed = false := by decide
theorem test_wbits33_illFormed : (Instr.wbits 33#6).wellFormed = false := by decide
theorem test_rbits63_illFormed : (Instr.rbits 63#6).wellFormed = false := by decide
theorem test_width32_wellFormed : (Instr.wbits 32#6).wellFormed = true ∧ (Instr.rbits 0#6).wellFormed = true := by decide

/-! ### Decoding: the words of V1, OPCODE 7:0, LAYER 9:8, WIDTH 15:10, IMM8 23:16 -/

theorem test_decode_nop : decode 0x00000000#32 = .ok .nop := rfl
theorem test_decode_crcInit : decode 0x00000001#32 = .ok .crcInit := rfl
theorem test_decode_crcByte : decode 0x00310002#32 = .ok (.crcByte 0x31#8) := rfl
theorem test_decode_crcRange : decode 0x00000003#32 = .ok .crcRange := rfl
theorem test_decode_crcCheck : decode 0x00000004#32 = .ok (.crcCheck 0#2) ∧ decode 0x00000104#32 = .ok (.crcCheck 1#2) ∧
    decode 0x00000204#32 = .ok (.crcCheck 2#2) := ⟨rfl, rfl, rfl⟩
theorem test_decode_crcEmit : decode 0x00000005#32 = .ok .crcEmit := rfl
theorem test_decode_refCapture : decode 0x00000010#32 = .ok .refCapture := rfl
theorem test_decode_refLoad : decode 0x00000011#32 = .ok .refLoad := rfl
theorem test_decode_encTick : decode 0x00000012#32 = .ok .encTick := rfl
theorem test_decode_decTick : decode 0x00000013#32 = .ok .decTick := rfl
theorem test_decode_analyze : decode 0x00000020#32 = .ok .analyze := rfl
theorem test_decode_wbits : decode 0x00000030#32 = .ok (.wbits 0#6) ∧ decode 0x00001030#32 = .ok (.wbits 4#6) ∧
    decode 0x00008030#32 = .ok (.wbits 32#6) := ⟨rfl, rfl, rfl⟩
theorem test_decode_rbits : decode 0x00001031#32 = .ok (.rbits 4#6) ∧ decode 0x00008031#32 = .ok (.rbits 32#6) := ⟨rfl, rfl⟩
theorem test_decode_wflush : decode 0x00000032#32 = .ok .wflush := rfl
theorem test_decode_ralign : decode 0x00000033#32 = .ok .ralign := rfl

/-- The illegal words of V1, each with its ground (R138). -/
theorem test_decode_illegal :
    decode 0x00000304#32 = .error .layerReserved ∧ decode 0x00008430#32 = .error .widthAbove32 ∧
    decode 0x0000FC31#32 = .error .widthAbove32 ∧ decode 0x00000006#32 = .error .unassignedOpcode ∧
    decode 0x000000FF#32 = .error .unassignedOpcode ∧ decode 0x00000100#32 = .error .unusedField ∧
    decode 0x00010000#32 = .error .unusedField ∧ decode 0x00010030#32 = .error .unusedField ∧
    decode 0x00001102#32 = .error .unusedField ∧ decode 0x01000001#32 = .error .reservedBits :=
  ⟨rfl, rfl, rfl, rfl, rfl, rfl, rfl, rfl, rfl, rfl⟩

/-- The host's two entry points on a row of the opcode table, from the reset state. -/
theorem test_tableWord : decodeTableWord 32 0x00310002 = some (.crcByte 0x31#8) ∧
    step (State.reset.withFetchWord 32 0x00310002) = exec (.crcByte 0x31#8) (State.reset.withFetchWord 32 0x00310002) :=
  ⟨rfl, rfl⟩

/-! ### One step of each command -/

/-- V8: NOP gives STATUS = 2. -/
theorem test_nop : (nextOf (exec .nop small)).statusWord = 0x00000002#32 := by decide

/-- R273. -/
theorem test_crcInit : (nextOf (exec .crcInit { small with crcState := 5#32 })).crcState = 0xFFFFFFFF#32 := by decide

/-- V7: the bytes 31 and 32 fed one after the other. -/
theorem test_crcByte : (nextOf (exec (.crcByte 0x31#8) small)).crcState = 0x7C231048#32 := by decide
theorem test_crcByte_next :
    (nextOf (exec (.crcByte 0x32#8) { small with crcState := 0x7C231048#32 })).crcState = 0xB0ACBB32#32 := by decide

/-- V7: "abc"; and a range that passes the end. -/
theorem test_crcRange :
    (nextOf (exec .crcRange { withBytes [0x61#8, 0x62#8, 0x63#8] with arg1 := 3#32 })).crcState = 0xCADBBE3D#32 := by
  decide +kernel
theorem test_crcRange_pastEnd : latchOf (nextOf (exec .crcRange { small with arg0 := 10#32, arg1 := 7#32 }))
    = (6#32, 4#32, 10#32, 0xFFFFFFFF#32) := by decide

/-- V7: check after init, layer REF; and a mismatch with layer STR. -/
theorem test_crcCheck_match : latchOf (nextOf (exec (.crcCheck 0#2) { small with arg0 := 12#32 }))
    = (2#32, 0#32, 0#32, 0xFFFFFFFF#32) := by decide
theorem test_crcCheck_mismatch :
    latchOf (nextOf (exec (.crcCheck 2#2) { small with arg0 := 9#32, crcState := 0x340BC6D9#32 }))
      = (6#32, 0x22#32, 9#32, 0xFFFFFFFF#32) := by decide

/-- V7: emit at 9, and past the end. -/
theorem test_crcEmit : bufOf (nextOf (exec .crcEmit { small with arg0 := 9#32, crcState := 0x340BC6D9#32 })) 8 6
    = [some 0#8, some 0xCB#8, some 0xF4#8, some 0x39#8, some 0x26#8, some 0#8] := by decide
theorem test_crcEmit_pastEnd : latchOf (nextOf (exec .crcEmit { small with arg0 := 13#32 }))
    = (6#32, 4#32, 13#32, 0xFFFFFFFF#32) := by decide

/-- V4: capture (at WPTR = 0), and past the end. -/
theorem test_refCapture :
    let t := nextOf (exec .refCapture (enc [0#32, 0#32] [10000#32, 5000#32] 0))
    bufOf t 0 8 = [some 0#8, some 0#8, some 0x27#8, some 0x10#8, some 0#8, some 0#8, some 0x13#8, some 0x88#8] ∧
      t.wptr = 64#32 ∧ valOf t 2 = [some 10000#32, some 5000#32] := by decide +kernel
theorem test_refCapture_pastEnd : latchOf (nextOf (exec .refCapture (enc [0#32] [0#32] 100)))
    = (6#32, 4#32, 100#32, 0xFFFFFFFF#32) := by decide

/-- V4: load, and a truncated frame. -/
theorem test_refLoad :
    let t := nextOf (exec .refLoad (dec [0#32, 0#32] [0#8, 0#8, 0x27#8, 0x10#8, 0#8, 0#8, 0x13#8, 0x88#8] 8))
    valOf t 2 = [some 10000#32, some 5000#32] ∧ t.rptr = 64#32 ∧ t.tickcnt = 0#32 := by decide +kernel
theorem test_refLoad_truncated : latchOf (nextOf (exec .refLoad (dec [0#32, 0#32] [] 7)))
    = (6#32, 1#32, 32#32, 1#32) := by decide +kernel

/-- V5 rows 2 and 12: both tiers of the source's example, and a record that starts in mid-byte. -/
theorem test_encTick :
    let t := nextOf (exec .encTick (enc [10001#32, 5000#32] [10050#32, 5200#32] 0))
    bufOf t 0 7 = [some 0xC0#8, some 0x4C#8, some 0x60#8, some 0#8, some 0x01#8, some 0x45#8, some 0#8] ∧
      t.wptr = 56#32 ∧ t.result = 2#32 ∧ t.aux = 56#32 ∧ t.tickcnt = 1#32 ∧
      valOf t 2 = [some 10050#32, some 5200#32] := by decide +kernel
theorem test_encTick_midByte :
    let t := nextOf (exec .encTick (enc [5#32, 5#32, 5#32] [5#32, 6#32, 5#32] 4))
    bufOf t 0 3 = [some 0x04#8, some 0x00#8, some 0x40#8] ∧ t.wptr = 24#32 ∧ t.aux = 20#32 := by decide +kernel

/-- V6: the source's tick 2, and a payload cut in symbol 1. -/
theorem test_decTick :
    let t := nextOf (exec .decTick
      (dec [10001#32, 5000#32] [0xC0#8, 0x4C#8, 0x60#8, 0#8, 0x01#8, 0x45#8, 0#8] 7))
    valOf t 2 = [some 10050#32, some 5200#32] ∧ t.rptr = 56#32 ∧ t.result = 2#32 ∧ t.aux = 56#32 := by decide +kernel
theorem test_decTick_truncated : latchOf (nextOf (exec .decTick (dec [0#32, 0#32] [0xC0#8, 0x05#8] 2)))
    = (6#32, 1#32, 16#32, 1#32) := by decide +kernel

/-- V3: the bottom of tier 1, and a delta that leaves 32 bits. -/
theorem test_analyze :
    let t := nextOf (exec .analyze { small with opa := 0xFFFFFF81#32 })
    t.result = 0x0A000801#32 ∧ t.aux = 0xFFFFFF81#32 := by decide
theorem test_analyze_overflow :
    let t := nextOf (exec .analyze { small with opa := 0x80000000#32, opb := 0x7FFFFFFF#32 })
    t.result = 0x22022002#32 ∧ t.aux = 1#32 := by decide

/-- V2: a partial byte is kept; zero width past the end. -/
theorem test_wbits :
    let t := nextOf (exec (.wbits 3#6) { withBytes [0xFF#8] with wptr := 2#32 })
    bufOf t 0 1 = [some 0xC7#8] ∧ t.wptr = 5#32 := by decide
theorem test_wbits_pastEnd : latchOf (nextOf (exec (.wbits 0#6) { small with wptr := 129#32 }))
    = (6#32, 4#32, 129#32, 0xFFFFFFFF#32) := by decide

/-- V2: a read in mid-byte, and past RLIM. -/
theorem test_rbits :
    let t := nextOf (exec (.rbits 4#6) { withBytes [0x5A#8] with rlim := 1#32, rptr := 4#32 })
    t.result = 0xA#32 ∧ t.rptr = 8#32 := by decide
theorem test_rbits_pastLimit : latchOf (nextOf (exec (.rbits 1#6) { withBytes [0x5A#8] with rlim := 1#32, rptr := 8#32 }))
    = (6#32, 1#32, 8#32, 0xFFFFFFFF#32) := by decide

/-- V2: flush in mid-byte, and at the end. -/
theorem test_wflush :
    let t := nextOf (exec .wflush { withBytes [0x5F#8] with wptr := 4#32 })
    bufOf t 0 1 = [some 0x50#8] ∧ t.wptr = 8#32 := by decide
theorem test_wflush_atEnd : (nextOf (exec .wflush { small with wptr := 128#32 })).statusWord = 2#32 := by decide

/-- V2: align, and past RLIM. -/
theorem test_ralign : (nextOf (exec .ralign { small with rlim := 4#32, rptr := 13#32 })).rptr = 16#32 := by decide
theorem test_ralign_pastLimit : latchOf (nextOf (exec .ralign { small with rlim := 1#32, rptr := 9#32 }))
    = (6#32, 1#32, 9#32, 0xFFFFFFFF#32) := by decide

/-! ### The host's accesses (V8) -/

/-- A machine whose host has one access left. -/
def hostDoes (op : HostOp) (s : State) : State := { s with host := [op] }

/-- An error latched: STATUS = 0x00000006, ERR = 0x22. -/
def failed : State := { small with errFlag := true, done := true, errReg := 0x22#32, errInfo := 9#32 }

/-- A command in flight with one step to go. -/
def running : State := { small with inFlight := some { word := 0x12#32, remaining := 1 } }

theorem test_reject : latchOf (nextOf (step (hostDoes (.write .bits32 0x14#24 0#32) failed)))
    = (0x16#32, 0x22#32, 9#32, 0xFFFFFFFF#32) := by decide
theorem test_clearErrOnly : latchOf (nextOf (step (hostDoes (.write .bits32 0x10#24 4#32) { failed with reject := true })))
    = (0x12#32, 0#32, 0#32, 0xFFFFFFFF#32) := by decide
theorem test_writeWhileBusy : let t := nextOf (step (hostDoes (.write .bits32 0x28#24 5#32) running))
    t.nsym = 0#32 ∧ t.statusWord = 0x9#32 := by decide
theorem test_softResetWhileBusy :
    let t := nextOf (step (hostDoes (.write .bits32 0xC#24 1#32) { running with nsym := 5#32, tierCfg := 0#32 }))
    t.inFlight = none ∧ t.nsym = 0#32 ∧ t.tierCfg = 0x7F07#32 ∧ t.buf = small.buf := by decide +kernel
theorem test_bufByte_write : bufOf (nextOf (step (hostDoes (.write .bits8 0x80000D#24 0x1234#32) small))) 12 3
    = [some 0#8, some 0x34#8, some 0#8] := by decide
theorem test_tierCfg_reservedBits :
    (nextOf (step (hostDoes (.write .bits32 0x2C#24 0xFFFFFFFF#32) small))).tierCfg = 0x7F07#32 := by decide
theorem test_rlim_clamped : (nextOf (step (hostDoes (.write .bits32 0x38#24 1000#32) small))).rlim = 16#32 := by decide
theorem test_crcResult_reads : readReg .crcResult { small with crcState := 0x12345678#32 } = 0xEDCBA987#32 := by decide
theorem test_bufLanes :
    (nextOf (step (hostDoes (.read .bits32 0x800000#24) (withBytes [0#8, 0#8, 0x27#8, 0x10#8])))).replies
      = [.word 0x10270000#32] := by decide
theorem test_irq : (nextOf (exec .nop { small with intEn := 1#32 })).irq = true ∧
    (nextOf (exec .nop { small with intEn := 2#32 })).irq = false := by decide

/-! ### The memory's form -/

theorem test_write_canonical : Memory.write (Memory.write [(3, 1#8)] 1 2#8) 3 4#8 = [(1, 2#8), (3, 4#8)] := by decide
theorem test_unsorted_refused : Memory.wf 16 [(3, 1#8), (1, 2#8)] = false ∧ Memory.wf 16 [(16, 1#8)] = false := by decide

/-! ### Witnesses: states and operands that meet the hypotheses of the obligations, named after them -/

/-- A command's meaning succeeds at `s`. -/
abbrev succeeds (i : Instr) (s : State) : Prop :=
  s.errFlag = false ∧ exec i s = .next (nextOf (exec i s)) ∧ (nextOf (exec i s)).errFlag = false

/-- A command's meaning raises an error at `s`. -/
abbrev fails (i : Instr) (s : State) : Prop :=
  s.errFlag = false ∧ exec i s = .next (nextOf (exec i s)) ∧ (nextOf (exec i s)).errFlag = true

theorem next_of_exec (i : Instr) (s : State) : exec i s = .next (nextOf (exec i s)) := by
  obtain ⟨t, h⟩ := exec_answers i s
  rw [h]; rfl

/-- Every element is written, checked on a list of the indexes. -/
theorem written_of_all {α : Type} {m : List (Nat × α)} {n : Nat}
    (h : (List.range n).all (fun k => (Memory.read m k).isSome) = true) : written m 0 n := by
  intro j _ hj
  exact List.all_eq_true.mp h j (List.mem_range.mpr (by omega))

theorem witness_StepKeepsInvariant : small.Inv ∧ isNext (step small) = true ∧
    running.Inv ∧ isNext (step running) = true ∧ (small.withFetchWord 32 0x12).Inv ∧ failed.Inv := by decide +kernel

theorem witness_ResetSatisfiesInvariant : small.params.wf = true := by decide

theorem witness_StepRunsDecodedCommand :
    (small.withFetchWord 32 0x12).inFlight = some { word := 0x12#32, remaining := 0 } ∧ decode 0x12#32 = .ok .encTick :=
  ⟨rfl, rfl⟩

theorem witness_IllegalWordRaises :
    (small.withFetchWord 32 0x304).inFlight = some { word := 0x304#32, remaining := 0 } ∧ legalWord 0x304#32 = false := by
  decide

theorem witness_ErrorsArePrecise : fails .crcRange { small with arg0 := 17#32 } := ⟨rfl, next_of_exec _ _, by decide⟩

theorem witness_ErrorsByCommand : fails (.crcCheck 2#2) { small with crcState := 0#32 } ∧
    fails .refLoad (dec [0#32] [] 3) := ⟨⟨rfl, next_of_exec _ _, by decide⟩, ⟨rfl, next_of_exec _ _, by decide⟩⟩

theorem witness_CommandsWriteOnlyTheirRow : succeeds .encTick (enc [0#32] [7#32] 4) ∧
    (enc [0#32] [7#32] 4).params.wf = true ∧ (enc [0#32] [7#32] 4).nsym.toNat ≤ 1 :=
  ⟨⟨rfl, next_of_exec _ _, by decide +kernel⟩, by decide, by decide⟩
theorem witness_CommandsWriteOnlyTheirRow_crcEmit : succeeds .crcEmit { small with arg0 := 12#32 } :=
  ⟨rfl, next_of_exec _ _, by decide⟩

theorem witness_WordsAtNsymAndAboveUntouched :
    let s := { enc [0#32] [7#32] 0 with cur := words [7#32, 1#32], val := words [0#32, 1#32] }
    succeeds .encTick s ∧ s.nsym.toNat ≤ 1 ∧
      ∀ k, k < s.nsym.toNat → Memory.read (words [7#32, 2#32]) k = Memory.read s.cur k ∧
        Memory.read (words [0#32]) k = Memory.read s.val k :=
  ⟨⟨rfl, next_of_exec _ _, by decide +kernel⟩, by decide, by decide⟩

theorem witness_CursorsNeverWrap_writer : ({ small with wptr := 128#32 } : State).Inv ∧
    succeeds .wflush { small with wptr := 128#32 } := ⟨by decide +kernel, rfl, next_of_exec _ _, by decide⟩
theorem witness_CursorsNeverWrap_reader : ({ small with rlim := 16#32, rptr := 128#32 } : State).Inv ∧
    succeeds .ralign { small with rlim := 16#32, rptr := 128#32 } := ⟨by decide +kernel, rfl, next_of_exec _ _, by decide⟩

theorem witness_IllegalNsymRaisesBadConfig : small.nsym.toNat = 0 ∧
    ({ small with nsym := 10#32 } : State).params.sMax < ({ small with nsym := 10#32 } : State).nsym.toNat := by decide

theorem witness_CrcRangeFeedsBytes :
    let s := { small with arg0 := 10#32, arg1 := 6#32 }
    let u := { small with arg0 := 10#32, arg1 := 7#32 }
    s.arg0.toNat + s.arg1.toNat ≤ s.params.bufBytes ∧ u.params.bufBytes < u.arg0.toNat + u.arg1.toNat := by decide

theorem witness_CrcCheckValue :
    let s := { withBytes [0#8, 0x31#8, 0x32#8, 0x33#8, 0x34#8, 0x35#8, 0x36#8, 0x37#8, 0x38#8, 0x39#8] with
      arg0 := 1#32, arg1 := 9#32 }
    s.arg1 = 9#32 ∧ s.arg0.toNat + 9 ≤ s.params.bufBytes ∧ s.crcState = 0xFFFFFFFF#32 ∧
      ∀ k, k < 9 → Memory.read s.buf (s.arg0.toNat + k) = some (BitVec.ofNat 8 (0x31 + k)) := by decide

theorem witness_CrcRangeSplits :
    let u := nextOf (exec .crcRange { small with arg1 := BitVec.ofNat 32 4 })
    small.params.wf = true ∧ small.arg0.toNat + 4 + 12 ≤ small.params.bufBytes ∧
      written small.buf small.arg0.toNat (4 + 12) ∧
      exec .crcRange { small with arg1 := BitVec.ofNat 32 4 } = .next u ∧
      ∃ v, exec .crcRange
        { u with arg0 := BitVec.ofNat 32 (small.arg0.toNat + 4), arg1 := BitVec.ofNat 32 12 } = .next v :=
  ⟨by decide, by decide, written_of_all (by decide), next_of_exec _ _, ⟨_, next_of_exec _ _⟩⟩

theorem witness_CrcCheckCompares : (0#2 : BitVec 2) ≠ 3#2 ∧ (2#2 : BitVec 2) ≠ 3#2 ∧
    ({ small with arg0 := 13#32 } : State).params.bufBytes < ({ small with arg0 := 13#32 } : State).arg0.toNat + 4 := by decide

theorem witness_CrcEmitStoresWord :
    let s := { small with arg0 := 12#32 }
    let u := { small with arg0 := 13#32 }
    s.arg0.toNat + 4 ≤ s.params.bufBytes ∧ u.params.bufBytes < u.arg0.toNat + 4 := by decide

theorem witness_EmitThenCheckSucceeds : (2#2 : BitVec 2) ≠ 3#2 ∧ small.arg0.toNat + 4 ≤ small.params.bufBytes ∧
    ∃ t, exec .crcEmit small = .next t := ⟨by decide, by decide, exec_answers _ _⟩

theorem witness_RefCaptureWritesFrame :
    let s := { small with nsym := 4#32 }
    let u := { small with nsym := 9#32 }
    1 ≤ s.nsym.toNat ∧ s.nsym.toNat ≤ s.params.sMax ∧ s.wptr.toNat + 32 * s.nsym.toNat ≤ 8 * s.params.bufBytes ∧
      written s.cur 0 s.nsym.toNat ∧
      u.nsym.toNat = u.params.sMax ∧ 8 * u.params.bufBytes < u.wptr.toNat + 32 * u.nsym.toNat :=
  ⟨by decide, by decide, by decide, written_of_all (by decide), by decide, by decide⟩

theorem witness_RefLoadReadsFrame :
    let s := { small with nsym := 4#32, rlim := 16#32 }
    let u := { small with nsym := 4#32, rlim := 15#32 }
    1 ≤ s.nsym.toNat ∧ s.nsym.toNat ≤ s.params.sMax ∧ s.rptr.toNat + 32 * s.nsym.toNat ≤ 8 * s.rlim.toNat ∧
      8 * u.rlim.toNat < u.rptr.toNat + 32 * u.nsym.toNat := by decide

/-- V5: the source's tick 2, 56 bits, fits exactly at WPTR = 72 and does not at WPTR = 80. -/
theorem witness_EncTickWritesRecord :
    let s := enc [10001#32, 5000#32] [10050#32, 5200#32] 72
    let u := enc [10001#32, 5000#32] [10050#32, 5200#32] 80
    1 ≤ s.nsym.toNat ∧ s.nsym.toNat ≤ s.params.sMax ∧ written s.cur 0 s.nsym.toNat ∧ written s.val 0 s.nsym.toNat ∧
      72 + (recordOf 7 127 2 (wordAt s.cur) (wordAt s.val) 72).length = 8 * s.params.bufBytes ∧
      8 * u.params.bufBytes < 80 + (recordOf 7 127 2 (wordAt u.cur) (wordAt u.val) 80).length :=
  ⟨by decide, by decide, written_of_all (by decide), written_of_all (by decide), by decide +kernel, by decide +kernel⟩

theorem witness_EncTickEndsOnByteBoundary : succeeds .encTick (enc [5#32, 5#32, 5#32] [5#32, 6#32, 5#32] 4) :=
  ⟨rfl, next_of_exec _ _, by decide +kernel⟩

/-- The source's tick 2 encoded at WPTR = 0 and decoded in place. -/
theorem witness_DecTickInvertsEncTick :
    let s := enc [10001#32, 5000#32] [10050#32, 5200#32] 0
    let t := nextOf (exec .encTick s)
    let u := { t with val := s.val, rlim := 7#32 }
    s.params.wf = true ∧ written s.cur 0 s.nsym.toNat ∧ written s.val 0 s.nsym.toNat ∧
      exec .encTick s = .next t ∧ t.errFlag = false ∧ u.params = s.params ∧ u.nsym = s.nsym ∧ u.rptr = s.wptr ∧
      t.wptr.toNat ≤ 8 * u.rlim.toNat ∧ (∀ i, i < s.nsym.toNat → Memory.read u.val i = Memory.read s.val i) ∧
      (∀ a, s.wptr.toNat < 8 * a + 8 → 8 * a < t.wptr.toNat → Memory.read u.buf a = Memory.read t.buf a) :=
  ⟨by decide, written_of_all (by decide), written_of_all (by decide), next_of_exec _ _, by decide +kernel, rfl, rfl, rfl,
    by decide +kernel, fun _ _ => rfl, fun _ _ _ => rfl⟩

/-- V6: the bitmap padding bit of one symbol is set, its own bit is not. -/
theorem witness_DecTickUnchangedTick :
    let s := dec [5#32] [0x40#8] 1
    1 ≤ s.nsym.toNat ∧ s.nsym.toNat ≤ s.params.sMax ∧
      s.rptr.toNat + 8 * ((s.nsym.toNat + 7) / 8) ≤ 8 * s.rlim.toNat ∧
      ∀ i, i < s.nsym.toNat → getBit s.draw s.buf (s.rptr.toNat + i) = false := by decide

/-- V6: the nine-symbol tick in which only symbol 8 changes. -/
theorem witness_UnchangedSymbolKeepsValue :
    let s := dec (List.replicate 9 0#32) [0x00#8, 0x80#8, 0x04#8] 3
    succeeds .decTick s ∧ 7 < s.nsym.toNat ∧ getBit s.draw s.buf (s.rptr.toNat + 7) = false ∧
      (Memory.read s.val 7).isSome = true := ⟨⟨rfl, next_of_exec _ _, by decide +kernel⟩, by decide, by decide, by decide⟩

/-- The hypotheses of DecTickOneSymbol. -/
abbrev oneSymbol (s : State) (prev : Word) (w : Nat) (f : BitVec w) (b1 b0 : Bool) : Prop :=
  1 ≤ s.params.sMax ∧ s.nsym = 1#32 ∧ Memory.read s.val 0 = some prev ∧
    (b1 = false ∧ b0 = false ∧ w = 4 ∨ b1 = false ∧ b0 = true ∧ w = 8 ∨ b1 = true ∧ b0 = false ∧ w = 32) ∧
    s.rptr.toNat + 10 + w ≤ 8 * s.rlim.toNat ∧ getBit s.draw s.buf s.rptr.toNat = true ∧
    getBit s.draw s.buf (s.rptr.toNat + 8) = b1 ∧ getBit s.draw s.buf (s.rptr.toNat + 9) = b0 ∧
    ∀ k, k < w → getBit s.draw s.buf (s.rptr.toNat + 10 + k) = f.getLsbD (w - 1 - k)

/-- V6: one symbol of each tier, and a sum that leaves the range. -/
theorem witness_DecTickOneSymbol :
    oneSymbol (dec [0#32] [0x80#8, 0x20#8] 2) 0#32 4 8#4 false false ∧
      oneSymbol (dec [0#32] [0x80#8, 0x60#8, 0x00#8] 3) 0#32 8 0x80#8 false true ∧
      oneSymbol (dec [5#32] [0x80#8, 0x80#8, 0x00#8, 0x00#8, 0x01#8, 0x40#8] 6) 5#32 32 5#32 true false ∧
      oneSymbol (dec [0x7FFFFFFF#32] [0x80#8, 0x04#8] 2) 0x7FFFFFFF#32 4 1#4 false false := by
  refine ⟨?_, ?_, ?_, ?_⟩ <;> exact ⟨by decide, by decide, by decide, by decide, by decide, by decide, by decide, by decide,
    by decide⟩

/-- V6: a cut bitmap, and symbol 0 with a cut selector, selector 11, and a cut payload; and by R237 a sum of 2^31 at
symbol 1, the first changed one. -/
theorem witness_DecTickFirstErrors :
    let none1 := dec [0#32] [] 0
    let sel := dec [0#32, 0#32] [0xC0#8] 1
    let bad := dec [0#32] [0x80#8, 0xC0#8] 2
    let pay := dec [0#32, 0#32] [0xC0#8, 0x40#8] 2
    let sum := dec [0#32, 0x7FFFFFFF#32] [0x40#8, 0x04#8] 2
    1 ≤ none1.nsym.toNat ∧ none1.nsym.toNat ≤ none1.params.sMax ∧ 8 * none1.rlim.toNat < 8 ∧
      8 ≤ 8 * sel.rlim.toNat ∧ 0 < sel.nsym.toNat ∧ getBit sel.draw sel.buf 0 = true ∧ 8 * sel.rlim.toNat < 8 + 2 ∧
      getBit bad.draw bad.buf 0 = true ∧ 8 + 2 ≤ 8 * bad.rlim.toNat ∧
      getBit bad.draw bad.buf 8 = true ∧ getBit bad.draw bad.buf 9 = true ∧
      getBit pay.draw pay.buf 0 = true ∧ 8 + 2 ≤ 8 * pay.rlim.toNat ∧
      getBit pay.draw pay.buf 8 = false ∧ getBit pay.draw pay.buf 9 = true ∧ 8 * pay.rlim.toNat < 8 + 2 + 8 ∧
      getBit sum.draw sum.buf 0 = false ∧ getBit sum.draw sum.buf 1 = true ∧ 8 + 2 + 4 ≤ 8 * sum.rlim.toNat ∧
      (getBit sum.draw sum.buf 8 && getBit sum.draw sum.buf 9) = false ∧ Memory.read sum.val 1 = some 0x7FFFFFFF#32 ∧
      (∀ k, k < 4 → getBit sum.draw sum.buf (8 + 2 + k) = (1#4).getLsbD (4 - 1 - k)) ∧
      ¬ ((0x7FFFFFFF#32).toInt + (1#4).toInt ≤ 2147483647) := by
  refine ⟨?_, ?_, ?_, ?_, ?_, ?_, ?_, ?_, ?_, ?_, ?_, ?_, ?_, ?_, ?_, ?_, ?_, ?_, ?_, ?_, ?_, ?_, ?_⟩ <;> decide

/-- Symbol 0 is changed, its field is the 4-bit payload 1 at `p`, and its previous value is 0: it decodes to 1. -/
theorem firstDecodes {s : State} (p : Nat) (hp : p = s.rptr.toNat + 8 * ((s.nsym.toNat + 7) / 8))
    (hb : bitmapBit s 0 = true) (hs : selectorAt s p = (false, false))
    (hf : ∀ k, k < 4 → getBit s.draw s.buf (p + 2 + k) = (1#4).getLsbD (4 - 1 - k))
    (hv : Memory.read s.val 0 = some 0#32) (hl : p + 6 ≤ 8 * s.rlim.toNat) :
    symbolsDecode s (fun i => p + 6 * i) (fun _ => 1) 1 := by
  refine ⟨by simpa using hp, fun i hi => ?_⟩
  obtain rfl : i = 0 := by omega
  rw [if_pos hb]
  refine ⟨4, ⟨by simp [hs, selectorWidth], 1#4, by simpa using hf, .inr ⟨by decide, by simp [hv], ?_⟩⟩, rfl,
    (show p + 6 * (0 + 1) ≤ _ by omega), by decide, by decide⟩
  simp [wordAt, hv]

/-- V6: the source's tick 1, in which symbol 0 changes by 1 (from 0 here) and symbol 1 does not. -/
theorem witness_DecTickDecodesStream :
    let s := dec [0#32, 5000#32] [0x80#8, 0x04#8] 2
    1 ≤ s.nsym.toNat ∧ s.nsym.toNat ≤ s.params.sMax ∧
      s.rptr.toNat + 8 * ((s.nsym.toNat + 7) / 8) ≤ 8 * s.rlim.toNat ∧
      symbolsDecode s (fun i => if i = 0 then 8 else 14) (fun _ => 1) s.nsym.toNat := by
  refine ⟨by decide, by decide, by decide, rfl, fun i hi => ?_⟩
  have h := (firstDecodes (s := dec [0#32, 5000#32] [0x80#8, 0x04#8] 2) 8 (by decide) (by decide) (by decide) (by decide)
    (by decide) (by decide)).2 0 (by decide)
  have hi : i < 2 := hi
  interval_cases i
  · exact h
  · rfl

/-- The hypotheses of DecTickErrorsInStreamOrder at symbol 1 of two, both changed, the record at position `r`. -/
abbrev atSymbol1 (s : State) (r : Nat) : Prop :=
  1 ≤ s.nsym.toNat ∧ s.nsym.toNat ≤ s.params.sMax ∧
    s.rptr.toNat + 8 * ((s.nsym.toNat + 7) / 8) ≤ 8 * s.rlim.toNat ∧ 1 < s.nsym.toNat ∧ bitmapBit s 1 = true ∧
    symbolsDecode s (fun i => r + 8 + 6 * i) (fun _ => 1) 1

theorem atSymbol1_of {s : State} (r : Nat) (hr : s.rptr.toNat = r) (hn : s.nsym.toNat = 2) (hm : s.params.sMax = 9)
    (hb : bitmapBit s 0 = true ∧ bitmapBit s 1 = true) (hs : selectorAt s (r + 8) = (false, false))
    (hf : ∀ k, k < 4 → getBit s.draw s.buf (r + 8 + 2 + k) = (1#4).getLsbD (4 - 1 - k))
    (hv : Memory.read s.val 0 = some 0#32) (hl : r + 8 + 6 ≤ 8 * s.rlim.toNat) : atSymbol1 s r :=
  ⟨by omega, by omega, by omega, by omega, hb.2, firstDecodes (r + 8) (by omega) hb.1 hs hf hv hl⟩

/-- A cut selector: the record starts at position 1, so one bit is left for symbol 1. -/
theorem witness_DecTickErrorsInStreamOrder_cutSelector :
    let s := { dec [0#32, 0#32] [0x60#8, 0x02#8] 2 with rptr := 1#32 }
    atSymbol1 s 1 ∧ 8 * s.rlim.toNat < 15 + 2 :=
  ⟨atSymbol1_of 1 (by decide) (by decide) (by decide) (by decide) (by decide) (by decide) (by decide) (by decide), by decide⟩

theorem witness_DecTickErrorsInStreamOrder_selector11 :
    let s := dec [0#32, 0#32] [0xC0#8, 0x07#8] 2
    atSymbol1 s 0 ∧ 14 + 2 ≤ 8 * s.rlim.toNat ∧ selectorAt s 14 = (true, true) :=
  ⟨atSymbol1_of 0 (by decide) (by decide) (by decide) (by decide) (by decide) (by decide) (by decide) (by decide), by decide,
    by decide⟩

/-- V6: the payload of symbol 1 is cut. -/
theorem witness_DecTickErrorsInStreamOrder_cutPayload :
    let s := dec [0#32, 0#32] [0xC0#8, 0x05#8] 2
    atSymbol1 s 0 ∧ selectorWidth (selectorAt s 14) = some 8 ∧ 14 + 2 ≤ 8 * s.rlim.toNat ∧
      8 * s.rlim.toNat < 14 + 2 + 8 :=
  ⟨atSymbol1_of 0 (by decide) (by decide) (by decide) (by decide) (by decide) (by decide) (by decide) (by decide), by decide,
    by decide, by decide⟩

/-- Symbol 1 goes from 2^31 - 1 by +1. -/
theorem witness_DecTickErrorsInStreamOrder_outOfRange :
    let s := dec [0#32, 0x7FFFFFFF#32] [0xC0#8, 0x04#8, 0x10#8] 3
    atSymbol1 s 0 ∧ fieldDecodes s 1 14 4 2147483648 ∧ 14 + 2 + 4 ≤ 8 * s.rlim.toNat ∧
      ¬ (-2147483648 ≤ (2147483648 : Int) ∧ (2147483648 : Int) ≤ 2147483647) :=
  ⟨atSymbol1_of 0 (by decide) (by decide) (by decide) (by decide) (by decide) (by decide) (by decide) (by decide),
    ⟨by decide, 1#4, by decide, .inr ⟨by decide, by decide, by decide⟩⟩, by decide, by decide⟩

/-- The source's tick 2, with the state ANALYZE leaves for each symbol. -/
theorem witness_AnalyzePredictsEncoder :
    let s := enc [10001#32, 5000#32] [10050#32, 5200#32] 0
    s.params.wf = true ∧ written s.cur 0 s.nsym.toNat ∧ written s.val 0 s.nsym.toNat ∧ succeeds .encTick s ∧
      ∃ r : Nat → State, ∀ i, i < s.nsym.toNat →
        exec .analyze { s with opa := wordAt s.cur i, opb := wordAt s.val i } = .next (r i) :=
  ⟨by decide, written_of_all (by decide), written_of_all (by decide), ⟨rfl, next_of_exec _ _, by decide +kernel⟩,
    ⟨_, fun _ _ => next_of_exec _ _⟩⟩

theorem witness_WbitsWritesField :
    let s := { small with wptr := 96#32 }
    let u := { small with wptr := 129#32 }
    (32#6).toNat ≤ 32 ∧ s.wptr.toNat + (32#6).toNat = 8 * s.params.bufBytes ∧
      (0#6).toNat ≤ 32 ∧ 8 * u.params.bufBytes < u.wptr.toNat + (0#6).toNat ∧ 32 < (33#6).toNat := by decide

theorem witness_RbitsReadsField :
    let s := { small with rptr := 96#32, rlim := 16#32 }
    let u := { small with rptr := 129#32, rlim := 16#32 }
    (32#6).toNat ≤ 32 ∧ s.rptr.toNat + (32#6).toNat = 8 * s.rlim.toNat ∧
      (0#6).toNat ≤ 32 ∧ 8 * u.rlim.toNat < u.rptr.toNat + (0#6).toNat ∧ 32 < (33#6).toNat := by decide

theorem witness_RbitsInvertsWbits :
    let s := { small with wptr := 96#32, rlim := 16#32, arg0 := 0xDEADBEEF#32 }
    s.Inv ∧ (32#6).toNat ≤ 32 ∧ s.wptr.toNat + (32#6).toNat ≤ 8 * s.params.bufBytes ∧
      exec (.wbits 32#6) s = .next (nextOf (exec (.wbits 32#6) s)) ∧
      (nextOf (exec (.wbits 32#6) s)).wptr.toNat ≤ 8 * s.rlim.toNat :=
  ⟨by decide +kernel, by decide, by decide, next_of_exec _ _, by decide +kernel⟩

theorem witness_WflushPadsToByte :
    let s := { small with wptr := 128#32 }
    let u := { small with wptr := 129#32 }
    s.wptr.toNat ≤ 8 * s.params.bufBytes ∧ 8 * u.params.bufBytes < u.wptr.toNat := by decide

theorem witness_RalignSkipsToByte :
    let s := { small with rptr := 128#32, rlim := 16#32 }
    let u := { small with rptr := 129#32, rlim := 16#32 }
    s.rptr.toNat ≤ 8 * s.rlim.toNat ∧ 8 * u.rlim.toNat < u.rptr.toNat := by decide

theorem witness_CmdWriteStartsOrRejects :
    (hostDoes (.write .bits32 0x14#24 0#32) running).inFlight = some { word := 0x12#32, remaining := 0 + 1 } ∧
      (hostDoes (.write .bits32 0x14#24 0#32) failed).inFlight = none ∧ failed.errFlag = true ∧
      (hostDoes (.write .bits32 0x14#24 0#32) small).inFlight = none ∧ small.errFlag = false := by decide

theorem witness_WriteWhileBusyIsDropped :
    legalAccess .bits32 0x00000C#24 = true ∧ ¬ ((0x00000C#24 : Offset) = 0x00000C#24 ∧ (2#32).getLsbD 0 = true) ∧
      legalAccess .bits8 0xFFFFFF#24 = true ∧ running.inFlight = some { word := 0x12#32, remaining := 0 + 1 } := by decide

theorem witness_InputFixedWhileBusy : running.inFlight = some { word := 0x12#32, remaining := 0 + 1 } ∧
    isNext (step running) = true ∧ isNext (step (hostDoes (.write .bits32 0xC#24 1#32) running)) = true := by decide

theorem witness_SoftResetAtAnyTime :
    (hostDoes (.write .bits32 0x00000C#24 1#32) small).host = [.write .bits32 0x00000C#24 1#32] ∧
      (1#32).getLsbD 0 = true ∧ small.inFlight = none ∧ running.inFlight = some { word := 0x12#32, remaining := 0 + 1 } := by
  decide

theorem witness_StatusWriteClears : (hostDoes (.write .bits32 0x000010#24 0x1E#32) failed).inFlight = none := rfl

theorem witness_HostReadHasNoSideEffect : (hostDoes (.read .bits32 0x000010#24) small).inFlight = none ∧
    (hostDoes (.read .bits16 0x000010#24) running).inFlight = some { word := 0x12#32, remaining := 0 + 1 } := ⟨rfl, rfl⟩

theorem witness_StatusReadIsExact :
    (nextOf (step (hostDoes (.read .bits32 0x000010#24) running))).replies = [.word 1#32] ∧
      (nextOf (step (hostDoes (.read .bits32 0x000010#24) failed))).replies = [.word 6#32] := by decide

theorem witness_IllegalAccessGetsBusError : (0x000002#24 : Offset).toNat % 4 ≠ 0 ∧ (0x2FFFFF#24 : Offset).toNat < 0x300000 ∧
    small.inFlight = none ∧ running.inFlight = some { word := 0x12#32, remaining := 0 + 1 } := by decide

/-- A boundary offset of each range of ReservedLocationsReadZero, at S_MAX = 9 and BUF_BYTES = 16. -/
theorem witness_ReservedLocationsReadZero : small.inFlight = none ∧
    0x60 ≤ (0x000060#24 : Offset).toNat ∧ 0x100000 + 4 * small.params.sMax ≤ (0x100024#24 : Offset).toNat ∧
    0x200000 + 4 * small.params.sMax ≤ (0x200024#24 : Offset).toNat ∧
    (0x7FFFFC#24 : Offset).toNat < 0x800000 ∧ 0x800000 + small.params.bufBytes ≤ (0x800010#24 : Offset).toNat := by decide

theorem witness_BufWindowLanes : small.inFlight = none ∧ small.params.wf = true ∧ 12 % 4 = 0 ∧
    12 + 4 ≤ small.params.bufBytes ∧ 15 < small.params.bufBytes ∧ Memory.read small.buf 15 = some 0#8 ∧
    Memory.read small.buf 12 = some 0#8 ∧ Memory.read small.buf (12 + 1) = some 0#8 ∧
    Memory.read small.buf (12 + 2) = some 0#8 ∧ Memory.read small.buf (12 + 3) = some 0#8 := by decide +kernel

theorem witness_SymbolWindowsHoldWords : small.inFlight = none ∧ small.params.wf = true ∧ 8 < small.params.sMax ∧
    Memory.read small.cur 8 = some 0#32 ∧ Memory.read small.val 8 = some 0#32 := by decide

theorem witness_RegisterWritesReadBack : small.Inv ∧ Reg.rlim ≠ Reg.status ∧ Reg.rlim ≠ Reg.cmd ∧
    (Reg.ctrl = Reg.ctrl → (0xFFFFFFFE#32).getLsbD 0 = false) ∧ Reg.nsym ≠ Reg.rlim := by decide +kernel

theorem witness_RegisterPageOffsets :
    (hostDoes (.write .bits32 (BitVec.ofNat 24 Reg.nsym.offset) 5#32) small).inFlight = none := rfl

theorem witness_IrqIsALevel :
    ({ small with intEn := 1#32 } : State).intEn.getLsbD 0 = true ∧
      fails .crcRange { small with intEn := 2#32, arg0 := 17#32 } ∧
      ({ small with intEn := 2#32 } : State).intEn.getLsbD 1 = true :=
  ⟨by decide, ⟨rfl, next_of_exec _ _, by decide⟩, by decide⟩

theorem witness_StartedCommandCompletes : running.inFlight = some { word := 0x12#32, remaining := 1 } := rfl

theorem witness_CompletionSetsDone : (small.withFetchWord 32 0x12).inFlight = some { word := 0x12#32, remaining := 0 } ∧
    isNext (step (small.withFetchWord 32 0x12)) = true := by decide +kernel

theorem witness_EveryStepDrawsAnew : isNext (step small) = true := by decide

end Sys2Proof.Machine.Tests
end

section
/-! PROOFS. The state of the engine (10_state.md): what a host access to the register page does, register by register. -/

namespace Sys2Proof.Machine

variable {s : State}

/-! ### An access to a register's offset -/

/-- A register's offset of the page leads to that register, in a read and in a write (R32). -/
theorem readPlace32_reg (r : Reg) (s : State) : readPlace32 (.page r.offset) s = readReg r s := by
  simp only [readPlace32, regAt_offset]

theorem writePlace32_reg (r : Reg) (v : Word) (s : State) : writePlace32 (.page r.offset) v s = writeReg r v s := by
  simp only [writePlace32, regAt_offset]

/-- A legal 32-bit write while BUSY = 0 writes its word (R93). -/
theorem hostWrite_idle32 {off : Offset} (v : Word) (hs : s.inFlight = none) (hl : legalAccess .bits32 off = true) :
    hostWrite .bits32 off v s = writePlace32 (placeOf off) v s := by
  simp only [hostWrite, hl, busy_of_idle hs, Bool.false_and, Bool.false_eq_true, if_true, if_false]

/-- A legal 8-bit write while BUSY = 0 writes the low byte of its data (R93). -/
theorem hostWrite_idle8 {off : Offset} (v : Word) (hs : s.inFlight = none) (hl : legalAccess .bits8 off = true) :
    hostWrite .bits8 off v s = writePlace8 (placeOf off) (v.extractLsb' 0 8) s := by
  simp only [hostWrite, hl, busy_of_idle hs, Bool.false_and, Bool.false_eq_true, if_true, if_false]

theorem hostWrite_illegal {w : AccessWidth} {off : Offset} (v : Word) (hl : legalAccess w off = false) :
    hostWrite w off v s = { s with replies := .busError :: s.replies } := by
  simp only [hostWrite, hl, Bool.false_eq_true, if_false]

/-- A write while BUSY = 0 is a bus error, or writes a word or a byte (R93, R94). -/
theorem hostWrite_idle (w : AccessWidth) (off : Offset) (v : Word) (hs : s.inFlight = none) :
    hostWrite w off v s = { s with replies := .busError :: s.replies } ∨
      hostWrite w off v s = writePlace32 (placeOf off) v s ∨
      hostWrite w off v s = writePlace8 (placeOf off) (v.extractLsb' 0 8) s := by
  by_cases hl : legalAccess w off = true
  · cases w with
    | bits8 => exact .inr (.inr (hostWrite_idle8 v hs hl))
    | bits16 => cases hl
    | bits32 => exact .inr (.inl (hostWrite_idle32 v hs hl))
    | bits64Up => cases hl
  · exact .inl (hostWrite_illegal v (Bool.eq_false_iff.mpr hl))

/-- A host write at a register's offset is that register's write (R32), while BUSY = 0. -/
theorem hostWrite_reg_idle (r : Reg) (v : Word) (hs : s.inFlight = none) :
    hostWrite .bits32 (BitVec.ofNat 24 r.offset) v s = writeReg r v s :=
  calc hostWrite .bits32 (BitVec.ofNat 24 r.offset) v s
      = writePlace32 (placeOf (BitVec.ofNat 24 r.offset)) v s := hostWrite_idle32 v hs (legalAccess_reg r)
    _ = writeReg r v s := by rw [placeOf_reg, writePlace32_reg]

/-- A host read at a register's offset answers the register while BUSY = 0, and STATUS at any time (R301). -/
theorem readReply_reg {r : Reg} (h : s.inFlight = none ∨ r = .status) :
    readReply .bits32 (BitVec.ofNat 24 r.offset) s = .word (readReg r s) := by
  have hexact : (s.busy && (BitVec.ofNat 24 r.offset).toNat != Reg.status.offset) = false := by
    rcases h with hs | rfl
    · rw [busy_of_idle hs, Bool.false_and]
    · exact Bool.and_false _
  simp only [readReply, legalAccess_reg, hexact, placeOf_reg, readPlace32_reg, Bool.false_eq_true, if_true, if_false]

/-- The step of an idle engine that writes a register. -/
theorem step_writeReg {r : Reg} {v : Word} {rest : List HostOp} (hs : s.inFlight = none)
    (hh : s.host = .write .bits32 (BitVec.ofNat 24 r.offset) v :: rest) :
    step s = .next (advance (writeReg r v { s with host := rest })) := by
  rw [step_idle hs, hostStep_cons hh, hostOp, hostWrite_reg_idle (s := { s with host := rest }) r v hs]

/-- The host's step that reads a register while BUSY = 0, or STATUS at any time. -/
theorem hostStep_readReg {r : Reg} {rest : List HostOp} (h : s.inFlight = none ∨ r = .status)
    (hh : s.host = .read .bits32 (BitVec.ofNat 24 r.offset) :: rest) :
    hostStep s = { s with
      replies := .word (readReg r { s with host := rest }) :: s.replies, host := rest, draw := s.draw + 1 } := by
  rw [hostStep_cons hh, hostOp, hostRead, readReply_reg (s := { s with host := rest }) h]
  rfl

/-- No register shows the host's operations to come. -/
theorem readReg_host (r : Reg) (s : State) (rest : List HostOp) : readReg r { s with host := rest } = readReg r s := by
  cases r <;> rfl

/-- Settles O53: the access at each offset of R32 by the lemmas above, and the list of registers by its 24 rows. -/
theorem registerPageOffsets : Obligations.RegisterPageOffsets := by
  intro s r v rest hs
  refine ⟨step_writeReg hs, fun hh => ?_, ?_⟩
  · rw [step_idle hs, hostStep_readReg (.inl hs) hh, readReg_host]
  · cases r <;> rfl

/-! ### STATUS -/

/-- The STATUS word as a sum of its five bits (R36). -/
theorem statusWord_eq (s : State) :
    s.statusWord = BitVec.ofNat 32 (s.reject.toNat * 16 + s.overrun.toNat * 8 + s.errFlag.toNat * 4
      + s.done.toNat * 2 + s.inFlight.isSome.toNat) := by
  unfold State.statusWord State.busy
  generalize s.reject = b4, s.overrun = b3, s.errFlag = b2, s.done = b1, s.inFlight.isSome = b0
  revert b4 b3 b2 b1 b0
  decide

/-- Settles O47: the read answers the STATUS word in both cases, and one step less to go leaves the word as it is. -/
theorem statusReadIsExact : Obligations.StatusReadIsExact := by
  intro s t rest hh hs hstep
  rw [← statusWord_eq]
  rcases hs with hs | ⟨c, k, hs⟩
  · rw [step_idle hs, hostStep_readReg (r := .status) (.inr rfl) hh] at hstep
    cases hstep
    rfl
  · have hbusy : (countDown ⟨c, k + 1⟩ k s).statusWord = s.statusWord := by
      simp only [statusWord_eq, countDown, hs, Option.isSome_some]
    rw [step_busy hs, hostStep_readReg (s := countDown _ _ s) (r := .status) (.inr rfl) hh] at hstep
    cases hstep
    rw [← hbusy]
    rfl

/-- A STATUS write as one update of the state, the bits of ERR side by side with the others (R36, R330). -/
theorem writeStatus_eq (v : Word) (s : State) :
    writeStatus v s = { s with
      done := s.done && !v.getLsbD 1
      errFlag := s.errFlag && !v.getLsbD 2
      errReg := if v.getLsbD 2 then 0#32 else s.errReg
      errInfo := if v.getLsbD 2 then 0#32 else s.errInfo
      errSym := if v.getLsbD 2 then 0xFFFFFFFF#32 else s.errSym
      overrun := s.overrun && !v.getLsbD 3
      reject := s.reject && !v.getLsbD 4 } := by
  unfold writeStatus
  cases v.getLsbD 2 <;> simp [clearError, noSymbol]

/-- Settles O45: 0x10 is the offset of STATUS, and `writeStatus_eq` says what its write does. -/
theorem statusWriteClears : Obligations.StatusWriteClears := by
  intro s v rest hh hs
  rw [step_writeReg (r := .status) hs hh, writeReg, writeStatus_eq]
  rfl

/-! ### Register writes -/

/-- A write of CTRL with bit 0 = 0 does nothing (R35). -/
theorem writeReg_ctrl_of_zero {v : Word} (hv : v.getLsbD 0 = false) : writeReg .ctrl v s = s := by
  rw [writeReg, hv, if_neg Bool.false_ne_true]

/-- RLIM keeps a value inside BUF as it is, and BUF_BYTES for every other one (R49). -/
theorem clampRlim_eq (v : Word) (s : State) :
    clampRlim v s = if v.toNat ≤ s.params.bufBytes then v else BitVec.ofNat 32 s.params.bufBytes := by
  unfold clampRlim
  split
  · rw [Nat.min_eq_left ‹_›, BitVec.ofNat_toNat, BitVec.setWidth_eq]
  · rw [Nat.min_eq_right (by omega)]

theorem clampRlim_le (v : Word) (s : State) : (clampRlim v s).toNat ≤ s.params.bufBytes := by
  rw [clampRlim, BitVec.toNat_ofNat]
  exact (Nat.mod_le _ _).trans (Nat.min_le_right _ _)

/-- The writes whose effect stays in the one register: all but STATUS, CMD and the soft reset. -/
def plainWrite (r : Reg) (v : Word) : Prop := r ≠ .status ∧ r ≠ .cmd ∧ (r = .ctrl → v.getLsbD 0 = false)

/-- A plain write changes no other register that is read; CRC_RESULT follows CRC_STATE (R56, R103). -/
theorem readReg_writeReg_other {r q : Reg} {v : Word} (hw : plainWrite r v) (hq : q ≠ r)
    (hcrc : r = .crcState → q ≠ .crcResult) : readReg q (writeReg r v s) = readReg q s := by
  obtain ⟨hstatus, hcmd, hctrl⟩ := hw
  cases r with
  | status => exact absurd rfl hstatus
  | cmd => exact absurd rfl hcmd
  | ctrl => rw [writeReg_ctrl_of_zero (hctrl rfl)]
  | crcState =>
    have hresult := hcrc rfl
    cases q <;> first | contradiction | rfl
  | id | capSym | capBuf | err | errInfo | errSym | result | aux | crcResult => rfl
  | intEn | nsym | tierCfg | wptr | rptr | rlim | tickcnt | arg0 | arg1 | opa | opb =>
    cases q <;> first | contradiction | rfl

/-- A plain write leaves all that is not a register as it is: the RAMs, the sizes, the command in flight, the host. -/
theorem writeReg_frame {r : Reg} {v : Word} (hw : plainWrite r v) :
    (writeReg r v s).cur = s.cur ∧ (writeReg r v s).val = s.val ∧ (writeReg r v s).buf = s.buf ∧
      (writeReg r v s).params = s.params ∧ (writeReg r v s).inFlight = s.inFlight ∧
      (writeReg r v s).host = s.host ∧ (writeReg r v s).replies = s.replies ∧ (writeReg r v s).draw = s.draw := by
  obtain ⟨hstatus, hcmd, hctrl⟩ := hw
  cases r with
  | status => exact absurd rfl hstatus
  | cmd => exact absurd rfl hcmd
  | ctrl => rw [writeReg_ctrl_of_zero (hctrl rfl)]; exact ⟨rfl, rfl, rfl, rfl, rfl, rfl, rfl, rfl⟩
  | _ => exact ⟨rfl, rfl, rfl, rfl, rfl, rfl, rfl, rfl⟩

/-- Settles O52: by the two frame lemmas, and by the access type of each register for what reads back. -/
theorem registerWritesReadBack : Obligations.RegisterWritesReadBack := by
  refine ⟨fun s r q v _ hstatus hcmd hctrl => ?_, fun s => rfl⟩
  have hw : plainWrite r v := ⟨hstatus, hcmd, hctrl⟩
  refine ⟨readReg_writeReg_other hw, writeReg_frame hw, ?_⟩
  cases r with
  | status => exact absurd rfl hstatus
  | cmd => exact absurd rfl hcmd
  | ctrl => rfl
  | rlim => exact clampRlim_eq v s
  | _ => rfl

/-! ### The check of NSYM -/

/-- Every command that checks NSYM first raises BAD_CONFIG on an illegal one, whatever it would compute (R45, R306). -/
theorem complete_whenNsymLegal_of_illegal (r : Except CmdError State)
    (h : s.nsym.toNat = 0 ∨ s.params.sMax < s.nsym.toNat) :
    complete s (whenNsymLegal s r) = .next (errored s 0x00000006#32 s.nsym 0xFFFFFFFF#32) := by
  rcases whenNsymLegal_cases (s := s) (r := r) with ⟨hlegal, _⟩ | ⟨_, hraise⟩
  · have := nsymLegal_iff.mp hlegal
    omega
  · rw [hraise, complete_error, raise_badConfig]

/-- Settles O15: each of the four commands is a completion behind the check of NSYM. -/
theorem illegalNsymRaisesBadConfig : Obligations.IllegalNsymRaisesBadConfig := by
  intro i s hi hn
  rcases hi with rfl | rfl | rfl | rfl <;> exact complete_whenNsymLegal_of_illegal _ hn

end Sys2Proof.Machine
end

section
/-! PROOFS. The invariant every step keeps: each operation of the engine keeps it, then each command and each host
access, then the step. -/

namespace Sys2Proof.Machine

variable {s t : State}

/-! ### The invariant's parts -/

theorem ramsWf_iff : s.ramsWf = true ↔ Memory.wf s.params.sMax s.cur = true ∧ Memory.wf s.params.sMax s.val = true ∧
    Memory.wf s.params.bufBytes s.buf = true := by
  simp only [State.ramsWf, Bool.and_eq_true, and_assoc]

theorem rams_of_inv (h : s.Inv) : Memory.wf s.params.sMax s.cur = true ∧ Memory.wf s.params.sMax s.val = true ∧
    Memory.wf s.params.bufBytes s.buf = true :=
  have ⟨_, hram, _⟩ := h
  ramsWf_iff.mp hram

theorem reservedZero_iff :
    s.reservedZero = true ↔ s.intEn &&& 0xFFFFFFFC#32 = 0#32 ∧ s.tierCfg &&& 0xFFFF80F8#32 = 0#32 := by
  simp only [State.reservedZero, Bool.and_eq_true, beq_iff_eq]

theorem rlimInBuf_iff : s.rlimInBuf = true ↔ s.rlim.toNat ≤ s.params.bufBytes := by
  simp only [State.rlimInBuf, decide_eq_true_eq]

theorem noErrWhileBusy_of_idle (h : s.inFlight = none) : s.noErrWhileBusy = true := by
  rw [State.noErrWhileBusy, busy_of_idle h, Bool.false_and, Bool.not_false]

theorem noErrWhileBusy_of_noErr (h : s.errFlag = false) : s.noErrWhileBusy = true := by
  rw [State.noErrWhileBusy, h, Bool.and_false, Bool.not_false]

theorem busy_of_inFlight {f : InFlight} (h : s.inFlight = some f) : s.busy = true := by
  rw [State.busy, h, Option.isSome_some]

/-- The latch at its reset values is consistent (R330). -/
theorem latchConsistent_of_clear (hf : s.errFlag = false) (hr : s.errReg = 0#32) (hi : s.errInfo = 0#32)
    (hy : s.errSym = 0xFFFFFFFF#32) : s.latchConsistent = true := by
  rw [State.latchConsistent, hf, hr, hi, hy]; rfl

theorem latchConsistent_of_error (hf : s.errFlag = true) (hr : legalErrWords.contains s.errReg = true) :
    s.latchConsistent = true := by
  rw [State.latchConsistent, hf, if_pos rfl, hr]

/-- The invariant holds of a choice of two states when it holds of each where it is chosen. -/
theorem inv_ite {c : Prop} [Decidable c] {u v : State} (hu : c → u.Inv) (hv : ¬c → v.Inv) :
    (if c then u else v).Inv := by
  split
  · exact hu ‹_›
  · exact hv ‹_›

/-- The RAMs may take any contents in canonical form (R57 to R59). -/
theorem inv_setRams (h : s.Inv) {c v : List (Nat × Word)} {b : List Host.Cell}
    (hc : Memory.wf s.params.sMax c = true) (hv : Memory.wf s.params.sMax v = true)
    (hb : Memory.wf s.params.bufBytes b = true) : ({ s with cur := c, val := v, buf := b } : State).Inv := by
  obtain ⟨hp, _, hz, hrl, hl, hn⟩ := h
  exact ⟨hp, ramsWf_iff.mpr ⟨hc, hv, hb⟩, hz, hrl, hl, hn⟩

/-! ### Completion keeps the invariant -/

/-- A success keeps the invariant: it writes VAL and BUF within their sizes, and otherwise only registers the invariant
does not speak of (R308). -/
theorem inv_commit (h : s.Inv) {v : List (Nat × Word)} {b : List Host.Cell} (hv : Memory.wf s.params.sMax v = true)
    (hb : Memory.wf s.params.bufBytes b = true) {wptr rptr tickcnt result aux crc : Word} :
    (commit { s with
      val := v, buf := b, wptr := wptr, rptr := rptr
      tickcnt := tickcnt, result := result, aux := aux, crcState := crc }).Inv := by
  obtain ⟨hp, hram, hz, hrl, hl, _⟩ := inv_setRams h (rams_of_inv h).1 hv hb
  exact ⟨hp, hram, hz, hrl, hl, noErrWhileBusy_of_idle rfl⟩

/-- An error keeps the invariant: its ERR word is a legal one, and its command is no longer in flight. -/
theorem inv_raiseError (h : s.Inv) {e : CmdError} (he : e.code = .checksumMismatch → e.layer ≠ 3#2) :
    (raiseError s e).Inv := by
  obtain ⟨hp, hram, hz, hrl, _, _⟩ := h
  exact ⟨hp, hram, hz, hrl, latchConsistent_of_error rfl (errWord_legal he), noErrWhileBusy_of_idle rfl⟩

/-- Every error but CHECKSUM_MISMATCH has LAYER 0, so it keeps the invariant (R324). -/
theorem inv_raiseError_of_code (h : s.Inv) {e : CmdError} (he : e.code ≠ .checksumMismatch) : (raiseError s e).Inv :=
  inv_raiseError h fun hc => absurd hc he

theorem isDecodeError.code_ne {e : CmdError} (h : isDecodeError e) : e.code ≠ .checksumMismatch := by
  rcases h with h | h <;> rw [h] <;> decide

/-! ### Every command keeps the invariant -/

/-- The words of CUR that a command puts into VAL are as many as its symbols. -/
theorem curWords_length (s : State) (mention : Nat) : (s.curWords mention).length = s.symbols := by
  simp only [State.curWords, List.length_map, List.length_range]

/-- A legal NSYM's worth of words written from VAL[0] up stays in VAL (R45, R58). -/
theorem writeAll_val_wf (hv : Memory.wf s.params.sMax s.val = true) (hn : s.nsymLegal = true) {vs : List Word}
    (hlen : vs.length = s.symbols) : Memory.wf s.params.sMax (Memory.writeAll s.val 0 vs) = true := by
  have hle : s.symbols ≤ s.params.sMax := (nsymLegal_iff.mp hn).2
  exact Memory.writeAll_wf vs hv (by omega)

/-- Each command's rule keeps the invariant: the bounds it checks before it writes are the bounds of the RAMs. -/
theorem exec_keeps_inv {i : Instr} (h : s.Inv) (hx : exec i s = .next t) : t.Inv := by
  obtain ⟨-, hval, hbuf⟩ := rams_of_inv h
  cases i with
  | nop => rw [execNop_cases hx]; exact inv_commit h hval hbuf
  | crcInit => rw [execCrcInit_cases hx]; exact inv_commit h hval hbuf
  | crcByte b => rw [execCrcByte_cases hx]; exact inv_commit h hval hbuf
  | analyze => rw [execAnalyze_cases hx]; exact inv_commit h hval hbuf
  | crcRange =>
    rcases execCrcRange_cases hx with ⟨_, rfl⟩ | ⟨_, rfl⟩
    · exact inv_commit h hval hbuf
    · exact inv_raiseError_of_code h nofun
  | crcCheck layer =>
    rcases execCrcCheck_cases hx with ⟨_, _, _, rfl⟩ | ⟨hlayer, _, _, rfl⟩ | ⟨_, _, rfl⟩ | ⟨_, rfl⟩
    · exact inv_commit h hval hbuf
    · exact inv_raiseError h fun _ => hlayer
    · exact inv_raiseError_of_code h nofun
    · exact inv_raiseError_of_code h nofun
  | crcEmit =>
    rcases execCrcEmit_cases hx with ⟨hfit, rfl⟩ | ⟨_, rfl⟩
    · exact inv_commit h hval (Memory.writeAll_wf _ hbuf hfit)
    · exact inv_raiseError_of_code h nofun
  | refCapture =>
    rcases execRefCapture_cases hx with ⟨hn, hfit, rfl⟩ | ⟨_, _, rfl⟩ | ⟨_, rfl⟩
    · exact inv_commit h (writeAll_val_wf hval hn (curWords_length s 1)) (putBits_wf hbuf hfit)
    · exact inv_raiseError_of_code h nofun
    · exact inv_raiseError_of_code h nofun
  | refLoad =>
    rcases execRefLoad_cases hx with ⟨hn, _, rfl⟩ | ⟨_, _, rfl⟩ | ⟨_, rfl⟩
    · exact inv_commit h (writeAll_val_wf hval hn (by simp)) hbuf
    · exact inv_raiseError_of_code h nofun
    · exact inv_raiseError_of_code h nofun
  | encTick =>
    rcases execEncTick_cases hx with ⟨hn, hfit, rfl⟩ | ⟨_, _, rfl⟩ | ⟨_, rfl⟩
    · exact inv_commit h (writeAll_val_wf hval hn (curWords_length s 3)) (putBits_wf hbuf hfit)
    · exact inv_raiseError_of_code h nofun
    · exact inv_raiseError_of_code h nofun
  | decTick =>
    rcases execDecTick_cases hx with ⟨hn, d, _, hlen, _, _, _, rfl⟩ | ⟨_, e, _, he, rfl⟩ | ⟨_, rfl⟩
    · exact inv_commit h (writeAll_val_wf hval hn hlen) hbuf
    · exact inv_raiseError_of_code h he.code_ne
    · exact inv_raiseError_of_code h nofun
  | wbits w =>
    rcases execWbits_cases hx with ⟨_, hfit, rfl⟩ | ⟨_, _, rfl⟩ | ⟨_, rfl⟩
    · exact inv_commit h hval (putBits_wf hbuf (by rwa [fieldBits_length]))
    · exact inv_raiseError_of_code h nofun
    · exact inv_raiseError_of_code h nofun
  | rbits w =>
    rcases execRbits_cases hx with ⟨_, _, rfl⟩ | ⟨_, _, rfl⟩ | ⟨_, rfl⟩
    · exact inv_commit h hval hbuf
    · exact inv_raiseError_of_code h nofun
    · exact inv_raiseError_of_code h nofun
  | wflush =>
    rcases execWflush_cases hx with ⟨hfit, rfl⟩ | ⟨_, rfl⟩
    · exact inv_commit h hval (putBits_wf hbuf (by rwa [zeroBits_length]))
    · exact inv_raiseError_of_code h nofun
  | ralign =>
    rcases execRalign_cases hx with ⟨_, rfl⟩ | ⟨_, rfl⟩
    · exact inv_commit h hval hbuf
    · exact inv_raiseError_of_code h nofun

/-- A due word keeps the invariant: it is a command, or it raises ILLEGAL_COMMAND (R305). -/
theorem completeWord_keeps_inv {c : Word} (h : s.Inv) (hx : completeWord c s = .next t) : t.Inv := by
  unfold completeWord at hx
  split at hx
  · exact exec_keeps_inv h hx
  · cases hx
    exact inv_raiseError_of_code h nofun

/-! ### Every host access keeps the invariant -/

theorem inv_softReset (h : s.Inv) : (softReset s).Inv := by
  obtain ⟨hp, hram, _, _, _, _⟩ := h
  exact ⟨hp, hram, reservedZero_iff.mpr ⟨by simp, by simp⟩, rlimInBuf_iff.mpr (Nat.zero_le _),
    latchConsistent_of_clear rfl rfl rfl rfl, noErrWhileBusy_of_idle rfl⟩

theorem inv_clearError (h : s.Inv) : (clearError s).Inv := by
  obtain ⟨hp, hram, hz, hrl, _, _⟩ := h
  exact ⟨hp, hram, hz, hrl, latchConsistent_of_clear rfl rfl rfl rfl, noErrWhileBusy_of_noErr rfl⟩

/-- The W1C bits beside ERR are not in the invariant, and a 1 in bit 2 is the return from the error (R36, R330). -/
theorem inv_writeStatus (v : Word) (h : s.Inv) : (writeStatus v s).Inv := by
  have hlatch : (if v.getLsbD 2 then clearError s else s).Inv := inv_ite (fun _ => inv_clearError h) fun _ => h
  exact hlatch

/-- A CMD write starts a command only while no error is latched (R300). -/
theorem inv_issue (c : Word) (h : s.Inv) : (issue c s).Inv := by
  refine inv_ite (fun _ => h) fun hf => ?_
  obtain ⟨hp, hram, hz, hrl, hl, _⟩ := h
  exact ⟨hp, hram, hz, hrl, hl, noErrWhileBusy_of_noErr (Bool.eq_false_iff.mpr hf)⟩

/-- Bits masked off a word are 0 in it (R40, R46). -/
theorem masked_and_eq_zero {m n : Word} (v : Word) (hmn : m &&& n = 0#32) : v &&& m &&& n = 0#32 := by
  rw [BitVec.and_assoc, hmn, BitVec.and_zero]

/-- Each register's write keeps the invariant: INT_EN and TIER_CFG are masked and RLIM is clamped (R40, R46, R49). -/
theorem inv_writeReg (r : Reg) (v : Word) (h : s.Inv) : (writeReg r v s).Inv := by
  have ⟨hp, hram, hz, hrlim, hl, hn⟩ := h
  obtain ⟨hintEn, htier⟩ := reservedZero_iff.mp hz
  cases r with
  | ctrl => exact inv_ite (fun _ => inv_softReset h) fun _ => h
  | status => exact inv_writeStatus v h
  | cmd => exact inv_issue v h
  | intEn => exact ⟨hp, hram, reservedZero_iff.mpr ⟨masked_and_eq_zero v rfl, htier⟩, hrlim, hl, hn⟩
  | tierCfg => exact ⟨hp, hram, reservedZero_iff.mpr ⟨hintEn, masked_and_eq_zero v rfl⟩, hrlim, hl, hn⟩
  | rlim => exact ⟨hp, hram, hz, rlimInBuf_iff.mpr (clampRlim_le v s), hl, hn⟩
  | _ => exact h

/-- A byte written through the BUF window lands in BUF or nowhere (R95). -/
theorem inv_writeWindowByte (a : Nat) (b : Byte) (h : s.Inv) : (writeWindowByte a b s).Inv := by
  obtain ⟨hcur, hval, hbuf⟩ := rams_of_inv h
  exact inv_ite (fun ha => inv_setRams h hcur hval (Memory.write_wf b hbuf ha)) fun _ => h

theorem inv_writeWindowWordLE (a : Nat) (v : Word) (h : s.Inv) : (writeWindowWordLE a v s).Inv :=
  inv_writeWindowByte _ _ (inv_writeWindowByte _ _ (inv_writeWindowByte _ _ (inv_writeWindowByte _ _ h)))

/-- A 32-bit write keeps the invariant at every place: a window's write stays below the size it checks (R95). -/
theorem inv_writePlace32 (p : Place) (v : Word) (h : s.Inv) : (writePlace32 p v s).Inv := by
  obtain ⟨hcur, hval, hbuf⟩ := rams_of_inv h
  cases p with
  | page off =>
    cases hr : regAt off with
    | none => simpa only [writePlace32, hr] using h
    | some r => simpa only [writePlace32, hr] using inv_writeReg r v h
  | curWindow off => exact inv_ite (fun hi => inv_setRams h (Memory.write_wf v hcur hi) hval hbuf) fun _ => h
  | valWindow off => exact inv_ite (fun hi => inv_setRams h hcur (Memory.write_wf v hval hi) hbuf) fun _ => h
  | reserved => exact h
  | bufWindow a => exact inv_writeWindowWordLE a v h

theorem inv_writePlace8 (p : Place) (b : Byte) (h : s.Inv) : (writePlace8 p b s).Inv := by
  cases p with
  | bufWindow a => exact inv_writeWindowByte a b h
  | _ => exact h

/-- A host write keeps the invariant: while busy it is refused, dropped or the soft reset, else a place's write. -/
theorem inv_hostWrite (w : AccessWidth) (off : Offset) (v : Word) (h : s.Inv) : (hostWrite w off v s).Inv := by
  cases hf : s.inFlight with
  | none =>
    rcases hostWrite_idle w off v hf with he | he | he <;> rw [he]
    · exact h
    · exact inv_writePlace32 _ _ h
    · exact inv_writePlace8 _ _ h
  | some f =>
    rcases hostWrite_busy w off v (busy_of_inFlight hf) with ⟨_, he⟩ | ⟨_, _, he⟩ | ⟨_, he⟩ <;> rw [he]
    · exact h
    · exact h
    · exact inv_softReset h

theorem inv_hostOp (op : HostOp) (rest : List HostOp) (h : s.Inv) : (hostOp op rest s).Inv := by
  cases op with
  | read w off => exact h
  | write w off v => exact inv_hostWrite (s := { s with host := rest }) w off v h
  | wait => exact inv_ite (fun _ => h) fun _ => h
  | awaitIrq => exact inv_ite (fun _ => h) fun _ => h

theorem inv_hostStep (h : s.Inv) : (hostStep s).Inv := by
  unfold hostStep
  split
  · exact h
  · exact inv_hostOp _ _ h

/-- A step less to go changes neither that the engine is busy nor anything else of the invariant. -/
theorem inv_countDown {f : InFlight} (left : Nat) (hf : s.inFlight = some f) (h : s.Inv) :
    (countDown f left s).Inv := by
  obtain ⟨hp, hram, hz, hrl, hl, hn⟩ := h
  have hnoErr : s.errFlag = false := by simpa [State.noErrWhileBusy, busy_of_inFlight hf] using hn
  exact ⟨hp, hram, hz, hrl, hl, noErrWhileBusy_of_noErr hnoErr⟩

/-- Settles O6, along the three cases of a step: a completion, or a host operation while idle or while busy. -/
theorem stepKeepsInvariant : Obligations.StepKeepsInvariant := by
  intro s t h hstep
  match hf : s.inFlight with
  | none =>
    rw [step_idle hf] at hstep
    cases hstep
    exact inv_hostStep h
  | some ⟨c, 0⟩ =>
    rw [step_due hf] at hstep
    exact completeWord_keeps_inv h hstep
  | some ⟨c, k + 1⟩ =>
    rw [step_busy hf] at hstep
    cases hstep
    exact inv_hostStep (inv_countDown k hf h)

end Sys2Proof.Machine
end

section
/-! PROOFS. The engine's space as the host sees it (20_memory.md): legal and illegal accesses, reserved locations, the
BUF, CUR and VAL windows, and what a host operation can do while a command is in flight. -/

namespace Sys2Proof.Machine

variable {s t : State} {w : AccessWidth} {off : Offset} {v : Word} {rest : List HostOp}

/-! ### Which accesses are legal -/

theorem legalAccess_bits32_iff : legalAccess .bits32 off = true ↔ off.toNat % 4 = 0 := decide_eq_true_iff

/-- The places that allow single bytes are those from the reserved region up (R93, log 12). -/
theorem legalAccess_bits8_iff : legalAccess .bits8 off = true ↔ 0x300000 ≤ off.toNat := by
  unfold legalAccess placeOf
  split_ifs <;> simp only [Place.byteLegal, Bool.false_eq_true, true_iff, false_iff] <;> omega

theorem legalAccess_bits32_ofNat {n : Nat} (hn : n < 0x1000000) (ha : n % 4 = 0) :
    legalAccess .bits32 (BitVec.ofNat 24 n) = true :=
  legalAccess_bits32_iff.mpr (by rwa [toNat_offset hn])

theorem legalAccess_bits8_ofNat {n : Nat} (hn : n < 0x1000000) (hlow : 0x300000 ≤ n) :
    legalAccess .bits8 (BitVec.ofNat 24 n) = true :=
  legalAccess_bits8_iff.mpr (by rwa [toNat_offset hn])

/-- Every access but those of R93 is illegal: by its width, its alignment, or a place without byte lanes. -/
theorem legalAccess_eq_false
    (h : w = .bits16 ∨ w = .bits64Up ∨ w = .bits32 ∧ off.toNat % 4 ≠ 0 ∨ w = .bits8 ∧ off.toNat < 0x300000) :
    legalAccess w off = false := by
  rcases h with rfl | rfl | ⟨rfl, ha⟩ | ⟨rfl, hlow⟩
  · rfl
  · rfl
  · exact Bool.eq_false_iff.mpr (mt legalAccess_bits32_iff.mp ha)
  · exact Bool.eq_false_iff.mpr (mt legalAccess_bits8_iff.mp (by omega))

/-- A soft reset is the aligned word write to CTRL with bit 0 = 1 (R301, R362). -/
theorem isSoftReset_iff :
    isSoftReset w off v = true ↔ w = .bits32 ∧ off = 0x00000C#24 ∧ v.getLsbD 0 = true := by
  have hctrl : off.toNat = Reg.ctrl.offset ↔ off = 0x00000C#24 := BitVec.toNat_inj (y := 0x00000C#24)
  simp only [isSoftReset, Bool.and_eq_true, beq_iff_eq, hctrl, and_assoc]

/-! ### Reads -/

theorem readReply_illegal (hl : legalAccess w off = false) : readReply w off s = .busError := by
  simp only [readReply, hl, Bool.false_eq_true, if_false]

/-- A legal 32-bit read while BUSY = 0 answers what the place holds (R93). -/
theorem readReply_idle32 (hs : s.inFlight = none) (hl : legalAccess .bits32 off = true) :
    readReply .bits32 off s = .word (readPlace32 (placeOf off) s) := by
  simp only [readReply, hl, busy_of_idle hs, Bool.false_and, Bool.false_eq_true, if_true, if_false]

/-- A legal 8-bit read while BUSY = 0 answers the byte the place holds (R93). -/
theorem readReply_idle8 (hs : s.inFlight = none) (hl : legalAccess .bits8 off = true) :
    readReply .bits8 off s = .byte (readPlace8 (placeOf off) s) := by
  simp only [readReply, hl, busy_of_idle hs, Bool.false_eq_true, if_true, if_false]

/-- A host step that reads hands over the reply and changes nothing else, busy or not (R102). -/
theorem hostStep_read (hh : s.host = .read w off :: rest) :
    hostStep s = { s with
      replies := readReply w off { s with host := rest } :: s.replies, host := rest, draw := s.draw + 1 } := by
  rw [hostStep_cons hh]; rfl

theorem step_read_idle (hs : s.inFlight = none) (hh : s.host = .read w off :: rest) :
    step s = .next { s with
      replies := readReply w off { s with host := rest } :: s.replies, host := rest, draw := s.draw + 1 } := by
  rw [step_idle hs, hostStep_read hh]

/-- The step of an idle engine that reads a word. -/
theorem step_read32_idle (hs : s.inFlight = none) (hl : legalAccess .bits32 off = true)
    (hh : s.host = .read .bits32 off :: rest) :
    step s = .next { s with
      replies := .word (readPlace32 (placeOf off) { s with host := rest }) :: s.replies
      host := rest, draw := s.draw + 1 } := by
  rw [step_read_idle hs hh, readReply_idle32 (s := { s with host := rest }) hs hl]

/-- The step of an idle engine that reads a byte. -/
theorem step_read8_idle (hs : s.inFlight = none) (hl : legalAccess .bits8 off = true)
    (hh : s.host = .read .bits8 off :: rest) :
    step s = .next { s with
      replies := .byte (readPlace8 (placeOf off) { s with host := rest }) :: s.replies
      host := rest, draw := s.draw + 1 } := by
  rw [step_read_idle hs hh, readReply_idle8 (s := { s with host := rest }) hs hl]

/-- Settles O46: the host's step is the same with a command in flight, which only comes one step nearer its end. -/
theorem hostReadHasNoSideEffect : Obligations.HostReadHasNoSideEffect := by
  intro s w off rest hh
  refine ⟨fun hs => ⟨_, step_read_idle hs hh⟩, fun c k hs => ?_⟩
  rw [step_busy hs, hostStep_read (s := countDown _ _ s) hh]
  exact ⟨_, rfl⟩

/-! ### Illegal accesses -/

/-- A host step with an illegal access hands over a bus error and changes nothing else, busy or not (R94). -/
theorem hostStep_illegal (hh : s.host = .read w off :: rest ∨ s.host = .write w off v :: rest)
    (hl : legalAccess w off = false) :
    hostStep s = { s with replies := .busError :: s.replies, host := rest, draw := s.draw + 1 } := by
  rcases hh with hh | hh
  · rw [hostStep_read hh, readReply_illegal hl]
  · rw [hostStep_cons hh, hostOp, hostWrite_illegal v hl]; rfl

/-- Settles O48, by the host's step with and without a command in flight. -/
theorem illegalAccessGetsBusError : Obligations.IllegalAccessGetsBusError := by
  intro s w off v rest hh hbad
  have hl := legalAccess_eq_false hbad
  refine ⟨fun hs => ?_, fun c k hs => ?_⟩
  · rw [step_idle hs, hostStep_illegal hh hl]
  · rw [step_busy hs, hostStep_illegal (s := countDown _ _ s) hh hl]
    rfl

/-! ### Writes of an idle engine -/

/-- The step of an idle engine that writes a word. -/
theorem step_write32_idle (hs : s.inFlight = none) (hl : legalAccess .bits32 off = true)
    (hh : s.host = .write .bits32 off v :: rest) :
    step s = .next (advance (writePlace32 (placeOf off) v { s with host := rest })) := by
  rw [step_idle hs, hostStep_cons hh, hostOp, hostWrite_idle32 (s := { s with host := rest }) v hs hl]

/-- The step of an idle engine that writes a byte. -/
theorem step_write8_idle (hs : s.inFlight = none) (hl : legalAccess .bits8 off = true)
    (hh : s.host = .write .bits8 off v :: rest) :
    step s = .next (advance (writePlace8 (placeOf off) (v.extractLsb' 0 8) { s with host := rest })) := by
  rw [step_idle hs, hostStep_cons hh, hostOp, hostWrite_idle8 (s := { s with host := rest }) v hs hl]

/-! ### Reserved locations -/

/-- The place holds no element of a machine of these sizes: a reserved offset or region, or an element beyond the valid
ones (R92, R95). -/
def Place.vacant (p : Config.Params) : Place → Prop
  | .page off => regAt off = none
  | .curWindow off => p.sMax ≤ off / 4
  | .valWindow off => p.sMax ≤ off / 4
  | .reserved => True
  | .bufWindow a => p.bufBytes ≤ a

/-- The offsets of R95 lead to places that hold nothing. -/
theorem placeOf_vacant {p : Config.Params}
    (h : 0x60 ≤ off.toNat ∧ off.toNat < 0x100000 ∨ 0x100000 + 4 * p.sMax ≤ off.toNat ∧ off.toNat < 0x200000 ∨
      0x200000 + 4 * p.sMax ≤ off.toNat ∧ off.toNat < 0x800000 ∨ 0x300000 ≤ off.toNat ∧ off.toNat < 0x800000 ∨
      0x800000 + p.bufBytes ≤ off.toNat) : (placeOf off).vacant p := by
  unfold placeOf
  split_ifs with hpage hcur hval hreserved
  · exact regAt_reserved (by omega)
  · show p.sMax ≤ _; omega
  · show p.sMax ≤ _; omega
  · trivial
  · show p.bufBytes ≤ _; omega

theorem windowByte_beyond {a : Nat} (h : s.params.bufBytes ≤ a) : s.windowByte a = 0#8 := if_neg (by omega)

theorem writeWindowByte_beyond {a : Nat} (b : Byte) (h : s.params.bufBytes ≤ a) : writeWindowByte a b s = s :=
  if_neg (by omega)

theorem readPlace32_vacant {p : Place} (h : p.vacant s.params) : readPlace32 p s = 0#32 := by
  cases p with
  | page off => simp only [readPlace32, show regAt off = none from h]
  | curWindow off => exact if_neg (Nat.not_lt.mpr h)
  | valWindow off => exact if_neg (Nat.not_lt.mpr h)
  | reserved => rfl
  | bufWindow a =>
    have h : s.params.bufBytes ≤ a := h
    simp only [readPlace32, State.windowWordLE]
    rw [windowByte_beyond (a := a + 3) (by omega), windowByte_beyond (a := a + 2) (by omega),
      windowByte_beyond (a := a + 1) (by omega), windowByte_beyond h]
    rfl

theorem writePlace32_vacant {p : Place} (h : p.vacant s.params) : writePlace32 p v s = s := by
  cases p with
  | page off => simp only [writePlace32, show regAt off = none from h]
  | curWindow off => exact if_neg (Nat.not_lt.mpr h)
  | valWindow off => exact if_neg (Nat.not_lt.mpr h)
  | reserved => rfl
  | bufWindow a =>
    have h : s.params.bufBytes ≤ a := h
    simp only [writePlace32, writeWindowWordLE]
    rw [writeWindowByte_beyond (s := s) (a := a) _ h, writeWindowByte_beyond (s := s) (a := a + 1) _ (by omega),
      writeWindowByte_beyond (s := s) (a := a + 2) _ (by omega),
      writeWindowByte_beyond (s := s) (a := a + 3) _ (by omega)]

theorem readPlace8_vacant {p : Place} (h : p.vacant s.params) : readPlace8 p s = 0#8 := by
  cases p with
  | bufWindow a => exact windowByte_beyond h
  | _ => rfl

theorem writePlace8_vacant {p : Place} (b : Byte) (h : p.vacant s.params) : writePlace8 p b s = s := by
  cases p with
  | bufWindow a => exact writeWindowByte_beyond b h
  | _ => rfl

/-- Settles O49: the offsets of R95 lead to vacant places, which every access answers with 0 or leaves as they are. -/
theorem reservedLocationsReadZero : Obligations.ReservedLocationsReadZero := by
  intro s off v rest hs
  refine ⟨fun haligned hrange => ?_, fun hrange => ?_⟩
  · have hl : legalAccess .bits32 off = true := legalAccess_bits32_iff.mpr haligned
    have hp : (placeOf off).vacant s.params := placeOf_vacant (by tauto)
    refine ⟨fun hh => ?_, fun hh => ?_⟩
    · rw [step_read32_idle hs hl hh, readPlace32_vacant (s := { s with host := rest }) hp]
    · rw [step_write32_idle hs hl hh, writePlace32_vacant (s := { s with host := rest }) hp]; rfl
  · have hl : legalAccess .bits8 off = true := legalAccess_bits8_iff.mpr (by omega)
    have hp : (placeOf off).vacant s.params := placeOf_vacant (by tauto)
    refine ⟨fun hh => ?_, fun hh => ?_⟩
    · rw [step_read8_idle hs hl hh, readPlace8_vacant (s := { s with host := rest }) hp]
    · rw [step_write8_idle hs hl hh, writePlace8_vacant (s := { s with host := rest }) _ hp]; rfl

/-! ### The BUF window -/

/-- The ranges of R7 and R8. -/
theorem paramsWf_iff {p : Config.Params} :
    p.wf = true ↔ 1 ≤ p.sMax ∧ p.sMax ≤ 262144 ∧ 16 ≤ p.bufBytes ∧ p.bufBytes ≤ 8388608 := by
  simp only [Config.Params.wf, Bool.and_eq_true, decide_eq_true_eq, and_assoc]

/-- The four byte lanes of a word, least significant first (R96). -/
def lanesLE (v : Word) : List Byte := (List.range 4).map fun i => v.extractLsb' (8 * i) 8

/-- A word written at four valid bytes of BUF stores its lanes from `a` up (R96). -/
theorem writeWindowWordLE_of_le {a : Nat} (v : Word) (h : a + 4 ≤ s.params.bufBytes) :
    writeWindowWordLE a v s = { s with buf := Memory.writeAll s.buf a (lanesLE v) } := by
  unfold writeWindowWordLE writeWindowByte
  rw [if_pos (show a < s.params.bufBytes by omega), if_pos (show a + 1 < s.params.bufBytes by omega),
    if_pos (show a + 2 < s.params.bufBytes by omega), if_pos (show a + 3 < s.params.bufBytes by omega)]
  rfl

/-- Lane `i` of the word written reads back at `a + i` (R96). -/
theorem read_lanesLE {m : List Host.Cell} {a i : Nat} (hi : i < 4) :
    Memory.read (Memory.writeAll m a (lanesLE v)) (a + i) = some (v.extractLsb' (8 * i) 8) := by
  rw [Memory.read_writeAll, if_pos (by simp only [lanesLE, List.length_map, List.length_range]; omega),
    Nat.add_sub_cancel_left]
  simp [lanesLE, hi]

/-- A word written touches no byte but its four (R96). -/
theorem read_lanesLE_other {m : List Host.Cell} {a k : Nat} (hk : k < a ∨ a + 4 ≤ k) :
    Memory.read (Memory.writeAll m a (lanesLE v)) k = Memory.read m k := by
  rw [Memory.read_writeAll, if_neg (by simp only [lanesLE, List.length_map, List.length_range]; omega)]

/-- A valid byte of BUF that has been written reads as it was written. -/
theorem windowByte_of_read {a : Nat} {b : Byte} (ha : a < s.params.bufBytes) (hb : Memory.read s.buf a = some b) :
    s.windowByte a = b := by
  rw [State.windowByte, if_pos ha, State.bufByte, byteOr, hb, Option.getD_some]

/-- Four valid bytes of BUF that have been written read as a word, the lowest address least significant (R96). -/
theorem windowWordLE_of_read {a : Nat} {b3 b2 b1 b0 : Byte} (ha : a + 4 ≤ s.params.bufBytes)
    (h0 : Memory.read s.buf a = some b0) (h1 : Memory.read s.buf (a + 1) = some b1)
    (h2 : Memory.read s.buf (a + 2) = some b2) (h3 : Memory.read s.buf (a + 3) = some b3) :
    s.windowWordLE a = b3 ++ b2 ++ b1 ++ b0 := by
  rw [State.windowWordLE, windowByte_of_read (by omega) h0, windowByte_of_read (by omega) h1,
    windowByte_of_read (by omega) h2, windowByte_of_read (by omega) h3, wordOfBytes]

/-- Settles O50, by the four lanes of a word and by the one byte. -/
theorem bufWindowLanes : Obligations.BufWindowLanes := by
  intro s a v rest hs hwf
  have ⟨_, _, _, hsize⟩ := paramsWf_iff.mp hwf
  refine ⟨fun haligned hfit => ?_, fun hfit => ?_⟩
  · have hplace := placeOf_buf (n := a) (by omega)
    have hl := legalAccess_bits32_ofNat (n := 0x800000 + a) (by omega) (by omega)
    refine ⟨fun hh => ⟨Memory.writeAll s.buf a (lanesLE v), ?_, fun i => read_lanesLE, fun k => read_lanesLE_other⟩,
      fun hh b3 b2 b1 b0 h0 h1 h2 h3 => ?_⟩
    · rw [step_write32_idle hs hl hh, hplace, writePlace32,
        writeWindowWordLE_of_le (s := { s with host := rest }) v hfit]
      rfl
    · rw [step_read32_idle hs hl hh, hplace, readPlace32,
        windowWordLE_of_read (s := { s with host := rest }) hfit h0 h1 h2 h3]
  · have hplace := placeOf_buf (n := a) (by omega)
    have hl := legalAccess_bits8_ofNat (n := 0x800000 + a) (by omega) (by omega)
    refine ⟨fun hh => ⟨Memory.write s.buf a (v.extractLsb' 0 8), ?_, Memory.read_write_same _ _ _,
      fun k => Memory.read_write_other _ _ _ _⟩, fun hh b hb => ?_⟩
    · rw [step_write8_idle hs hl hh, hplace, writePlace8, writeWindowByte, if_pos hfit]
      rfl
    · rw [step_read8_idle hs hl hh, hplace, readPlace8, windowByte_of_read (s := { s with host := rest }) hfit hb]

/-! ### The CUR and VAL windows -/

/-- A word of CUR is at four times its index in the window (R92). -/
theorem readPlace32_cur {i : Nat} (hi : i < s.params.sMax) (hv : Memory.read s.cur i = some v) :
    readPlace32 (.curWindow (4 * i)) s = v := by
  rw [readPlace32, Nat.mul_div_cancel_left i (by decide), if_pos hi, State.curWord, hv, Option.getD_some]

theorem readPlace32_val {i : Nat} (hi : i < s.params.sMax) (hv : Memory.read s.val i = some v) :
    readPlace32 (.valWindow (4 * i)) s = v := by
  rw [readPlace32, Nat.mul_div_cancel_left i (by decide), if_pos hi, State.valWord, hv, Option.getD_some]

theorem writePlace32_cur {i : Nat} (hi : i < s.params.sMax) :
    writePlace32 (.curWindow (4 * i)) v s = { s with cur := Memory.write s.cur i v } := by
  rw [writePlace32, Nat.mul_div_cancel_left i (by decide), if_pos hi]

theorem writePlace32_val {i : Nat} (hi : i < s.params.sMax) :
    writePlace32 (.valWindow (4 * i)) v s = { s with val := Memory.write s.val i v } := by
  rw [writePlace32, Nat.mul_div_cancel_left i (by decide), if_pos hi]

/-- Settles O51, by the place of each window's word. -/
theorem symbolWindowsHoldWords : Obligations.SymbolWindowsHoldWords := by
  intro s i v rest hs hwf hi
  have ⟨_, hsize, _, _⟩ := paramsWf_iff.mp hwf
  have hcur := placeOf_cur (n := 4 * i) (by omega)
  have hval := placeOf_val (n := 4 * i) (by omega)
  have hlcur := legalAccess_bits32_ofNat (n := 0x100000 + 4 * i) (by omega) (by omega)
  have hlval := legalAccess_bits32_ofNat (n := 0x200000 + 4 * i) (by omega) (by omega)
  refine ⟨fun hh => ⟨Memory.write s.cur i v, ?_, fun k => Memory.read_write _ _ _ _⟩,
    fun hh => ⟨Memory.write s.val i v, ?_, fun k => Memory.read_write _ _ _ _⟩, fun hh hv => ?_, fun hh hv => ?_⟩
  · rw [step_write32_idle hs hlcur hh, hcur, writePlace32_cur (s := { s with host := rest }) hi]; rfl
  · rw [step_write32_idle hs hlval hh, hval, writePlace32_val (s := { s with host := rest }) hi]; rfl
  · rw [step_read32_idle hs hlcur hh, hcur, readPlace32_cur (s := { s with host := rest }) hi hv]
  · rw [step_read32_idle hs hlval hh, hval, readPlace32_val (s := { s with host := rest }) hi hv]

/-! ### While a command is in flight -/

/-- What the host can do to a busy engine: leave it, but for OVERRUN, the replies and its own operations to come, or
reset it (R301, R363). -/
theorem hostStep_busy (hb : s.busy = true) :
    (∃ o h r, hostStep s = { s with overrun := o, host := h, replies := r, draw := s.draw + 1 }) ∨
    (∃ v rest, s.host = .write .bits32 0x00000C#24 v :: rest ∧ v.getLsbD 0 = true ∧
      hostStep s = advance (softReset { s with host := rest })) := by
  match hh : s.host with
  | [] => exact .inl ⟨s.overrun, s.host, s.replies, hostStep_ended hh⟩
  | .read w off :: rest => exact .inl ⟨s.overrun, rest, _, hostStep_read hh⟩
  | .wait :: rest =>
    exact .inl ⟨s.overrun, s.host, s.replies, by rw [hostStep_cons hh, hostOp, if_pos hb]; rfl⟩
  | .awaitIrq :: rest =>
    rw [hostStep_cons hh, hostOp]
    split
    · exact .inl ⟨s.overrun, rest, s.replies, rfl⟩
    · exact .inl ⟨s.overrun, s.host, s.replies, rfl⟩
  | .write w off v :: rest =>
    rw [hostStep_cons hh, hostOp]
    rcases hostWrite_busy (s := { s with host := rest }) w off v hb with ⟨_, he⟩ | ⟨_, _, he⟩ | ⟨hreset, he⟩ <;> rw [he]
    · exact .inl ⟨s.overrun, rest, .busError :: s.replies, rfl⟩
    · exact .inl ⟨true, rest, s.replies, rfl⟩
    · obtain ⟨rfl, rfl, hv⟩ := isSoftReset_iff.mp hreset
      exact .inr ⟨v, rest, rfl, hv, rfl⟩

/-- Settles O43: the host's step of the engine whose command is one step nearer its end. -/
theorem inputFixedWhileBusy : Obligations.InputFixedWhileBusy := by
  intro s t c k hs hstep
  rw [step_busy hs] at hstep
  cases hstep
  rcases hostStep_busy (s := countDown ⟨c, k + 1⟩ k s) rfl with ⟨o, h, r, he⟩ | ⟨v, rest, hh, hv, he⟩ <;> rw [he]
  · exact .inl rfl
  · exact .inr ⟨v, rest, hh, hv, rfl⟩

end Sys2Proof.Machine
end

section
/-! PROOFS. Words of CUR and VAL at NSYM and above (R100, R241): no command writes one, and two states that differ only
in such words go through every command alike. -/

namespace Sys2Proof.Machine

variable {s s' t u u' : State} {n : Nat}

/-! ### Never written -/

/-- Words written from index 0 up leave every word beyond them as it was. -/
theorem Memory.read_writeAll_beyond {α : Type} {m : List (Nat × α)} {vs : List α} {k : Nat} (h : vs.length ≤ k) :
    Memory.read (Memory.writeAll m 0 vs) k = Memory.read m k := by
  rw [Memory.read_writeAll, if_neg (by omega)]

/-- No command writes CUR, and each that writes VAL writes as many words as there are symbols (R100, R308). -/
theorem exec_keeps_words {i : Instr} (hx : exec i s = .next t) :
    t.cur = s.cur ∧ ∀ k, s.symbols ≤ k → Memory.read t.val k = Memory.read s.val k := by
  cases i with
  | nop => rw [execNop_cases hx]; exact ⟨rfl, fun _ _ => rfl⟩
  | crcInit => rw [execCrcInit_cases hx]; exact ⟨rfl, fun _ _ => rfl⟩
  | crcByte b => rw [execCrcByte_cases hx]; exact ⟨rfl, fun _ _ => rfl⟩
  | analyze => rw [execAnalyze_cases hx]; exact ⟨rfl, fun _ _ => rfl⟩
  | crcRange => rcases execCrcRange_cases hx with ⟨_, rfl⟩ | ⟨_, rfl⟩ <;> exact ⟨rfl, fun _ _ => rfl⟩
  | crcCheck layer =>
    rcases execCrcCheck_cases hx with ⟨_, _, _, rfl⟩ | ⟨_, _, _, rfl⟩ | ⟨_, _, rfl⟩ | ⟨_, rfl⟩ <;>
      exact ⟨rfl, fun _ _ => rfl⟩
  | crcEmit => rcases execCrcEmit_cases hx with ⟨_, rfl⟩ | ⟨_, rfl⟩ <;> exact ⟨rfl, fun _ _ => rfl⟩
  | wbits w =>
    rcases execWbits_cases hx with ⟨_, _, rfl⟩ | ⟨_, _, rfl⟩ | ⟨_, rfl⟩ <;> exact ⟨rfl, fun _ _ => rfl⟩
  | rbits w =>
    rcases execRbits_cases hx with ⟨_, _, rfl⟩ | ⟨_, _, rfl⟩ | ⟨_, rfl⟩ <;> exact ⟨rfl, fun _ _ => rfl⟩
  | wflush => rcases execWflush_cases hx with ⟨_, rfl⟩ | ⟨_, rfl⟩ <;> exact ⟨rfl, fun _ _ => rfl⟩
  | ralign => rcases execRalign_cases hx with ⟨_, rfl⟩ | ⟨_, rfl⟩ <;> exact ⟨rfl, fun _ _ => rfl⟩
  | refCapture =>
    rcases execRefCapture_cases hx with ⟨_, _, rfl⟩ | ⟨_, _, rfl⟩ | ⟨_, rfl⟩
    · exact ⟨rfl, fun k hk => Memory.read_writeAll_beyond ((curWords_length s 1).trans_le hk)⟩
    all_goals exact ⟨rfl, fun _ _ => rfl⟩
  | refLoad =>
    rcases execRefLoad_cases hx with ⟨_, _, rfl⟩ | ⟨_, _, rfl⟩ | ⟨_, rfl⟩
    · exact ⟨rfl, fun k hk => Memory.read_writeAll_beyond (by simpa using hk)⟩
    all_goals exact ⟨rfl, fun _ _ => rfl⟩
  | encTick =>
    rcases execEncTick_cases hx with ⟨_, _, rfl⟩ | ⟨_, _, rfl⟩ | ⟨_, rfl⟩
    · exact ⟨rfl, fun k hk => Memory.read_writeAll_beyond ((curWords_length s 3).trans_le hk)⟩
    all_goals exact ⟨rfl, fun _ _ => rfl⟩
  | decTick =>
    rcases execDecTick_cases hx with ⟨_, d, _, hlen, _, _, _, rfl⟩ | ⟨_, e, _, _, rfl⟩ | ⟨_, rfl⟩
    · exact ⟨rfl, fun k hk => Memory.read_writeAll_beyond (hlen.trans_le hk)⟩
    all_goals exact ⟨rfl, fun _ _ => rfl⟩

/-! ### States that agree below an index -/

/-- The second state is the first but for its words of CUR and VAL, which agree below index `n`. -/
def AgreesBelow (n : Nat) (s s' : State) : Prop :=
  ∃ c v, s' = { s with cur := c, val := v } ∧
    ∀ k, k < n → Memory.read c k = Memory.read s.cur k ∧ Memory.read v k = Memory.read s.val k

theorem Memory.read_writeAll_congr {α : Type} {m m' : List (Nat × α)} {vs : List α} {j k : Nat}
    (h : Memory.read m k = Memory.read m' k) :
    Memory.read (Memory.writeAll m j vs) k = Memory.read (Memory.writeAll m' j vs) k := by
  rw [Memory.read_writeAll, Memory.read_writeAll, h]

/-- The same words written to both from VAL[0] up keep the agreement. -/
theorem words_agree_writeAll {c v : List (Nat × Word)} (vs : List Word)
    (h : ∀ k, k < n → Memory.read c k = Memory.read s.cur k ∧ Memory.read v k = Memory.read s.val k) :
    ∀ k, k < n → Memory.read c k = Memory.read s.cur k ∧
      Memory.read (Memory.writeAll v 0 vs) k = Memory.read (Memory.writeAll s.val 0 vs) k :=
  fun k hk => ⟨(h k hk).1, Memory.read_writeAll_congr (h k hk).2⟩

namespace AgreesBelow

/-! What the two states have in common: each register a symbol command reads, the stream, and the words below `n`. -/

theorem symbols (h : AgreesBelow n s s') : s'.symbols = s.symbols := by obtain ⟨_, _, rfl, _⟩ := h; rfl

theorem wptr (h : AgreesBelow n s s') : s'.wptr = s.wptr := by obtain ⟨_, _, rfl, _⟩ := h; rfl

theorem t4 (h : AgreesBelow n s s') : s'.t4 = s.t4 := by obtain ⟨_, _, rfl, _⟩ := h; rfl

theorem t8 (h : AgreesBelow n s s') : s'.t8 = s.t8 := by obtain ⟨_, _, rfl, _⟩ := h; rfl

theorem getBits (h : AgreesBelow n s s') : s'.getBits = s.getBits := by obtain ⟨_, _, rfl, _⟩ := h; rfl

theorem curWord (h : AgreesBelow n s s') {i : Nat} (hi : i < n) (mention : Nat) :
    s'.curWord mention i = s.curWord mention i := by
  obtain ⟨_, _, rfl, hwords⟩ := h
  rw [State.curWord, State.curWord, (hwords i hi).1]

theorem valWord (h : AgreesBelow n s s') {i : Nat} (hi : i < n) (mention : Nat) :
    s'.valWord mention i = s.valWord mention i := by
  obtain ⟨_, _, rfl, hwords⟩ := h
  rw [State.valWord, State.valWord, (hwords i hi).2]

/-! The operands of the encoder and of REF_CAPTURE. -/

theorem curWords (h : AgreesBelow s.symbols s s') (mention : Nat) : s'.curWords mention = s.curWords mention := by
  rw [State.curWords, State.curWords, h.symbols]
  exact List.map_congr_left fun i hi => h.curWord (List.mem_range.mp hi) mention

theorem frameBits (h : AgreesBelow s.symbols s s') : s'.frameBits = s.frameBits := by
  rw [State.frameBits, State.frameBits, h.curWords]

theorem changed (h : AgreesBelow n s s') {i : Nat} (hi : i < n) : s'.changed i = s.changed i := by
  rw [State.changed, State.changed, h.curWord hi, h.valWord hi]

theorem symbolDelta (h : AgreesBelow n s s') {i : Nat} (hi : i < n) : s'.symbolDelta i = s.symbolDelta i := by
  rw [State.symbolDelta, State.symbolDelta, h.curWord hi, h.valWord hi]

theorem symbolTier (h : AgreesBelow n s s') {i : Nat} (hi : i < n) : s'.symbolTier i = s.symbolTier i := by
  rw [State.symbolTier, State.symbolTier, h.t4, h.t8, h.symbolDelta hi]

theorem payload (h : AgreesBelow n s s') {i : Nat} (hi : i < n) : s'.payload i = s.payload i := by
  rw [State.payload, State.payload, h.symbolTier hi, h.symbolDelta hi, h.curWord hi]

theorem tieredField (h : AgreesBelow n s s') {i : Nat} (hi : i < n) : s'.tieredField i = s.tieredField i := by
  rw [State.tieredField, State.tieredField, h.changed hi, h.symbolTier hi, h.payload hi]

/-- The padding bits of the bitmap are 0 in both (R151). -/
theorem bitmap (h : AgreesBelow s.symbols s s') : s'.bitmap = s.bitmap := by
  rw [State.bitmap, State.bitmap, h.symbols]
  refine List.map_congr_left fun i _ => ?_
  by_cases hi : i < s.symbols
  · rw [h.changed hi]
  · rw [decide_eq_false hi, Bool.false_and, Bool.false_and]

theorem tickBody (h : AgreesBelow s.symbols s s') : s'.tickBody = s.tickBody := by
  have hfields : (List.range s.symbols).flatMap s'.tieredField = (List.range s.symbols).flatMap s.tieredField :=
    List.flatMap_congr fun i hi => h.tieredField (List.mem_range.mp hi)
  rw [State.tickBody, State.tickBody, h.bitmap, h.symbols, hfields]

theorem tickRecord (h : AgreesBelow s.symbols s s') : s'.tickRecord = s.tickRecord := by
  rw [State.tickRecord, State.tickRecord, h.tickBody, h.wptr]

theorem changedCount (h : AgreesBelow s.symbols s s') : s'.changedCount = s.changedCount := by
  rw [State.changedCount, State.changedCount, h.symbols]
  exact List.countP_congr fun i hi => by rw [h.changed (List.mem_range.mp hi)]

/-! The loops of REF_LOAD and DEC_TICK. -/

theorem loadFrame (h : AgreesBelow n s s') (m i rp : Nat) : s'.loadFrame m i rp = s.loadFrame m i rp := by
  induction m generalizing i rp with
  | zero => rfl
  | succ m ih => simp only [State.loadFrame, h.getBits, ih]

theorem decodeSymbol (h : AgreesBelow n s s') {i : Nat} (hi : i < n) (rp : Nat) :
    s'.decodeSymbol i rp = s.decodeSymbol i rp := by
  simp only [State.decodeSymbol, h.getBits, h.valWord hi]

/-- The loop over the bitmap reads VAL only at the symbols of its bits. -/
theorem decodeSymbols (h : AgreesBelow n s s') (bits : List Bool) (i rp : Nat) (hi : i + bits.length ≤ n) :
    s'.decodeSymbols bits i rp = s.decodeSymbols bits i rp := by
  induction bits generalizing i rp with
  | nil => rfl
  | cons b rest ih =>
    rw [List.length_cons] at hi
    have hrest : ∀ rp, s'.decodeSymbols rest (i + 1) rp = s.decodeSymbols rest (i + 1) rp :=
      fun rp => ih (i + 1) rp (by omega)
    cases b with
    | false => simp only [State.decodeSymbols, hrest, h.valWord (show i < n by omega)]
    | true => simp only [State.decodeSymbols, hrest, h.decodeSymbol (show i < n by omega)]

theorem decodeRecord (h : AgreesBelow s.symbols s s') : s'.decodeRecord = s.decodeRecord := by
  have hloop := h.decodeSymbols (getBitList s.draw s.buf s.rptr.toNat s.symbols) 0
    (s.rptr.toNat + bitmapBits s.symbols) (by simp)
  obtain ⟨_, _, rfl, _⟩ := h
  rw [State.decodeRecord, State.decodeRecord, ← hloop]
  rfl

end AgreesBelow

/-! ### Never read -/

/-- What two commands computed: both the same error, or successes that agree below `n`. -/
def ResultsAgree (n : Nat) (r r' : Except CmdError State) : Prop :=
  (∃ u u', r = .ok u ∧ r' = .ok u' ∧ AgreesBelow n u u') ∨ ∃ e, r = .error e ∧ r' = .error e

theorem ResultsAgree.ok (h : AgreesBelow n u u') : ResultsAgree n (.ok u) (.ok u') := .inl ⟨u, u', rfl, rfl, h⟩

theorem ResultsAgree.error (e : CmdError) : ResultsAgree n (.error e) (.error e) := .inr ⟨e, rfl, rfl⟩

/-- A check that both pass or both fail keeps the agreement. -/
theorem ResultsAgree.check {p : Prop} [Decidable p] {r r' : Except CmdError State} (e : CmdError)
    (h : ResultsAgree n r r') : ResultsAgree n (if p then r else .error e) (if p then r' else .error e) := by
  split
  · exact h
  · exact .error e

/-- The check of NSYM comes out the same in both (R45). -/
theorem AgreesBelow.whenNsymLegal (h : AgreesBelow n s s') {r r' : Except CmdError State} (hr : ResultsAgree n r r') :
    ResultsAgree n (whenNsymLegal s r) (whenNsymLegal s' r') := by
  obtain ⟨_, _, rfl, _⟩ := h
  exact hr.check _

/-- The stream's writer neither reads nor writes CUR and VAL (R183). -/
theorem append_setWords (bits : List Bool) (c v : List (Nat × Word)) :
    ({ s with cur := c, val := v } : State).append bits
      = (s.append bits).map fun u => { u with cur := c, val := v } := by
  rcases append_cases (s := s) (bits := bits) with ⟨hle, ha⟩ | ⟨hlt, ha⟩ <;> rw [ha]
  · exact if_pos hle
  · exact if_neg (Nat.not_le.mpr hlt)

/-- Completion keeps the agreement, of a success and of an error alike (R302). -/
theorem AgreesBelow.complete (h : AgreesBelow n s s') {r r' : Except CmdError State} (hr : ResultsAgree n r r')
    (hx : complete s r = .next t) : ∃ t', complete s' r' = .next t' ∧ AgreesBelow n t t' := by
  rcases hr with ⟨u, u', rfl, rfl, c, v, rfl, hwords⟩ | ⟨e, rfl, rfl⟩
  · cases hx
    exact ⟨_, rfl, c, v, rfl, hwords⟩
  · cases hx
    obtain ⟨c, v, rfl, hwords⟩ := h
    exact ⟨_, rfl, c, v, rfl, hwords⟩

/-! The symbol commands: from the same operands they put the same words into VAL. -/

theorem execRefCapture_agrees (h : AgreesBelow s.symbols s s') (hx : execRefCapture s = .next t) :
    ∃ t', execRefCapture s' = .next t' ∧ AgreesBelow s.symbols t t' := by
  refine h.complete (h.whenNsymLegal ?_) hx
  rw [h.frameBits, h.curWords]
  obtain ⟨c, v, rfl, hwords⟩ := h
  rw [append_setWords _ c v]
  rcases append_cases (s := s) (bits := s.frameBits) with ⟨_, ha⟩ | ⟨_, ha⟩ <;> rw [ha]
  · exact .ok ⟨c, _, rfl, words_agree_writeAll _ hwords⟩
  · exact .error _

theorem execRefLoad_agrees (h : AgreesBelow s.symbols s s') (hx : execRefLoad s = .next t) :
    ∃ t', execRefLoad s' = .next t' ∧ AgreesBelow s.symbols t t' := by
  refine h.complete (h.whenNsymLegal ?_) hx
  rw [h.loadFrame, h.symbols]
  obtain ⟨c, v, rfl, hwords⟩ := h
  cases s.loadFrame s.symbols 0 s.rptr.toNat with
  | ok d => exact .ok ⟨c, _, rfl, words_agree_writeAll _ hwords⟩
  | error e => exact .error e

theorem execEncTick_agrees (h : AgreesBelow s.symbols s s') (hx : execEncTick s = .next t) :
    ∃ t', execEncTick s' = .next t' ∧ AgreesBelow s.symbols t t' := by
  refine h.complete (h.whenNsymLegal ?_) hx
  rw [h.tickRecord, h.curWords, h.changedCount]
  obtain ⟨c, v, rfl, hwords⟩ := h
  rw [append_setWords _ c v]
  rcases append_cases (s := s) (bits := s.tickRecord) with ⟨_, ha⟩ | ⟨_, ha⟩ <;> rw [ha]
  · exact .ok ⟨c, _, rfl, words_agree_writeAll _ hwords⟩
  · exact .error _

theorem execDecTick_agrees (h : AgreesBelow s.symbols s s') (hx : execDecTick s = .next t) :
    ∃ t', execDecTick s' = .next t' ∧ AgreesBelow s.symbols t t' := by
  refine h.complete (h.whenNsymLegal ?_) hx
  rw [h.decodeRecord]
  obtain ⟨c, v, rfl, hwords⟩ := h
  cases s.decodeRecord with
  | ok d => exact .ok ⟨c, _, rfl, words_agree_writeAll _ hwords⟩
  | error e => exact .error e

/-- Two states that agree below NSYM go through a command alike: a symbol command finds the same operands, and the
others name no word of CUR or VAL at all. -/
theorem exec_agrees {i : Instr} (h : AgreesBelow s.symbols s s') (hx : exec i s = .next t) :
    ∃ t', exec i s' = .next t' ∧ AgreesBelow s.symbols t t' := by
  cases i with
  | refCapture => exact execRefCapture_agrees h hx
  | refLoad => exact execRefLoad_agrees h hx
  | encTick => exact execEncTick_agrees h hx
  | decTick => exact execDecTick_agrees h hx
  | nop | crcInit | crcByte | analyze =>
    obtain ⟨c, v, rfl, hwords⟩ := h
    cases hx
    exact ⟨_, rfl, c, v, rfl, hwords⟩
  | crcRange | crcEmit | ralign | wflush =>
    refine h.complete ?_ hx
    obtain ⟨c, v, rfl, hwords⟩ := h
    exact .check _ (.ok ⟨c, v, rfl, hwords⟩)
  | wbits width =>
    refine h.complete ?_ hx
    obtain ⟨c, v, rfl, hwords⟩ := h
    exact .check _ (.check _ (.ok ⟨c, v, rfl, hwords⟩))
  | crcCheck layer =>
    refine h.complete ?_ hx
    obtain ⟨c, v, rfl, hwords⟩ := h
    exact .check _ (.check _ (.check _ (.ok ⟨c, v, rfl, hwords⟩)))
  | rbits width =>
    refine h.complete ?_ hx
    rw [h.getBits]
    obtain ⟨c, v, rfl, hwords⟩ := h
    refine .check _ ?_
    cases s.getBits s.rptr.toNat width.toNat noSymbol with
    | ok r => exact .ok ⟨c, v, rfl, hwords⟩
    | error e => exact .error e

/-- Settles O13: the frame of the words written, and the agreement of two runs of the command. -/
theorem wordsAtNsymAndAboveUntouched : Obligations.WordsAtNsymAndAboveUntouched := by
  refine ⟨fun i s t k hx hk => ?_, fun i s t cur' val' hagree hx => ?_⟩
  · obtain ⟨hcur, hval⟩ := exec_keeps_words hx
    exact ⟨hval k hk, by rw [hcur]⟩
  · obtain ⟨_, hx', c, v, rfl, hwords⟩ := exec_agrees ⟨cur', val', rfl, hagree⟩ hx
    obtain rfl : c = cur' := (exec_keeps_words hx').1
    exact ⟨v, hx', fun k hk => (hwords k hk).2⟩

end Sys2Proof.Machine
end

section
/-! PROOFS. Command words (30_encoding.md R131 to R138): the fields of a command's word, decode and encode as inverses of
each other, and the legal words as the words that are decoded. -/

namespace Sys2Proof

variable {c : Word}

/-! ### A field put into a word -/

/-- A field shifted to its place reads back whole. -/
theorem extract_placed_same {n : Nat} (f : BitVec n) (k : Nat) (h : k + n ≤ 32) :
    (f.setWidth 32 <<< k).extractLsb' k n = f := by
  ext j hj
  have : k + j < 32 := by omega
  simp [this, BitVec.getLsbD_eq_getElem hj]

/-- A field shifted to its place leaves every place beside it 0. -/
theorem extract_placed_beside {n : Nat} (f : BitVec n) (k j m : Nat) (h : j + m ≤ k ∨ k + n ≤ j) :
    (f.setWidth 32 <<< k).extractLsb' j m = 0#m := by
  ext b hb
  rcases h with h | h
  · have : j + b < k := by omega
    simp [this]
  · have : n ≤ j + b - k := by omega
    simp [BitVec.getLsbD_of_ge f _ this]

/-- A word that matches a row which leaves one field free is the row's word with that field put in. -/
theorem match_or_field {mask v : Word} (k n : Nat) (hmask : mask = ~~~((BitVec.allOnes n).setWidth 32 <<< k))
    (h : c &&& mask = v) : v ||| (c.extractLsb' k n).setWidth 32 <<< k = c := by
  subst h hmask
  ext j hj
  by_cases hk : j < k
  · simp [hk]
  · have hplace : k + (j - k) = j := by omega
    by_cases hn : j - k < n <;> simp [hj, hk, hn, hplace]

/-! ### The fields of a command's word -/

/-- OPCODE of a command (R137). -/
def Instr.opcode : Instr → BitVec 8
  | .nop => 0x00#8
  | .crcInit => 0x01#8
  | .crcByte _ => 0x02#8
  | .crcRange => 0x03#8
  | .crcCheck _ => 0x04#8
  | .crcEmit => 0x05#8
  | .refCapture => 0x10#8
  | .refLoad => 0x11#8
  | .encTick => 0x12#8
  | .decTick => 0x13#8
  | .analyze => 0x20#8
  | .wbits _ => 0x30#8
  | .rbits _ => 0x31#8
  | .wflush => 0x32#8
  | .ralign => 0x33#8

/-- IMM8 of a command, 0 where it is not used (R135, R136). -/
def Instr.imm8 : Instr → BitVec 8
  | .crcByte imm8 => imm8
  | _ => 0#8

/-- WIDTH of a command, 0 where it is not used (R134, R136). -/
def Instr.width : Instr → BitVec 6
  | .wbits width => width
  | .rbits width => width
  | _ => 0#6

/-- LAYER of a command, 0 where it is not used (R133, R136). -/
def Instr.layer : Instr → BitVec 2
  | .crcCheck layer => layer
  | _ => 0#2

/-- The five fields of a word are those of a command (R131, R136). -/
structure HasFields (c : Word) (i : Instr) : Prop where
  reserved : reservedField c = 0#8
  imm8 : imm8Field c = i.imm8
  width : widthField c = i.width
  layer : layerField c = i.layer
  opcode : opcodeField c = i.opcode

/-- `encode` puts every field in its place. -/
theorem encode_hasFields (i : Instr) : HasFields (encode i) i := by
  cases i with
  | crcByte | crcCheck | wbits | rbits =>
    constructor <;>
      simp [encode, reservedField, imm8Field, widthField, layerField, opcodeField, BitVec.extractLsb'_or,
        extract_placed_same, extract_placed_beside, Instr.imm8, Instr.width, Instr.layer, Instr.opcode]
  | _ => exact ⟨rfl, rfl, rfl, rfl, rfl⟩

/-- A command's fields determine its word. -/
theorem HasFields.encode_eq {i : Instr} (h : HasFields c i) : encode i = c := by
  have hi := encode_hasFields i
  rw [word_eq_fields c, word_eq_fields (encode i), h.reserved, h.imm8, h.width, h.layer, h.opcode, hi.reserved, hi.imm8,
    hi.width, hi.layer, hi.opcode]

/-! ### Decode and encode -/

/-- The word of a well-formed command decodes to the command. -/
theorem decode_encode {i : Instr} (h : i.wellFormed = true) : decode (encode i) = .ok i := by
  have hf := encode_hasFields i
  cases i with
  | crcByte imm8 =>
    rw [decode, hf.opcode]
    exact whenUnusedZero_eq_ok.mpr ⟨hf.reserved, by rw [hf.layer, hf.width]; rfl, by rw [hf.imm8]; rfl⟩
  | crcCheck layer =>
    rw [decode, hf.opcode]
    refine whenUnusedZero_eq_ok.mpr ⟨hf.reserved, by rw [hf.width, hf.imm8]; rfl, ?_⟩
    rw [hf.layer]
    exact if_pos h
  | wbits width =>
    rw [decode, hf.opcode]
    exact widthCommand_eq_ok.mpr ⟨hf.reserved, hf.imm8, hf.layer, hf.width ▸ h, congrArg _ hf.width⟩
  | rbits width =>
    rw [decode, hf.opcode]
    exact widthCommand_eq_ok.mpr ⟨hf.reserved, hf.imm8, hf.layer, hf.width ▸ h, congrArg _ hf.width⟩
  | _ => rfl

/-- What `plainCommand` reads is its command, with the word's fields. -/
theorem fields_of_plainCommand {i j : Instr} (ho : (opcodeField c).toNat = i.opcode.toNat)
    (hi : i.wellFormed = true ∧ i.imm8 = 0#8 ∧ i.width = 0#6 ∧ i.layer = 0#2) (h : plainCommand c i = .ok j) :
    j.wellFormed = true ∧ HasFields c j := by
  obtain ⟨hr, hm, hw, hl, rfl⟩ := plainCommand_eq_ok.mp h
  obtain ⟨hwf, himm8, hwidth, hlayer⟩ := hi
  exact ⟨hwf, hr, hm.trans himm8.symm, hw.trans hwidth.symm, hl.trans hlayer.symm, BitVec.eq_of_toNat_eq ho⟩

/-- What `widthCommand` reads is its command with the word's WIDTH, in range. -/
theorem fields_of_widthCommand {f : BitVec 6 → Instr} {j : Instr}
    (ho : (opcodeField c).toNat = (f (widthField c)).opcode.toNat)
    (hf : ∀ w, (f w).wellFormed = widthLegal w ∧ (f w).imm8 = 0#8 ∧ (f w).width = w ∧ (f w).layer = 0#2)
    (h : widthCommand c f = .ok j) : j.wellFormed = true ∧ HasFields c j := by
  obtain ⟨hr, hm, hl, hlegal, rfl⟩ := widthCommand_eq_ok.mp h
  obtain ⟨hwf, himm8, hwidth, hlayer⟩ := hf (widthField c)
  exact ⟨hwf.trans hlegal, hr, hm.trans himm8.symm, hwidth.symm, hl.trans hlayer.symm, BitVec.eq_of_toNat_eq ho⟩

/-- A word that decodes to a command has the command's fields, and they are in range. -/
theorem fields_of_decode {i : Instr} (h : decode c = .ok i) : i.wellFormed = true ∧ HasFields c i := by
  unfold decode at h
  split at h
  case h_3 ho =>
    obtain ⟨hr, hz, hi⟩ := whenUnusedZero_eq_ok.mp h
    cases hi
    simp only [Bool.and_eq_true, beq_iff_eq] at hz
    exact ⟨rfl, hr, rfl, hz.2, hz.1, BitVec.eq_of_toNat_eq ho⟩
  case h_5 ho =>
    obtain ⟨hr, hz, hi⟩ := whenUnusedZero_eq_ok.mp h
    simp only [Bool.and_eq_true, beq_iff_eq] at hz
    split at hi
    next hl =>
      cases hi
      exact ⟨hl, hr, hz.2, hz.1, rfl, BitVec.eq_of_toNat_eq ho⟩
    next => cases hi
  case h_12 ho => exact fields_of_widthCommand (f := .wbits) ho (fun _ => ⟨rfl, rfl, rfl, rfl⟩) h
  case h_13 ho => exact fields_of_widthCommand (f := .rbits) ho (fun _ => ⟨rfl, rfl, rfl, rfl⟩) h
  case h_16 => cases h
  all_goals exact fields_of_plainCommand ‹_› ⟨rfl, rfl, rfl, rfl⟩ h

/-- Settles O1: each word that decodes has its command's fields, which determine the command's word. -/
theorem decodeInvertsEncode : Obligations.DecodeInvertsEncode := by
  intro i c
  constructor
  · intro h
    obtain ⟨hwf, hf⟩ := fields_of_decode h
    exact ⟨hwf, hf.encode_eq⟩
  · rintro ⟨hwf, rfl⟩
    exact decode_encode hwf

/-- Settles O3: each word is the word of its command. -/
theorem sampleWordsDecode : Obligations.SampleWordsDecode :=
  ⟨decode_encode (i := .crcByte 0x31#8) rfl, decode_encode (i := .crcCheck 1#2) rfl, decode_encode (i := .wbits 32#6) rfl,
    decode_encode (i := .rbits 4#6) rfl, decode_encode (i := .encTick) rfl, decode_encode (i := .analyze) rfl,
    decode_encode (i := .nop) rfl⟩

/-! ### The legal words -/

/-- The word of every command matches its row, and is legal exactly when the fields are in range (R137, R138). -/
theorem encodesItsRow (i : Instr) : Laws.EncodesItsRow.Statement i :=
  match i with
  | .nop => Laws.EncodesItsRow.nop
  | .crcInit => Laws.EncodesItsRow.crcInit
  | .crcByte imm8 => Laws.EncodesItsRow.crcByte imm8
  | .crcRange => Laws.EncodesItsRow.crcRange
  | .crcCheck layer => Laws.EncodesItsRow.crcCheck layer
  | .crcEmit => Laws.EncodesItsRow.crcEmit
  | .refCapture => Laws.EncodesItsRow.refCapture
  | .refLoad => Laws.EncodesItsRow.refLoad
  | .encTick => Laws.EncodesItsRow.encTick
  | .decTick => Laws.EncodesItsRow.decTick
  | .analyze => Laws.EncodesItsRow.analyze
  | .wbits width => Laws.EncodesItsRow.wbits width
  | .rbits width => Laws.EncodesItsRow.rbits width
  | .wflush => Laws.EncodesItsRow.wflush
  | .ralign => Laws.EncodesItsRow.ralign

/-- A row that leaves no bit free matches one word. -/
theorem eq_of_match_all {v : Word} (h : c &&& 0xFFFFFFFF#32 = v) : v = c := by
  rw [← h]; exact BitVec.and_allOnes

/-- A word that matches a row of R137 is a command's word, with the free field of the row at any value. -/
theorem exists_encode_of_row {r : Word × Word} (hr : r ∈ Machine.commandRows) (hc : c &&& r.1 = r.2) :
    ∃ i, encode i = c := by
  simp only [Machine.commandRows, List.mem_cons, List.not_mem_nil, or_false] at hr
  rcases hr with rfl | rfl | rfl | rfl | rfl | rfl | rfl | rfl | rfl | rfl | rfl | rfl | rfl | rfl | rfl
  · exact ⟨.nop, eq_of_match_all hc⟩
  · exact ⟨.crcInit, eq_of_match_all hc⟩
  · exact ⟨.crcByte (imm8Field c), match_or_field 16 8 rfl hc⟩
  · exact ⟨.crcRange, eq_of_match_all hc⟩
  · exact ⟨.crcCheck (layerField c), match_or_field 8 2 rfl hc⟩
  · exact ⟨.crcEmit, eq_of_match_all hc⟩
  · exact ⟨.refCapture, eq_of_match_all hc⟩
  · exact ⟨.refLoad, eq_of_match_all hc⟩
  · exact ⟨.encTick, eq_of_match_all hc⟩
  · exact ⟨.decTick, eq_of_match_all hc⟩
  · exact ⟨.analyze, eq_of_match_all hc⟩
  · exact ⟨.wbits (widthField c), match_or_field 10 6 rfl hc⟩
  · exact ⟨.rbits (widthField c), match_or_field 10 6 rfl hc⟩
  · exact ⟨.wflush, eq_of_match_all hc⟩
  · exact ⟨.ralign, eq_of_match_all hc⟩

theorem matches_row_of_legalWord (h : Machine.legalWord c = true) : ∃ r ∈ Machine.commandRows, c &&& r.1 = r.2 := by
  simp only [Machine.legalWord, Bool.and_eq_true, List.any_eq_true, beq_iff_eq] at h
  obtain ⟨⟨hrow, _⟩, _⟩ := h
  exact hrow

/-- A word is legal exactly when it is the word of a well-formed command (R138). -/
theorem legalWord_iff : Machine.legalWord c = true ↔ ∃ i : Instr, i.wellFormed = true ∧ encode i = c := by
  constructor
  · intro h
    obtain ⟨r, hr, hc⟩ := matches_row_of_legalWord h
    obtain ⟨i, rfl⟩ := exists_encode_of_row hr hc
    exact ⟨i, (encodesItsRow i).2.symm.trans h, rfl⟩
  · rintro ⟨i, hwf, rfl⟩
    exact (encodesItsRow i).2.trans hwf

/-- Settles O2: legal words and decoded words are both the words of well-formed commands. -/
theorem legalWordsAreTheTableRows : Obligations.LegalWordsAreTheTableRows := by
  intro c
  simp only [legalWord_iff, decodeInvertsEncode _ c]

end Sys2Proof
end

section
/-! PROOFS. Where a tick record ends (30_encoding.md R150). -/

namespace Sys2Proof.Machine

/-- The padding of a tick record takes its end from the end of the tiered fields to the byte boundary (R150, R233). -/
theorem wptr_add_tickRecord_length (s : State) :
    s.wptr.toNat + s.tickRecord.length = roundup8 (s.wptr.toNat + s.tickBody.length) := by
  rw [roundup8_eq, State.tickRecord, List.length_append, zeroBits_length, Nat.add_assoc]

/-- Settles O28: a successful ENC_TICK leaves WPTR at the end of its padded record, a multiple of 8 also modulo 2^32. -/
theorem encTickEndsOnByteBoundary : Obligations.EncTickEndsOnByteBoundary := by
  intro s t _ hx herr
  rcases execEncTick_cases hx with ⟨_, _, rfl⟩ | ⟨_, _, rfl⟩ | ⟨_, rfl⟩
  · rw [commit_wptr, BitVec.toNat_ofNat, Nat.mod_mod_of_dvd _ (by decide), wptr_add_tickRecord_length]
    exact roundup8_mod _
  · cases herr
  · cases herr

end Sys2Proof.Machine
end

section
/-! PROOFS. The bit stream (40_bitstream.md R180 to R190): what a write of bits is in the terms of the statements, what a
field reads back as, the commands WBITS, RBITS, WFLUSH and RALIGN, and the bounds of the two cursors. -/

namespace Sys2Proof.Machine

variable {s t : State}

/-! ### Bits written and fields read -/

/-- A bit of a written byte reads the same in every step. -/
theorem getBit_of_isSome {m : List Host.Cell} {q : Nat} (h : (Memory.read m (q / 8)).isSome = true) (d d' : Nat) :
    getBit d m q = getBit d' m q := by
  rw [getBit, getBit, byteOr_of_isSome h d d']

/-- The stream writer writes its bits in place and no other bit (R183, R189). -/
theorem bitsWritten_putBits {d p n : Nat} {m : List Host.Cell} {bits : List Bool} {bit : Nat → Bool}
    (hlen : bits.length = n) (hbit : ∀ k, k < n → bits.getD k false = bit k) :
    bitsWritten m (putBits d m p bits) p n bit := by
  subst hlen
  refine ⟨fun d' k hk => ?_, fun d' q hq hm => ?_, fun a ha => read_putBits_other ha⟩
  · rw [getBit_putBits_in (by omega) (by omega), Nat.add_sub_cancel_left, hbit k hk]
  · calc getBit d' (putBits d m p bits) q
        = getBit d (putBits d m p bits) q := getBit_of_isSome (read_putBits_isSome hm) d' d
      _ = getBit d m q := by rw [getBit_putBits, if_neg (by omega)]
      _ = getBit d' m q := getBit_of_isSome hm d d'

/-- The word of a field of at most 32 bits has the field's value: zero-extension drops no bit (R184, R186). -/
theorem toNat_ofNat_bitsToNat {bits : List Bool} (h : bits.length ≤ 32) :
    (BitVec.ofNat 32 (bitsToNat bits)).toNat = bitsToNat bits := by
  have hlt : bitsToNat bits < 2 ^ 32 := (bitsToNat_lt bits).trans_le (Nat.pow_le_pow_right (by decide) h)
  rw [BitVec.toNat_ofNat, Nat.mod_eq_of_lt hlt]

/-- Bit `w - 1 - k` of the word of a field read at `p` is bit `p + k` of the stream (R184). -/
theorem getLsbD_ofNat_getBitList {d p w k : Nat} {m : List Host.Cell} (hw : w ≤ 32) (hk : k < w) :
    (BitVec.ofNat 32 (bitsToNat (getBitList d m p w))).getLsbD (w - 1 - k) = getBit d m (p + k) := by
  have hstream := bitsToNat_testBit (getBitList d m p w) k (by rwa [getBitList_length])
  rw [getBitList_length] at hstream
  rw [BitVec.getLsbD, toNat_ofNat_bitsToNat (by rwa [getBitList_length]), hstream]
  simp [getBitList, List.getD, hk]

/-- `readBits` at the place where `writeBits` put a field gives the field's value, in any later step. -/
theorem bitsToNat_getBitList_putBits (d d' : Nat) (m : List Host.Cell) (p : Nat) (v : Word) (w : Nat) :
    bitsToNat (getBitList d' (putBits d m p (fieldBits v w)) p w) = v.toNat % 2 ^ w := by
  have hread := getBitList_putBits d d' (fieldBits v w) m p
  rw [fieldBits_length] at hread
  rw [hread, bitsToNat_fieldBits]

/-! ### The cursors -/

/-- A position that is not past the end of BUF is a 32-bit word (R8, R47). -/
theorem toNat_ofNat_position (hp : s.params.wf = true) {n : Nat} (hn : n ≤ 8 * s.params.bufBytes) :
    (BitVec.ofNat 32 n).toNat = n := by
  obtain ⟨-, -, -, hbuf⟩ := paramsWf_iff.mp hp
  rw [BitVec.toNat_ofNat, Nat.mod_eq_of_lt (by omega)]

/-- WPTR set to a position not before it and not past the end of BUF does not wrap (R190). -/
theorem wptr_bounds_of_fit (h : s.Inv) {n : Nat} (hn : s.wptr.toNat + n ≤ 8 * s.params.bufBytes) :
    (BitVec.ofNat 32 (s.wptr.toNat + n)).toNat ≤ 8 * s.params.bufBytes ∧
      s.wptr.toNat ≤ (BitVec.ofNat 32 (s.wptr.toNat + n)).toNat := by
  obtain ⟨hp, _⟩ := h
  rw [toNat_ofNat_position hp hn]
  exact ⟨hn, Nat.le_add_right _ _⟩

/-- RPTR set to a position not before it and not past `8 * RLIM` does not wrap: RLIM names no byte beyond BUF (R49). -/
theorem rptr_bounds_of_fit (h : s.Inv) {n : Nat} (hle : s.rptr.toNat ≤ n) (hn : n ≤ 8 * s.rlim.toNat) :
    (BitVec.ofNat 32 n).toNat ≤ 8 * s.rlim.toNat ∧ s.rptr.toNat ≤ (BitVec.ofNat 32 n).toNat := by
  obtain ⟨hp, _, _, hrlim, _⟩ := h
  have hbuf := rlimInBuf_iff.mp hrlim
  rw [toNat_ofNat_position hp (by omega)]
  exact ⟨hn, hle⟩

/-- Every successful writer command leaves WPTR in its bound and not behind (R190). -/
theorem writer_wptr_bounds {i : Instr} (hi : i = .wflush ∨ i = .refCapture ∨ i = .encTick ∨ ∃ n, i = .wbits n)
    (h : s.Inv) (hx : exec i s = .next t) (hok : t.errFlag = false) :
    t.wptr.toNat ≤ 8 * s.params.bufBytes ∧ s.wptr.toNat ≤ t.wptr.toNat := by
  rcases hi with rfl | rfl | rfl | ⟨n, rfl⟩
  · rcases execWflush_cases hx with ⟨hfit, rfl⟩ | ⟨_, rfl⟩
    · exact wptr_bounds_of_fit h hfit
    · cases hok
  · rcases execRefCapture_cases hx with ⟨_, hfit, rfl⟩ | ⟨_, _, rfl⟩ | ⟨_, rfl⟩
    · exact wptr_bounds_of_fit h hfit
    · cases hok
    · cases hok
  · rcases execEncTick_cases hx with ⟨_, hfit, rfl⟩ | ⟨_, _, rfl⟩ | ⟨_, rfl⟩
    · exact wptr_bounds_of_fit h hfit
    · cases hok
    · cases hok
  · rcases execWbits_cases hx with ⟨_, hfit, rfl⟩ | ⟨_, _, rfl⟩ | ⟨_, rfl⟩
    · exact wptr_bounds_of_fit h hfit
    · cases hok
    · cases hok

/-- Every successful reader command leaves RPTR in its bound and not behind (R190). -/
theorem reader_rptr_bounds {i : Instr} (hi : i = .ralign ∨ i = .refLoad ∨ i = .decTick ∨ ∃ n, i = .rbits n)
    (h : s.Inv) (hx : exec i s = .next t) (hok : t.errFlag = false) :
    t.rptr.toNat ≤ 8 * s.rlim.toNat ∧ s.rptr.toNat ≤ t.rptr.toNat := by
  rcases hi with rfl | rfl | rfl | ⟨n, rfl⟩
  · rcases execRalign_cases hx with ⟨hfit, rfl⟩ | ⟨_, rfl⟩
    · exact rptr_bounds_of_fit h (le_roundup8 _) hfit
    · cases hok
  · rcases execRefLoad_cases hx with ⟨_, hfit, rfl⟩ | ⟨_, _, rfl⟩ | ⟨_, rfl⟩
    · exact rptr_bounds_of_fit h (Nat.le_add_right _ _) hfit
    · cases hok
    · cases hok
  · rcases execDecTick_cases hx with ⟨_, d, _, _, hle, hfit, _, rfl⟩ | ⟨_, _, _, _, rfl⟩ | ⟨_, rfl⟩
    · have hforward : s.rptr.toNat ≤ roundup8 d.rp := (Nat.le_of_add_right_le hle).trans (le_roundup8 d.rp)
      exact rptr_bounds_of_fit h hforward (roundup8_le hfit)
    · cases hok
    · cases hok
  · rcases execRbits_cases hx with ⟨_, hfit, rfl⟩ | ⟨_, _, rfl⟩ | ⟨_, rfl⟩
    · exact rptr_bounds_of_fit h (Nat.le_add_right _ _) hfit
    · cases hok
    · cases hok

/-- Settles O14: each command's check is its bound, and the bound is far below the 32 bits of a cursor. -/
theorem cursorsNeverWrap : Obligations.CursorsNeverWrap := by
  intro i s t h _ hx hok
  exact ⟨fun hi => writer_wptr_bounds hi h hx hok, fun hi => reader_rptr_bounds hi h hx hok⟩

/-! ### WBITS and RBITS -/

/-- RBITS of a field that ends at `8 * RLIM` or before reads it (R186). -/
theorem exec_rbits_of_fit {n : BitVec 6} (hn : n.toNat ≤ 32) (hfit : s.rptr.toNat + n.toNat ≤ 8 * s.rlim.toNat) :
    exec (.rbits n) s = .next (succeeded { s with
      result := BitVec.ofNat 32 (bitsToNat (getBitList s.draw s.buf s.rptr.toNat n.toNat))
      rptr := BitVec.ofNat 32 (s.rptr.toNat + n.toNat) }) := by
  obtain ⟨t, hx⟩ := exec_answers (.rbits n) s
  rw [hx]
  rcases execRbits_cases hx with ⟨_, _, rfl⟩ | ⟨_, hpast, _⟩ | ⟨hwide, _⟩
  · rfl
  · omega
  · omega

/-- Settles O38: the field RBITS reads is the list of bits WBITS wrote, which is ARG0's low bits as a number. -/
theorem rbitsInvertsWbits : Obligations.RbitsInvertsWbits := by
  intro s t n h hn hfit hx hlim
  rcases execWbits_cases hx with ⟨_, _, rfl⟩ | ⟨_, hpast, rfl⟩ | ⟨hwide, rfl⟩
  · obtain ⟨hp, _⟩ := h
    rw [commit_wptr, toNat_ofNat_position hp hfit] at hlim
    rw [exec_rbits_of_fit hn hlim, commit_buf, bitsToNat_getBitList_putBits]
    rfl
  · omega
  · omega

/-- Settles O36: the three cases of WBITS, and the word of a WBITS in range decodes to it. -/
theorem wbitsWritesField : Obligations.WbitsWritesField := by
  refine ⟨fun n hn => decode_encode (i := .wbits n) (decide_eq_true hn), fun s n => ?_⟩
  obtain ⟨t, hx⟩ := exec_answers (.wbits n) s
  rw [hx]
  rcases execWbits_cases hx with ⟨hn, hfit, rfl⟩ | ⟨hn, hpast, rfl⟩ | ⟨hn, rfl⟩
  · have hbits := bitsWritten_putBits (d := s.draw) (p := s.wptr.toNat) (m := s.buf) (fieldBits_length s.arg0 n.toNat)
      fun k hk => fieldBits_getD s.arg0 n.toNat k hk
    exact ⟨fun _ _ => ⟨_, rfl, hbits⟩, fun _ _ => by omega, fun _ => by omega⟩
  · exact ⟨fun _ _ => by omega, fun _ _ => congrArg _ (raise_writerRange s), fun _ => by omega⟩
  · exact ⟨fun _ => by omega, fun _ => by omega, fun _ => congrArg _ (raise_illegalWord s _)⟩

/-- TRUNCATED_STREAM at RPTR, when no symbol applies (R324). -/
theorem raise_truncated_rptr (s : State) : raiseError s (truncated s.rptr.toNat noSymbol)
    = errored s 0x00000001#32 s.rptr 0xFFFFFFFF#32 := by
  rw [raise_truncated, BitVec.ofNat_toNat, BitVec.setWidth_eq, noSymbol]

/-- Settles O37: the three cases of RBITS, and the word of an RBITS in range decodes to it. -/
theorem rbitsReadsField : Obligations.RbitsReadsField := by
  refine ⟨fun n hn => decode_encode (i := .rbits n) (decide_eq_true hn), fun s n => ?_⟩
  obtain ⟨t, hx⟩ := exec_answers (.rbits n) s
  rw [hx]
  rcases execRbits_cases hx with ⟨hn, hfit, rfl⟩ | ⟨hn, hpast, rfl⟩ | ⟨hn, rfl⟩
  · refine ⟨fun _ _ => ⟨_, rfl, fun k hk => getLsbD_ofNat_getBitList hn hk, ?_⟩, fun _ _ => by omega, fun _ => by omega⟩
    have hlt := bitsToNat_lt (getBitList s.draw s.buf s.rptr.toNat n.toNat)
    rwa [getBitList_length, ← toNat_ofNat_bitsToNat (by rwa [getBitList_length])] at hlt
  · exact ⟨fun _ _ => by omega, fun _ _ => congrArg _ (raise_truncated_rptr s), fun _ => by omega⟩
  · exact ⟨fun _ => by omega, fun _ => by omega, fun _ => congrArg _ (raise_illegalWord s _)⟩

/-! ### WFLUSH and RALIGN -/

/-- Settles O39: the padding reaches the byte boundary, which is past the end of BUF only when WPTR is. -/
theorem wflushPadsToByte : Obligations.WflushPadsToByte := by
  refine ⟨decode_encode (i := .wflush) rfl, fun s => ?_⟩
  obtain ⟨t, hx⟩ := exec_answers .wflush s
  rw [hx]
  have hcases := execWflush_cases hx
  rw [← roundup8_eq] at hcases
  rcases hcases with ⟨hfit, rfl⟩ | ⟨hpast, rfl⟩
  · have hlen : (zeroBits (padTo8 s.wptr.toNat)).length = roundup8 s.wptr.toNat - s.wptr.toNat := by
      rw [zeroBits_length, roundup8_eq, Nat.add_sub_cancel_left]
    have hin := (le_roundup8 s.wptr.toNat).trans hfit
    exact ⟨fun _ => ⟨_, rfl, bitsWritten_putBits hlen fun k _ => zeroBits_getD _ k⟩, fun _ => by omega⟩
  · exact ⟨fun hin => absurd (roundup8_le hin) (Nat.not_le.mpr hpast), fun _ => congrArg _ (raise_writerRange s)⟩

/-- Settles O40: the byte boundary is past `8 * RLIM` only when RPTR is. -/
theorem ralignSkipsToByte : Obligations.RalignSkipsToByte := by
  refine ⟨decode_encode (i := .ralign) rfl, fun s => ?_⟩
  obtain ⟨t, hx⟩ := exec_answers .ralign s
  rw [hx]
  rcases execRalign_cases hx with ⟨hfit, rfl⟩ | ⟨hpast, rfl⟩
  · have hin := (le_roundup8 s.rptr.toNat).trans hfit
    exact ⟨fun _ => rfl, fun _ => by omega⟩
  · exact ⟨fun hin => absurd (roundup8_le hin) (Nat.not_le.mpr hpast), fun _ => congrArg _ (raise_truncated_rptr s)⟩

end Sys2Proof.Machine
end

section
/-! PROOFS. The width analyzer (41_width_analyzer.md R210 to R218): the fields of ANALYZE's RESULT word, and the COST of
a symbol as the length of the tiered field ENC_TICK writes for it. -/

namespace Sys2Proof.Machine

variable {s : State}

/-! ### The tier function and the cost -/

/-- The selector of a delta's tier, as a number (R210, R145). -/
theorem tierOf_selector_toNat (t4 t8 : Nat) (d : Int) : (tierOf t4 t8 d).selector.toNat
    = if -(t4 : Int) ≤ d ∧ d ≤ t4 then 0 else if -(t8 : Int) ≤ d ∧ d ≤ t8 then 1 else 2 := by
  unfold tierOf
  split
  · rfl
  · split <;> rfl

/-- The payload width that a tier's selector names (R214). -/
theorem payloadWidth_of_selector (t : Tier) :
    t.payloadWidth = if t.selector.toNat = 0 then 4 else if t.selector.toNat = 1 then 8 else 32 := by
  cases t <;> rfl

theorem payloadWidth_le (t : Tier) : t.payloadWidth ≤ 32 := by cases t <;> decide

theorem costOf_eq (t : Tier) (d : Int) : costOf t d = if d = 0 then 0 else 2 + t.payloadWidth := by
  simp [costOf, zeroFlag]

theorem costOf_le (t : Tier) (d : Int) : costOf t d ≤ 34 := by
  have hwidth := payloadWidth_le t
  rw [costOf_eq]
  split <;> omega

/-- An exact delta is 0 only between equal words (R211). -/
theorem delta_eq_zero_iff {curr prev : Word} : delta curr prev = 0 ↔ curr = prev := by
  rw [delta, Int.sub_eq_zero, BitVec.toInt_inj]

/-! ### The RESULT word -/

/-- RESULT as fields of their own widths, each shifted to its place: the width and the cost fit their bytes (R213). -/
theorem analyzeWord_eq_fields (t : Tier) (d : Int) : analyzeWord t d
    = (BitVec.ofNat 8 (costOf t d)).setWidth 32 <<< 24 ||| (BitVec.ofBool (dovfFlag d)).setWidth 32 <<< 17
      ||| (BitVec.ofBool (zeroFlag d)).setWidth 32 <<< 16 ||| (BitVec.ofNat 8 t.payloadWidth).setWidth 32 <<< 8
      ||| t.selector.setWidth 32 <<< 0 := by
  have hcost : costOf t d < 2 ^ 8 := (costOf_le t d).trans_lt (by decide)
  have hwidth : t.payloadWidth < 2 ^ 8 := (payloadWidth_le t).trans_lt (by decide)
  rw [BitVec.setWidth_ofNat_of_le_of_lt (by decide) hcost, BitVec.setWidth_ofNat_of_le_of_lt (by decide) hwidth,
    BitVec.shiftLeft_zero, analyzeWord]

/-- A read of RESULT's fields: each gives what was put there, and the two reserved ones give 0, because no field
overlaps another (R213). -/
theorem analyzeWord_fields (t : Tier) (d : Int) :
    (analyzeWord t d).extractLsb' 0 2 = t.selector ∧
    (analyzeWord t d).extractLsb' 2 6 = 0#6 ∧
    (analyzeWord t d).extractLsb' 8 8 = BitVec.ofNat 8 t.payloadWidth ∧
    (analyzeWord t d).extractLsb' 16 1 = BitVec.ofBool (zeroFlag d) ∧
    (analyzeWord t d).extractLsb' 17 1 = BitVec.ofBool (dovfFlag d) ∧
    (analyzeWord t d).extractLsb' 18 6 = 0#6 ∧
    (analyzeWord t d).extractLsb' 24 8 = BitVec.ofNat 8 (costOf t d) := by
  rw [analyzeWord_eq_fields]
  simp (disch := decide) only [BitVec.extractLsb'_or, extract_placed_same, extract_placed_beside, BitVec.or_zero,
    BitVec.zero_or, and_self]

/-- A field of one bit is that bit of the word. -/
theorem getLsbD_of_extract_bit {c : Word} {k : Nat} {b : Bool} (h : c.extractLsb' k 1 = BitVec.ofBool b) :
    c.getLsbD k = b := by
  have hbit := congrArg (BitVec.getLsbD · 0) h
  simpa using hbit

/-- The byte of the payload width holds it whole (R213, R214). -/
theorem analyzeWord_width (t : Tier) (d : Int) : ((analyzeWord t d).extractLsb' 8 8).toNat = t.payloadWidth := by
  obtain ⟨_, _, hwidth, _⟩ := analyzeWord_fields t d
  rw [hwidth, BitVec.toNat_ofNat, Nat.mod_eq_of_lt ((payloadWidth_le t).trans_lt (by decide))]

/-- The byte of the cost holds it whole (R213). -/
theorem analyzeWord_cost (t : Tier) (d : Int) : ((analyzeWord t d).extractLsb' 24 8).toNat = costOf t d := by
  obtain ⟨_, _, _, _, _, _, hcost⟩ := analyzeWord_fields t d
  rw [hcost, BitVec.toNat_ofNat, Nat.mod_eq_of_lt ((costOf_le t d).trans_lt (by decide))]

/-- Settles O34: ANALYZE always commits, and its RESULT word holds each field in its place. -/
theorem analyzeReportsTier : Obligations.AnalyzeReportsTier := by
  refine ⟨decode_encode (i := .analyze) rfl, fun s => ⟨_, rfl, ?_⟩⟩
  obtain ⟨htier, hlow, _, hzero, hdovf, hhigh, _⟩ :=
    analyzeWord_fields (tierOf s.t4 s.t8 (delta s.opa s.opb)) (delta s.opa s.opb)
  refine ⟨?_, hlow, ?_, getLsbD_of_extract_bit hzero, getLsbD_of_extract_bit hdovf, hhigh, ?_⟩
  · rw [htier, tierOf_selector_toNat]
    rfl
  · rw [analyzeWord_width, payloadWidth_of_selector, tierOf_selector_toNat]
    rfl
  · rw [analyzeWord_cost, costOf_eq, payloadWidth_of_selector, tierOf_selector_toNat]
    rfl

/-! ### The length of a tick record -/

/-- A word of CUR that has been written reads the same at every mention (R361). -/
theorem curWord_of_isSome {i : Nat} (h : (Memory.read s.cur i).isSome = true) (mention : Nat) :
    s.curWord mention i = wordAt s.cur i := by
  obtain ⟨v, hv⟩ := Option.isSome_iff_exists.mp h
  simp [State.curWord, wordAt, hv]

/-- A word of VAL that has been written reads the same at every mention (R361). -/
theorem valWord_of_isSome {i : Nat} (h : (Memory.read s.val i).isSome = true) (mention : Nat) :
    s.valWord mention i = wordAt s.val i := by
  obtain ⟨v, hv⟩ := Option.isSome_iff_exists.mp h
  simp [State.valWord, wordAt, hv]

/-- A changed symbol takes a selector and a payload of its tier's width, an unchanged one no bits (R146). -/
theorem tieredField_length (s : State) (i : Nat) :
    (s.tieredField i).length = if s.changed i then 2 + (s.symbolTier i).payloadWidth else 0 := by
  unfold State.tieredField
  split <;> simp

/-- The bits ENC_TICK spends on a written symbol are its cost: changed means a delta other than 0 (R218). -/
theorem tieredField_length_eq_cost {i : Nat} (hcur : (Memory.read s.cur i).isSome = true)
    (hval : (Memory.read s.val i).isSome = true) : (s.tieredField i).length
      = costOf (tierOf s.t4 s.t8 (delta (wordAt s.cur i) (wordAt s.val i)))
        (delta (wordAt s.cur i) (wordAt s.val i)) := by
  have hchanged : s.changed i = true ↔ ¬ delta (wordAt s.cur i) (wordAt s.val i) = 0 := by
    rw [State.changed, curWord_of_isSome hcur, valWord_of_isSome hval, bne_iff_ne, delta_eq_zero_iff]
  have htier : s.symbolTier i = tierOf s.t4 s.t8 (delta (wordAt s.cur i) (wordAt s.val i)) := by
    rw [State.symbolTier, State.symbolDelta, curWord_of_isSome hcur, valWord_of_isSome hval]
  rw [tieredField_length, htier, costOf_eq]
  simp only [hchanged, ite_not]

/-- Parts 1 and 2 of the record: the bitmap's bits and those of the tiered fields (R150, R151). -/
theorem tickBody_length (s : State) :
    s.tickBody.length = bitmapBits s.symbols + ((List.range s.symbols).map fun i => (s.tieredField i).length).sum := by
  simp [State.tickBody, State.bitmap, List.length_flatMap]

/-- The COST field ANALYZE leaves for a written symbol is the length of that symbol's tiered field (R218). -/
theorem analyze_cost_eq_tieredField_length {r : State} {i : Nat} (hcur : (Memory.read s.cur i).isSome = true)
    (hval : (Memory.read s.val i).isSome = true)
    (hx : exec .analyze { s with opa := wordAt s.cur i, opb := wordAt s.val i } = .next r) :
    (r.result.extractLsb' 24 8).toNat = (s.tieredField i).length := by
  rw [execAnalyze_cases hx, commit_result, analyzeWord_cost, tieredField_length_eq_cost hcur hval]
  rfl

/-- Settles O35: the record fits in BUF, so AUX holds its length, and its end is the padded end of the bitmap and the
tiered fields. -/
theorem analyzePredictsEncoder : Obligations.AnalyzePredictsEncoder := by
  intro s t r hp hcur hval hx hok hr
  have hcosts : ((List.range s.symbols).map fun i => ((r i).result.extractLsb' 24 8).toNat)
      = (List.range s.symbols).map fun i => (s.tieredField i).length := by
    refine List.map_congr_left fun i hi => ?_
    have hlt : i < s.nsym.toNat := List.mem_range.mp hi
    have hin : i < 0 + s.nsym.toNat := by omega
    exact analyze_cost_eq_tieredField_length (hcur i (Nat.zero_le i) hin) (hval i (Nat.zero_le i) hin) (hr i hlt)
  rcases execEncTick_cases hx with ⟨_, hfit, rfl⟩ | ⟨_, _, rfl⟩ | ⟨_, rfl⟩
  · calc (BitVec.ofNat 32 s.tickRecord.length).toNat
        = s.tickRecord.length := toNat_ofNat_position hp (by omega)
      _ = roundup8 (s.wptr.toNat + s.tickBody.length) - s.wptr.toNat := by
          rw [← wptr_add_tickRecord_length, Nat.add_sub_cancel_left]
      _ = _ := by rw [tickBody_length, ← hcosts, ← Nat.add_assoc]; rfl
  · cases hok
  · cases hok

end Sys2Proof.Machine
end

section
/-! PROOFS. Rows of words and of fields: what a RAM reads after a row of words was written, and the bits of fields put one
after another. -/

namespace Sys2Proof.Machine

variable {s : State}

/-- Word `i` of a row of `n` words written from index 0 up. -/
theorem Memory.read_writeAll_range {α : Type} {m : List (Nat × α)} {f : Nat → α} {n i : Nat} (hi : i < n) :
    Memory.read (Memory.writeAll m 0 ((List.range n).map f)) i = some (f i) := by
  rw [Memory.read_writeAll, if_pos ⟨Nat.zero_le i, by simpa using hi⟩]
  simp [hi]

/-- A word of VAL that has been written is what the RAM reads (R361). -/
theorem some_valWord_of_isSome {i : Nat} (h : (Memory.read s.val i).isSome = true) (mention : Nat) :
    some (s.valWord mention i) = Memory.read s.val i := by
  obtain ⟨v, hv⟩ := Option.isSome_iff_exists.mp h
  simp [State.valWord, hv]

/-- A word of CUR that has been written is what the RAM reads (R361). -/
theorem some_curWord_of_isSome {i : Nat} (h : (Memory.read s.cur i).isSome = true) (mention : Nat) :
    some (s.curWord mention i) = Memory.read s.cur i := by
  obtain ⟨v, hv⟩ := Option.isSome_iff_exists.mp h
  simp [State.curWord, hv]

/-- Bit `k` of field `i` in a row of `n` fields stands `k` places after the fields before it. -/
theorem getD_flatMap_range {f : Nat → List Bool} {n i k : Nat} (hi : i < n) (hk : k < (f i).length) :
    ((List.range n).flatMap f).getD (((List.range i).flatMap f).length + k) false = (f i).getD k false := by
  obtain ⟨rest, rfl⟩ : ∃ rest, n = i + 1 + rest := ⟨n - (i + 1), by omega⟩
  rw [List.range_add, List.range_succ, List.flatMap_append, List.flatMap_append, List.append_assoc,
    List.getD_append_right _ _ _ _ (by omega), Nat.add_sub_cancel_left, List.flatMap_singleton,
    List.getD_append _ _ _ _ hk]

end Sys2Proof.Machine
end

section
/-! PROOFS. The reference frame and the encoder (42_delta_codec.md R230 to R234): the bits of REF_CAPTURE's frame, the
words REF_LOAD reads, and ENC_TICK's record as the statements write it out. -/

namespace Sys2Proof.Machine

variable {s : State} {i : Nat}

/-! ### The reference frame -/

/-- The frame is a row of fields, one for each symbol (R152). -/
theorem frameBits_eq_flatMap (s : State) :
    s.frameBits = (List.range s.symbols).flatMap fun i => fieldBits (s.curWord 0 i) 32 := by
  rw [State.frameBits, State.curWords, List.flatMap_map]

/-- A row of 32-bit fields takes 32 bits for each. -/
theorem length_flatMap_fieldBits (f : Nat → Word) (n : Nat) :
    ((List.range n).flatMap fun i => fieldBits (f i) 32).length = 32 * n := by
  simp [List.length_flatMap, Nat.mul_comm]

theorem frameBits_length (s : State) : s.frameBits.length = 32 * s.symbols := by
  rw [frameBits_eq_flatMap, length_flatMap_fieldBits]

/-- Bit `k` of the frame lies in field `k / 32`, most significant bit first (R152, R183). -/
theorem frameBits_getD (h : written s.cur 0 s.symbols) {k : Nat} (hk : k < 32 * s.symbols) :
    s.frameBits.getD k false = (wordAt s.cur (k / 32)).getLsbD (31 - k % 32) := by
  have hi : k / 32 < s.symbols := by omega
  have hfield := getD_flatMap_range (f := fun i => fieldBits (s.curWord 0 i) 32) (k := k % 32) hi
    (by rw [fieldBits_length]; omega)
  rw [length_flatMap_fieldBits, Nat.div_add_mod] at hfield
  rw [frameBits_eq_flatMap, hfield, fieldBits_getD _ _ _ (by omega), curWord_of_isSome (h _ (Nat.zero_le _) (by omega))]

/-- A word of CUR that has been written is copied into VAL with the others (R230, R233). -/
theorem read_writeAll_curWords {mention : Nat} (hi : i < s.symbols) (hcur : (Memory.read s.cur i).isSome = true) :
    Memory.read (Memory.writeAll s.val 0 (s.curWords mention)) i = Memory.read s.cur i := by
  rw [State.curWords, Memory.read_writeAll_range hi, some_curWord_of_isSome hcur]

/-- Settles O25: the frame fits and is written, or it passes the end of BUF. -/
theorem refCaptureWritesFrame : Obligations.RefCaptureWritesFrame := by
  refine ⟨decode_encode (i := .refCapture) rfl, fun s h1 h2 => ?_⟩
  obtain ⟨t, hx⟩ := exec_answers .refCapture s
  rw [hx]
  have hlen := frameBits_length s
  have hcases := execRefCapture_cases hx
  rw [hlen] at hcases
  rcases hcases with ⟨_, hfit, rfl⟩ | ⟨_, hpast, rfl⟩ | ⟨hillegal, rfl⟩
  · refine ⟨fun _ => ⟨_, _, rfl, fun i c hi hc => ?_, fun i hi => ?_, fun hw => ?_, fun a ha => ?_⟩,
      fun hpast => absurd hfit (Nat.not_le.mpr hpast)⟩
    · rw [read_writeAll_curWords hi (by simp [hc]), hc]
    · exact Memory.read_writeAll_beyond ((curWords_length s 1).trans_le hi)
    · exact bitsWritten_putBits hlen fun k hk => frameBits_getD hw hk
    · exact read_putBits_other (by rw [hlen]; exact ha)
  · exact ⟨fun hfit => absurd hfit (Nat.not_le.mpr hpast), fun _ => congrArg _ (raise_writerRange s)⟩
  · simp [nsymLegal_iff.mpr ⟨h1, h2⟩] at hillegal

/-- Settles O26: the frame is read whole, or its first field past `8 * RLIM` fails. -/
theorem refLoadReadsFrame : Obligations.RefLoadReadsFrame := by
  refine ⟨decode_encode (i := .refLoad) rfl, fun s h1 h2 => ?_⟩
  obtain ⟨t, hx⟩ := exec_answers .refLoad s
  rw [hx]
  rcases execRefLoad_cases hx with ⟨_, hfit, rfl⟩ | ⟨_, hpast, rfl⟩ | ⟨hillegal, rfl⟩
  · refine ⟨fun _ => ⟨_, rfl, fun i hi => ⟨_, Memory.read_writeAll_range hi, fun k hk => ?_⟩, fun i hi => ?_⟩,
      fun hpast => absurd hfit (Nat.not_le.mpr hpast)⟩
    · exact getLsbD_ofNat_getBitList (by decide) hk
    · exact Memory.read_writeAll_beyond (by simpa [State.symbols] using hi)
  · exact ⟨fun hfit => absurd hfit (Nat.not_le.mpr hpast), fun _ => congrArg _ (raise_truncated s _ _)⟩
  · simp [nsymLegal_iff.mpr ⟨h1, h2⟩] at hillegal

/-! ### The tick record -/

/-- The low bits of a word as a field are the bits of the narrower word (R183). -/
theorem fieldBits_eq_bitsOf (v : Word) (w : Nat) : fieldBits v w = bitsOf (v.setWidth w) := by
  refine List.map_congr_left fun k hk => ?_
  have hlt : k < w := List.mem_range.mp hk
  rw [BitVec.getLsbD_setWidth, decide_eq_true (by omega), Bool.true_and]

/-- A symbol is changed when its two words differ (R232). -/
theorem changed_eq (hcur : (Memory.read s.cur i).isSome = true) (hval : (Memory.read s.val i).isSome = true) :
    s.changed i = decide (wordAt s.cur i ≠ wordAt s.val i) := by
  rw [State.changed, curWord_of_isSome hcur, valWord_of_isSome hval]
  rw [Bool.eq_iff_iff, bne_iff_ne, decide_eq_true_iff]

/-- The delta of a symbol whose words have been written (R211, R233). -/
theorem symbolDelta_eq (hcur : (Memory.read s.cur i).isSome = true) (hval : (Memory.read s.val i).isSome = true) :
    s.symbolDelta i = (wordAt s.cur i).toInt - (wordAt s.val i).toInt := by
  rw [State.symbolDelta, curWord_of_isSome hcur, valWord_of_isSome hval, delta]

/-- The low bits of a number taken modulo 2^32 are those of the number (R14, R234). -/
theorem setWidth_u32 {w : Nat} (hw : w ≤ 32) (d : Int) : (u32 d).setWidth w = BitVec.ofInt w d := by
  apply BitVec.eq_of_toInt_eq
  have hdvd : ((2 ^ w : Nat) : Int) ∣ ((2 ^ 32 : Nat) : Int) := Int.natCast_dvd_natCast.mpr (Nat.pow_dvd_pow 2 hw)
  rw [BitVec.toInt_setWidth, BitVec.toInt_ofInt, BitVec.toNat_ofInt, Int.toNat_of_nonneg (Int.emod_nonneg _ (by decide)),
    Int.bmod_def, Int.bmod_def, Int.emod_emod_of_dvd d hdvd]

/-- The tiered field ENC_TICK writes for a symbol whose words have been written (R145 to R149, R234). -/
theorem tieredField_eq_fieldOf (hcur : (Memory.read s.cur i).isSome = true)
    (hval : (Memory.read s.val i).isSome = true) :
    s.tieredField i = fieldOf s.t4 s.t8 (wordAt s.cur i) (wordAt s.val i) := by
  rw [State.tieredField, changed_eq hcur hval, fieldOf]
  by_cases heq : wordAt s.cur i = wordAt s.val i
  · simp [heq]
  · rw [if_pos (by simpa using heq), if_neg heq, State.payload, State.symbolTier, symbolDelta_eq hcur hval,
      curWord_of_isSome hcur, tierOf]
    split
    · rw [fieldBits_eq_bitsOf (u32 _), Tier.payloadWidth, setWidth_u32 (by decide)]
      rfl
    · split
      · rw [fieldBits_eq_bitsOf (u32 _), Tier.payloadWidth, setWidth_u32 (by decide)]
        rfl
      · rfl

/-- ENC_TICK's record over symbols whose words have been written, as R150 and R151 lay it out. -/
theorem tickRecord_eq_recordOf (hcur : written s.cur 0 s.symbols) (hval : written s.val 0 s.symbols) :
    s.tickRecord = recordOf s.t4 s.t8 s.symbols (wordAt s.cur) (wordAt s.val) s.wptr.toNat := by
  have hin : ∀ i, i < s.symbols → (Memory.read s.cur i).isSome = true ∧ (Memory.read s.val i).isSome = true :=
    fun i hi => ⟨hcur i (Nat.zero_le i) (by omega), hval i (Nat.zero_le i) (by omega)⟩
  have hbitmap : s.bitmap = (List.range (8 * ((s.symbols + 7) / 8))).map fun i =>
      decide (i < s.symbols) && decide (wordAt s.cur i ≠ wordAt s.val i) := by
    refine List.map_congr_left fun i _ => ?_
    by_cases hi : i < s.symbols
    · rw [changed_eq (hin i hi).1 (hin i hi).2]
    · simp [hi]
  have hfields : (List.range s.symbols).flatMap s.tieredField
      = (List.range s.symbols).flatMap fun i => fieldOf s.t4 s.t8 (wordAt s.cur i) (wordAt s.val i) :=
    List.flatMap_congr fun i hi =>
      tieredField_eq_fieldOf (hin i (List.mem_range.mp hi)).1 (hin i (List.mem_range.mp hi)).2
  rw [State.tickRecord, State.tickBody, hbitmap, hfields]
  rfl

/-- The changed symbols are those whose two words differ (R232, R233). -/
theorem changedCount_eq (hcur : written s.cur 0 s.symbols) (hval : written s.val 0 s.symbols) :
    s.changedCount = (List.range s.symbols).countP fun i => decide (wordAt s.cur i ≠ wordAt s.val i) := by
  refine List.countP_congr fun i hi => ?_
  have hlt : i < 0 + s.symbols := by simpa using hi
  rw [changed_eq (hcur i (Nat.zero_le i) hlt) (hval i (Nat.zero_le i) hlt)]

/-- Settles O27: the record fits and is written, or it passes the end of BUF. -/
theorem encTickWritesRecord : Obligations.EncTickWritesRecord := by
  refine ⟨decode_encode (i := .encTick) rfl, fun s h1 h2 hcur hval => ?_⟩
  intro record
  have hrecord : s.tickRecord = record := tickRecord_eq_recordOf hcur hval
  obtain ⟨t, hx⟩ := exec_answers .encTick s
  rw [hx]
  have hcases := execEncTick_cases hx
  rw [hrecord, changedCount_eq hcur hval] at hcases
  rcases hcases with ⟨_, hfit, rfl⟩ | ⟨_, hpast, rfl⟩ | ⟨hillegal, rfl⟩
  · refine ⟨fun _ => ⟨_, _, rfl, bitsWritten_putBits rfl fun _ _ => rfl, fun i hi => ?_, fun i hi => ?_⟩,
      fun hpast => absurd hfit (Nat.not_le.mpr hpast)⟩
    · exact read_writeAll_curWords hi (hcur i (Nat.zero_le i) (by omega))
    · exact Memory.read_writeAll_beyond ((curWords_length s 3).trans_le hi)
  · exact ⟨fun hfit => absurd hfit (Nat.not_le.mpr hpast), fun _ => congrArg _ (raise_writerRange s)⟩
  · simp [nsymLegal_iff.mpr ⟨h1, h2⟩] at hillegal

end Sys2Proof.Machine
end

section
/-! PROOFS. The decoder (42_delta_codec.md R235 to R241): DEC_TICK's loop over a stream whose symbols decode, the error of
the first symbol that does not, and what both say of a tick without changes and of a tick of one symbol. -/

namespace Sys2Proof.Machine

variable {s t : State} {pos : Nat → Nat} {x : Nat → Int} {n : Nat}

/-! ### The loop over consecutive bitmap bits -/

/-- A list of bits read in two parts, the second from where the first ends. -/
theorem getBitList_add (d : Nat) (m : List Host.Cell) (p a b : Nat) :
    getBitList d m p (a + b) = getBitList d m p a ++ getBitList d m (p + a) b := by
  simp [getBitList, List.range_add, Nat.add_assoc]

/-- What the loop has computed after two parts of its bitmap bits, the second starting where the first stopped. -/
def Decoded.followedBy (d d' : Decoded) : Decoded :=
  { values := d.values ++ d'.values, rp := d'.rp, count := d.count + d'.count }

/-- The loop passes over the bits of a first part that decodes and goes on with the rest, whatever becomes of it. -/
theorem decodeSymbols_append {xs ys : List Bool} {i rp : Nat} {d : Decoded} (h : s.decodeSymbols xs i rp = .ok d) :
    s.decodeSymbols (xs ++ ys) i rp = (s.decodeSymbols ys (i + xs.length) d.rp).map d.followedBy := by
  induction xs generalizing i rp d with
  | nil =>
    obtain rfl := Except.ok.inj h
    simp only [List.nil_append, List.length_nil, Nat.add_zero]
    cases s.decodeSymbols ys i rp with
    | error e => rfl
    | ok d' => simp [Except.map, Decoded.followedBy]
  | cons b rest ih =>
    have hlen : i + (b :: rest).length = i + 1 + rest.length := by rw [List.length_cons]; omega
    rw [hlen, List.cons_append]
    cases b with
    | false =>
      cases hrest : s.decodeSymbols rest (i + 1) rp with
      | error e => simp [State.decodeSymbols, hrest] at h
      | ok d₁ =>
        simp only [State.decodeSymbols, hrest, Except.ok.injEq] at h
        subst h
        rw [State.decodeSymbols, ih hrest]
        cases s.decodeSymbols ys (i + 1 + rest.length) d₁.rp <;> rfl
    | true =>
      cases hfirst : s.decodeSymbol i rp with
      | error e => simp [State.decodeSymbols, hfirst] at h
      | ok r =>
        obtain ⟨v, rp'⟩ := r
        cases hrest : s.decodeSymbols rest (i + 1) rp' with
        | error e => simp [State.decodeSymbols, hfirst, hrest] at h
        | ok d₁ =>
          simp only [State.decodeSymbols, hfirst, hrest, Except.ok.injEq] at h
          subst h
          rw [State.decodeSymbols, hfirst]
          simp only
          rw [ih hrest]
          cases s.decodeSymbols ys (i + 1 + rest.length) d₁.rp with
          | error e => rfl
          | ok d' => simp [Except.map, Decoded.followedBy, Nat.add_right_comm]

/-- The loop raises the error of a changed symbol before it looks at the next one. -/
theorem decodeSymbols_true_error {bits : List Bool} {i rp : Nat} {e : CmdError} (h : s.decodeSymbol i rp = .error e) :
    s.decodeSymbols (true :: bits) i rp = .error e := by
  rw [State.decodeSymbols, h]

/-! ### A stream whose symbols decode -/

/-- The word DEC_TICK gives symbol `i`: its decoded value, or its own word when its bit is 0 (R235, R240). -/
def decodedWord (s : State) (x : Nat → Int) (i : Nat) : Word := if bitmapBit s i then u32 (x i) else s.valWord 0 i

/-- What the loop has computed after the first `n` symbols of a stream that decodes. -/
def decodedSymbols (s : State) (pos : Nat → Nat) (x : Nat → Int) (n : Nat) : Decoded where
  values := (List.range n).map (decodedWord s x)
  rp := pos n
  count := (List.range n).countP (bitmapBit s)

theorem symbolsDecode_of_succ (h : symbolsDecode s pos x (n + 1)) : symbolsDecode s pos x n :=
  ⟨h.1, fun i hi => h.2 i (by omega)⟩

/-- One symbol's step of the loop in a stream that decodes. -/
theorem decodeSymbols_of_symbol (h : symbolsDecode s pos x (n + 1)) : s.decodeSymbols [bitmapBit s n] n (pos n)
    = .ok { values := [decodedWord s x n], rp := pos (n + 1), count := if bitmapBit s n then 1 else 0 } := by
  obtain ⟨-, hsymbols⟩ := h
  have hn := hsymbols n (Nat.lt_succ_self n)
  cases hb : bitmapBit s n with
  | false =>
    rw [if_neg (by simp [hb])] at hn
    simp [State.decodeSymbols, decodedWord, hb, hn]
  | true =>
    rw [if_pos hb] at hn
    obtain ⟨w, hfield, hpos, hfit, hlo, hhi⟩ := hn
    have hsymbol := decodeSymbol_of_field hfield (hpos ▸ hfit)
    rw [if_pos ⟨hlo, hhi⟩, ← hpos] at hsymbol
    simp [State.decodeSymbols, hsymbol, decodedWord, hb]

/-- The loop over symbols that decode computes their words, the cursor after them and the number of changed ones. -/
theorem decodeSymbols_of_symbolsDecode (h : symbolsDecode s pos x n) :
    s.decodeSymbols (getBitList s.draw s.buf s.rptr.toNat n) 0 (pos 0) = .ok (decodedSymbols s pos x n) := by
  induction n with
  | zero => rfl
  | succ n ih =>
    have hlast : getBitList s.draw s.buf (s.rptr.toNat + n) 1 = [bitmapBit s n] := rfl
    rw [getBitList_add, hlast, decodeSymbols_append (ih (symbolsDecode_of_succ h)), getBitList_length, Nat.zero_add]
    simp only [decodedSymbols]
    rw [decodeSymbols_of_symbol h]
    simp [Except.map, Decoded.followedBy, List.range_succ, List.countP_append, List.countP_cons]

/-! ### DEC_TICK on a record -/

/-- DEC_TICK with a legal NSYM commits what its pass over the record computed (R235). -/
theorem exec_decTick_of_decodeRecord_ok {d : Decoded} (h1 : 1 ≤ s.nsym.toNat) (h2 : s.nsym.toNat ≤ s.params.sMax)
    (hd : s.decodeRecord = .ok d) : exec .decTick s = .next (succeeded { s with
      val := Memory.writeAll s.val 0 d.values, rptr := BitVec.ofNat 32 (roundup8 d.rp)
      aux := BitVec.ofNat 32 (roundup8 d.rp - s.rptr.toNat), tickcnt := s.tickcnt + 1#32
      result := BitVec.ofNat 32 d.count }) := by
  rw [exec, execDecTick, whenNsymLegal_of_legal h1 h2, hd]
  rfl

/-- DEC_TICK with a legal NSYM raises the error its pass over the record met (R235). -/
theorem exec_decTick_of_decodeRecord_error {e : CmdError} (h1 : 1 ≤ s.nsym.toNat) (h2 : s.nsym.toNat ≤ s.params.sMax)
    (he : s.decodeRecord = .error e) : exec .decTick s = .next (raiseError s e) := by
  rw [exec, execDecTick, whenNsymLegal_of_legal h1 h2, he]
  rfl

/-- The pass over a record with a whole bitmap whose symbols decode. -/
theorem decodeRecord_of_symbolsDecode (hfit : s.rptr.toNat + 8 * ((s.nsym.toNat + 7) / 8) ≤ 8 * s.rlim.toNat)
    (h : symbolsDecode s pos x s.nsym.toNat) : s.decodeRecord = .ok (decodedSymbols s pos x s.nsym.toNat) := by
  rw [← decodeSymbols_of_symbolsDecode h, h.1]
  exact if_pos hfit

/-- The pass over a record with a whole bitmap stops at the first changed symbol that does not decode (R235). -/
theorem decodeRecord_of_decodeSymbol_error {e : CmdError}
    (hfit : s.rptr.toNat + 8 * ((s.nsym.toNat + 7) / 8) ≤ 8 * s.rlim.toNat) (hn : n < s.nsym.toNat)
    (hb : bitmapBit s n = true) (h : symbolsDecode s pos x n) (he : s.decodeSymbol n (pos n) = .error e) :
    s.decodeRecord = .error e := by
  obtain ⟨rest, hrest⟩ : ∃ rest, s.nsym.toNat = n + (rest + 1) := ⟨s.nsym.toNat - n - 1, by omega⟩
  have hbits : getBitList s.draw s.buf s.rptr.toNat s.nsym.toNat = getBitList s.draw s.buf s.rptr.toNat n
      ++ true :: getBitList s.draw s.buf (s.rptr.toNat + n + 1) rest := by
    rw [hrest, getBitList_add, getBitList_succ, ← hb]
    rfl
  calc s.decodeRecord
      = s.decodeSymbols (getBitList s.draw s.buf s.rptr.toNat s.nsym.toNat) 0 (pos 0) := by rw [h.1]; exact if_pos hfit
    _ = .error e := by
      rw [hbits, decodeSymbols_append (decodeSymbols_of_symbolsDecode h), getBitList_length, Nat.zero_add]
      simp only [decodedSymbols]
      rw [decodeSymbols_true_error he]
      rfl

/-- Settles O58: the loop's words are what DEC_TICK writes from VAL[0] up, as many as there are symbols. -/
theorem decTickDecodesStream : Obligations.DecTickDecodesStream := by
  intro s pos x h1 h2 hfit h
  have hexec := exec_decTick_of_decodeRecord_ok h1 h2 (decodeRecord_of_symbolsDecode hfit h)
  have hread : ∀ i, i < s.nsym.toNat →
      Memory.read (Memory.writeAll s.val 0 (decodedSymbols s pos x s.nsym.toNat).values) i = some (decodedWord s x i) :=
    fun i hi => Memory.read_writeAll_range hi
  refine ⟨_, hexec, fun i hi hb => ?_, fun i hi hb hv => ?_, fun i hi => ?_⟩
  · rw [hread i hi, decodedWord, if_pos hb]
  · rw [hread i hi, decodedWord, if_neg (by simp [hb]), some_valWord_of_isSome hv]
  · exact Memory.read_writeAll_beyond (by simpa [decodedSymbols] using hi)

/-! ### The errors of one changed symbol -/

/-- A field whose two selector bits pass `8 * RLIM` fails where it starts (R184). -/
theorem decodeSymbol_of_cut_selector {i p : Nat} (h : 8 * s.rlim.toNat < p + 2) :
    s.decodeSymbol i p = .error (truncated p (BitVec.ofNat 32 i)) := by
  rw [State.decodeSymbol, getBits_of_lt h]

/-- The selector's two bits name a tier of the payload width they stand for, or none when reserved (R145, R214). -/
theorem getBits_selector {p : Nat} {sym : Word} (h : p + 2 ≤ 8 * s.rlim.toNat) : ∃ sel, s.getBits p 2 sym = .ok sel ∧
    (tierOfSelector (BitVec.ofNat 2 sel)).map Tier.payloadWidth = selectorWidth (selectorAt s p) :=
  ⟨_, getBits_of_le h, by rw [getBitList_two]; exact tierOfSelector_bits _ _⟩

theorem decodeSymbol_of_reserved_selector {i p : Nat} (h : p + 2 ≤ 8 * s.rlim.toNat)
    (hsel : selectorAt s p = (true, true)) : s.decodeSymbol i p = .error (deltaRange p i) := by
  obtain ⟨sel, hget, htier⟩ := getBits_selector (sym := BitVec.ofNat 32 i) h
  rw [hsel, selectorWidth, Option.map_eq_none_iff] at htier
  rw [State.decodeSymbol, hget]
  simp only [htier]

theorem decodeSymbol_of_cut_payload {i p w : Nat} (h : p + 2 ≤ 8 * s.rlim.toNat)
    (hsel : selectorWidth (selectorAt s p) = some w) (hcut : 8 * s.rlim.toNat < p + 2 + w) :
    s.decodeSymbol i p = .error (truncated (p + 2) (BitVec.ofNat 32 i)) := by
  obtain ⟨sel, hget, htier⟩ := getBits_selector (sym := BitVec.ofNat 32 i) h
  rw [hsel, Option.map_eq_some_iff] at htier
  obtain ⟨tier, htier, rfl⟩ := htier
  rw [State.decodeSymbol, hget]
  simp only [htier]
  rw [getBits_of_lt hcut]

/-- Settles O59: the pass over the record ends with the error of symbol `n`. -/
theorem decTickErrorsInStreamOrder : Obligations.DecTickErrorsInStreamOrder := by
  intro s pos x n h1 h2 hfit hn hb h
  have hraise : ∀ e, s.decodeSymbol n (pos n) = .error e → exec .decTick s = .next (raiseError s e) := fun e he =>
    exec_decTick_of_decodeRecord_error h1 h2 (decodeRecord_of_decodeSymbol_error hfit hn hb h he)
  refine ⟨fun hcut => ?_, fun hle hsel => ?_, fun w hsel hle hcut => ?_, fun w y hfield hle hout => ?_⟩
  · rw [hraise _ (decodeSymbol_of_cut_selector hcut), raise_truncated]
  · rw [hraise _ (decodeSymbol_of_reserved_selector hle hsel), raise_deltaRange]
  · rw [hraise _ (decodeSymbol_of_cut_payload hle hsel hcut), raise_truncated]
  · rw [hraise _ ((decodeSymbol_of_field hfield hle).trans (if_neg hout)), raise_deltaRange]

/-! ### Symbols whose bit is 0 -/

/-- Symbols whose bits are 0 decode with the cursor staying after the bitmap (R235, R240). -/
theorem symbolsDecode_of_unchanged (h : ∀ i, i < n → bitmapBit s i = false) :
    symbolsDecode s (fun _ => s.rptr.toNat + 8 * ((s.nsym.toNat + 7) / 8)) (fun _ => 0) n :=
  ⟨rfl, fun i hi => by rw [if_neg (by simp [h i hi])]⟩

/-- Settles O30: DecTickDecodesStream with every bit 0. -/
theorem decTickUnchangedTick : Obligations.DecTickUnchangedTick := by
  refine ⟨decode_encode (i := .decTick) rfl, fun s h1 h2 hfit hbits => ?_⟩
  obtain ⟨v, hexec, -, hkept, hbeyond⟩ :=
    decTickDecodesStream s _ _ h1 h2 hfit (symbolsDecode_of_unchanged hbits)
  have hcount : (List.range s.nsym.toNat).countP (bitmapBit s) = 0 :=
    List.countP_eq_zero.mpr fun i hi => by simp [show bitmapBit s i = false from hbits i (List.mem_range.mp hi)]
  rw [hcount] at hexec
  refine ⟨v, hexec, fun i hi => ?_⟩
  by_cases hlt : i < s.nsym.toNat
  · exact hkept i hlt (hbits i hlt) (hi.resolve_right (by omega))
  · exact hbeyond i (by omega)

/-- Settles O31: whatever the pass over the record computes, the word of an unchanged symbol is its own. -/
theorem unchangedSymbolKeepsValue : Obligations.UnchangedSymbolKeepsValue := by
  intro s t i hx hok hi hb hv
  rcases execDecTick_cases hx with ⟨_, d, _, hlen, _, _, hkept, rfl⟩ | ⟨_, e, _, _, rfl⟩ | ⟨_, rfl⟩
  · have hin : 0 ≤ i ∧ i < 0 + d.values.length := ⟨Nat.zero_le i, by rw [hlen, Nat.zero_add]; exact hi⟩
    rw [commit_val, Memory.read_writeAll, if_pos hin, Nat.sub_zero, hkept i hi hb, some_valWord_of_isSome hv]
  · cases hok
  · cases hok

/-! ### The first changed symbol -/

theorem selectorWidth_of_not_reserved {b1 b0 : Bool} (h : (b1 && b0) = false) :
    selectorWidth (b1, b0) = some (if b1 then 32 else if b0 then 8 else 4) := by
  match b1, b0, h with
  | false, false, _ => rfl
  | false, true, _ => rfl
  | true, false, _ => rfl

/-- A field's exact value, its payload `f` and the symbol's previous value being known (R236). -/
theorem fieldDecodes_of_payload {i p w : Nat} {prev : Word} {f : BitVec w}
    (hsel : selectorWidth (selectorAt s p) = some w) (hv : Memory.read s.val i = some prev)
    (hf : ∀ k, k < w → getBit s.draw s.buf (p + 2 + k) = f.getLsbD (w - 1 - k)) :
    fieldDecodes s i p w (if w = 32 then f.toInt else prev.toInt + f.toInt) := by
  refine ⟨hsel, f, hf, ?_⟩
  by_cases hw : w = 32
  · exact .inl ⟨hw, if_pos hw⟩
  · exact .inr ⟨hw, by simp [hv], by rw [if_neg hw, wordAt, hv, Option.getD_some]⟩

/-- Settles O33: a cut bitmap stops the pass at once; behind a whole one, DecTickErrorsInStreamOrder after symbols
that are all unchanged. -/
theorem decTickFirstErrors : Obligations.DecTickFirstErrors := by
  intro s h1 h2
  refine ⟨fun hcut => ?_, fun i hfit hi hb hbefore => ?_⟩
  · have hd : s.decodeRecord = .error (truncated s.rptr.toNat noSymbol) := if_neg (Nat.not_le.mpr hcut)
    rw [exec_decTick_of_decodeRecord_error h1 h2 hd, raise_truncated_rptr]
  · obtain ⟨hselector, hreserved, hpayload, hrange⟩ :=
      decTickErrorsInStreamOrder s _ _ i h1 h2 hfit hi hb (symbolsDecode_of_unchanged hbefore)
    refine ⟨hselector, fun hle hb1 hb0 => hreserved hle (Prod.ext hb1 hb0), fun hle hsel hcut => ?_,
      fun prev f hle hsel hv hf => ?_⟩
    · exact hpayload _ (selectorWidth_of_not_reserved hsel) hle hcut
    · exact hrange _ _ (fieldDecodes_of_payload (selectorWidth_of_not_reserved hsel) hv hf) hle

/-- Settles O32: the record of one symbol is a bitmap byte and one field, which decodes or raises
DELTA_RANGE_VIOLATION. -/
theorem decTickOneSymbol : Obligations.DecTickOneSymbol := by
  intro s prev w f b1 b0 hsize hnsym hv hsel hfit hb hb1 hb0 hf x rp
  have hone : s.nsym.toNat = 1 := by rw [hnsym]; rfl
  have hwidth : selectorWidth (selectorAt s (s.rptr.toNat + 8)) = some w := by
    rw [selectorAt, hb1, hb0]
    rcases hsel with ⟨rfl, rfl, rfl⟩ | ⟨rfl, rfl, rfl⟩ | ⟨rfl, rfl, rfl⟩ <;> rfl
  have hfield : fieldDecodes s 0 (s.rptr.toNat + 8) w x := fieldDecodes_of_payload hwidth hv hf
  have hpayload : s.rptr.toNat + 8 + 2 + w ≤ 8 * s.rlim.toNat := by omega
  have hbitmap : s.rptr.toNat + 8 * ((s.nsym.toNat + 7) / 8) ≤ 8 * s.rlim.toNat := by omega
  have hbit : bitmapBit s 0 = true := hb
  split
  next hin =>
    have hdecodes : symbolsDecode s (fun i => s.rptr.toNat + 8 + i * (2 + w)) (fun _ => x) s.nsym.toNat := by
      refine ⟨by simp only; omega, fun i hi => ?_⟩
      obtain rfl : i = 0 := by omega
      rw [if_pos hbit]
      simp only [Nat.zero_mul, Nat.add_zero, Nat.zero_add, Nat.one_mul]
      exact ⟨w, hfield, by omega, by omega, hin⟩
    have hexec := exec_decTick_of_decodeRecord_ok (by omega) (by omega) (decodeRecord_of_symbolsDecode hbitmap hdecodes)
    have hend : s.rptr.toNat + 8 + (2 + w) = s.rptr.toNat + 10 + w := by omega
    simp only [decodedSymbols, hone, List.range_one, List.map_singleton, decodedWord, hbit, if_true,
      List.countP_singleton, Nat.one_mul, hend] at hexec
    exact hexec
  next hout =>
    obtain ⟨-, -, -, hrange⟩ := decTickErrorsInStreamOrder s (fun _ => s.rptr.toNat + 8) (fun _ => 0) 0 (by omega)
      (by omega) hbitmap (by omega) hbit ⟨by simp only; omega, fun i hi => absurd hi (Nat.not_lt_zero i)⟩
    exact hrange w x hfield hpayload hout

end Sys2Proof.Machine
end

section
/-! PROOFS. The round trip of one tick (42_delta_codec.md R239): the record ENC_TICK wrote is a stream that decodes, to the
values it encoded. -/

namespace Sys2Proof.Machine

variable {s u : State} {i k : Nat}

/-! ### A payload gives its value back -/

/-- The thresholds of TIER_CFG name deltas that fit their payloads: a delta of a delta tier is a signed number of its
payload's width (R46, R210, R214). -/
theorem symbolDelta_fits (hw : (s.symbolTier i).payloadWidth ≠ 32) :
    -2 ^ ((s.symbolTier i).payloadWidth - 1) ≤ s.symbolDelta i ∧
      s.symbolDelta i < 2 ^ ((s.symbolTier i).payloadWidth - 1) := by
  have h4 : s.t4 < 2 ^ 3 := (s.tierCfg.extractLsb' 0 3).isLt
  have h8 : s.t8 < 2 ^ 7 := (s.tierCfg.extractLsb' 8 7).isLt
  unfold State.symbolTier tierOf at hw ⊢
  split at hw
  next hd => rw [if_pos hd]; simp only [Tier.payloadWidth]; omega
  next hd =>
    rw [if_neg hd]
    split at hw
    next hd => rw [if_pos hd]; simp only [Tier.payloadWidth]; omega
    next => exact absurd rfl hw

/-- The payload of the 32-bit tier is the value, that of a delta tier the delta (R234). -/
theorem payload_eq (s : State) (i : Nat) :
    s.payload i = if (s.symbolTier i).payloadWidth = 32 then s.curWord 2 i else u32 (s.symbolDelta i) := by
  rw [State.payload]
  cases s.symbolTier i <;> rfl

/-- The payload's bits as a signed number: the value itself in the 32-bit tier, else the exact delta (R234, R236). -/
theorem payload_toInt (s : State) (i : Nat) : ((s.payload i).setWidth (s.symbolTier i).payloadWidth).toInt
    = if (s.symbolTier i).payloadWidth = 32 then (s.curWord 2 i).toInt else s.symbolDelta i := by
  rw [payload_eq]
  by_cases hw : (s.symbolTier i).payloadWidth = 32
  · rw [if_pos hw, if_pos hw, hw, BitVec.setWidth_eq]
  · obtain ⟨hlo, hhi⟩ := symbolDelta_fits hw
    have hpos : 0 < (s.symbolTier i).payloadWidth := by cases s.symbolTier i <;> decide
    rw [if_neg hw, if_neg hw, setWidth_u32 (payloadWidth_le _), BitVec.toInt_ofInt_eq_self hpos hlo hhi]

/-- A tier's selector, as ENC_TICK writes it, names its payload width (R145, R214). -/
theorem selectorWidth_selector (t : Tier) :
    selectorWidth ((fieldBits (t.selector.setWidth 32) 2).getD 0 false, (fieldBits (t.selector.setWidth 32) 2).getD 1 false)
      = some t.payloadWidth := by
  cases t <;> rfl

/-- A stream that holds the tiered field of a changed symbol, and the symbol's previous value in VAL, give the symbol's
value (R234, R236). -/
theorem fieldDecodes_of_tieredField {p : Nat} (hcur : (Memory.read s.cur i).isSome = true)
    (hval : (Memory.read s.val i).isSome = true) (hu : Memory.read u.val i = Memory.read s.val i)
    (hchanged : s.changed i = true)
    (hbits : ∀ k, k < (s.tieredField i).length → getBit u.draw u.buf (p + k) = (s.tieredField i).getD k false) :
    fieldDecodes u i p (s.symbolTier i).payloadWidth (wordAt s.cur i).toInt := by
  rw [tieredField_length, if_pos hchanged, State.tieredField, if_pos hchanged] at hbits
  have hselector : ∀ k, k < 2 → getBit u.draw u.buf (p + k)
      = (fieldBits ((s.symbolTier i).selector.setWidth 32) 2).getD k false := fun k hk => by
    rw [hbits k (by omega), List.getD_append _ _ _ _ (by rwa [fieldBits_length])]
  have hpayload : ∀ k, k < (s.symbolTier i).payloadWidth → getBit u.draw u.buf (p + 2 + k)
      = ((s.payload i).setWidth (s.symbolTier i).payloadWidth).getLsbD ((s.symbolTier i).payloadWidth - 1 - k) :=
    fun k hk => by
      rw [Nat.add_assoc, hbits (2 + k) (by omega), List.getD_append_right _ _ _ _ (by rw [fieldBits_length]; omega),
        fieldBits_length, Nat.add_sub_cancel_left, fieldBits_getD _ _ _ hk, BitVec.getLsbD_setWidth,
        decide_eq_true (by omega), Bool.true_and]
  refine ⟨?_, _, hpayload, ?_⟩
  · have h0 := hselector 0 (by decide)
    rw [Nat.add_zero] at h0
    rw [selectorAt, h0, hselector 1 (by decide), selectorWidth_selector]
  · rw [payload_toInt]
    by_cases hw : (s.symbolTier i).payloadWidth = 32
    · exact .inl ⟨hw, by rw [if_pos hw, curWord_of_isSome hcur]⟩
    · refine .inr ⟨hw, by rw [hu]; exact hval, ?_⟩
      rw [if_neg hw, symbolDelta_eq hcur hval, wordAt, wordAt, wordAt, hu]
      omega

/-! ### Where the bits of a record stand -/

/-- The place of symbol `i`'s tiered field in the record: after the bitmap and the fields before it (R150). -/
def fieldStart (s : State) (i : Nat) : Nat := bitmapBits s.symbols + ((List.range i).flatMap s.tieredField).length

theorem fieldStart_succ (s : State) (i : Nat) : fieldStart s (i + 1) = fieldStart s i + (s.tieredField i).length := by
  simp [fieldStart, List.range_succ, Nat.add_assoc]

theorem fieldStart_le {n : Nat} (h : i ≤ n) : fieldStart s i ≤ fieldStart s n :=
  monotone_nat_of_le_succ (fun j => by rw [fieldStart_succ]; omega) h

theorem bitmap_length (s : State) : s.bitmap.length = bitmapBits s.symbols := by simp [State.bitmap]

/-- The padding starts where a field after the last would. -/
theorem fieldStart_symbols (s : State) : fieldStart s s.symbols = s.tickBody.length := by
  rw [fieldStart, State.tickBody, List.length_append, bitmap_length]

/-- Every field starts inside the record, or where its padding does. -/
theorem fieldStart_le_length (h : i ≤ s.symbols) : fieldStart s i ≤ s.tickRecord.length :=
  calc fieldStart s i ≤ fieldStart s s.symbols := fieldStart_le h
    _ = s.tickBody.length := fieldStart_symbols s
    _ ≤ s.tickRecord.length := by rw [State.tickRecord, List.length_append]; exact Nat.le_add_right _ _

/-- Bit `i` of the record is the bitmap bit of symbol `i` (R151). -/
theorem tickRecord_getD_bitmap (hi : i < s.symbols) : s.tickRecord.getD i false = s.changed i := by
  have hin : i < bitmapBits s.symbols := hi.trans_le (le_roundup8 _)
  have hbitmap : i < s.bitmap.length := by rwa [bitmap_length]
  rw [State.tickRecord, State.tickBody, List.append_assoc, List.getD_append _ _ _ _ hbitmap]
  simp [State.bitmap, List.getD, hin, hi]

/-- The bits of symbol `i`'s tiered field stand in the record from `fieldStart` on (R150). -/
theorem tickRecord_getD_field (hi : i < s.symbols) (hk : k < (s.tieredField i).length) :
    s.tickRecord.getD (fieldStart s i + k) false = (s.tieredField i).getD k false := by
  have hend : fieldStart s i + k < s.tickBody.length := by
    have hnext := fieldStart_le (s := s) (i := i + 1) hi
    rw [fieldStart_succ, fieldStart_symbols] at hnext
    omega
  rw [State.tickRecord, List.getD_append _ _ _ _ hend, State.tickBody, fieldStart, Nat.add_assoc,
    List.getD_append_right _ _ _ _ (by rw [bitmap_length]; exact Nat.le_add_right _ _), bitmap_length,
    Nat.add_sub_cancel_left, getD_flatMap_range hi hk]

/-! ### DEC_TICK after ENC_TICK -/

/-- The stream of `u` from RPTR on is the record `s` encodes, and `u` has the previous values of `s` (R239). -/
structure ReadsRecordOf (u s : State) : Prop where
  nsym : u.nsym = s.nsym
  rptr : u.rptr = s.wptr
  fits : s.wptr.toNat + s.tickRecord.length ≤ 8 * u.rlim.toNat
  val : ∀ i, i < s.nsym.toNat → Memory.read u.val i = Memory.read s.val i
  bits : ∀ k, k < s.tickRecord.length → getBit u.draw u.buf (s.wptr.toNat + k) = s.tickRecord.getD k false

theorem ReadsRecordOf.bitmapBit_eq (h : ReadsRecordOf u s) (hi : i < s.symbols) : bitmapBit u i = s.changed i := by
  have hlen : i < s.tickRecord.length := calc
    i < bitmapBits s.symbols := hi.trans_le (le_roundup8 _)
    _ ≤ fieldStart s s.symbols := Nat.le_add_right _ _
    _ ≤ s.tickRecord.length := fieldStart_le_length le_rfl
  rw [bitmapBit, h.rptr, h.bits i hlen, tickRecord_getD_bitmap hi]

/-- A record ENC_TICK wrote decodes, to the values of CUR (R239). -/
theorem ReadsRecordOf.symbolsDecode (h : ReadsRecordOf u s) (hcur : written s.cur 0 s.symbols)
    (hval : written s.val 0 s.symbols) : symbolsDecode u (fun i => s.wptr.toNat + fieldStart s i)
      (fun i => (wordAt s.cur i).toInt) s.symbols := by
  refine ⟨by rw [h.rptr, h.nsym]; rfl, fun i hi => ?_⟩
  have hlt : i < 0 + s.symbols := by omega
  have hnext : fieldStart s (i + 1) ≤ s.tickRecord.length := fieldStart_le_length hi
  have hsucc := fieldStart_succ s i
  have hlen := tieredField_length s i
  rw [h.bitmapBit_eq hi]
  beta_reduce
  cases hchanged : s.changed i with
  | false =>
    rw [hchanged, if_neg (by decide)] at hlen
    rw [if_neg (by decide)]
    omega
  | true =>
    rw [hchanged, if_pos rfl] at hlen
    rw [if_pos rfl]
    have hfit := h.fits
    have hlo : -2147483648 ≤ (wordAt s.cur i).toInt := BitVec.le_toInt _
    have hhi : (wordAt s.cur i).toInt < 2147483648 := BitVec.toInt_lt
    refine ⟨(s.symbolTier i).payloadWidth, ?_, by omega, by omega, hlo, by omega⟩
    refine fieldDecodes_of_tieredField (hcur i (Nat.zero_le i) hlt) (hval i (Nat.zero_le i) hlt) (h.val i hi) hchanged
      fun k hk => ?_
    rw [Nat.add_assoc, h.bits _ (by omega), tickRecord_getD_field hi hk]

/-- A byte of two streams that reads the same holds the same bits, in one step. -/
theorem getBit_congr {d q : Nat} {m m' : List Host.Cell} (h : Memory.read m (q / 8) = Memory.read m' (q / 8)) :
    getBit d m q = getBit d m' q := by
  rw [getBit, getBit, byteOr, byteOr, h]

/-- DEC_TICK over the record of `s` gives CUR back, with the cursor after the record and the encoder's counts (R239). -/
theorem ReadsRecordOf.exec_decTick (h : ReadsRecordOf u s) (hn : u.nsymLegal = true) (hcur : written s.cur 0 s.symbols)
    (hval : written s.val 0 s.symbols) : ∃ v, exec .decTick u = .next (succeeded { u with
        val := v, rptr := BitVec.ofNat 32 (s.wptr.toNat + s.tickRecord.length), tickcnt := u.tickcnt + 1#32
        result := BitVec.ofNat 32 s.changedCount, aux := BitVec.ofNat 32 s.tickRecord.length }) ∧
      (∀ i, i < s.symbols → Memory.read v i = Memory.read s.cur i) ∧
      (∀ i, s.symbols ≤ i → Memory.read v i = Memory.read u.val i) := by
  obtain ⟨h1, h2⟩ := nsymLegal_iff.mp hn
  have hsymbols : u.nsym.toNat = s.symbols := by rw [h.nsym]; rfl
  have hdecodes := h.symbolsDecode hcur hval
  have hbitmap : u.rptr.toNat + 8 * ((u.nsym.toNat + 7) / 8) ≤ 8 * u.rlim.toNat := by
    have hstart : s.wptr.toNat + fieldStart s 0 = u.rptr.toNat + 8 * ((u.nsym.toNat + 7) / 8) := hdecodes.1
    have hlen : fieldStart s 0 ≤ s.tickRecord.length := fieldStart_le_length (Nat.zero_le _)
    have hfit := h.fits
    omega
  rw [← hsymbols] at hdecodes
  obtain ⟨v, hexec, hnew, hkept, hbeyond⟩ := decTickDecodesStream u _ _ h1 h2 hbitmap hdecodes
  have hend : 8 * ((s.wptr.toNat + fieldStart s u.nsym.toNat + 7) / 8) = s.wptr.toNat + s.tickRecord.length := by
    rw [hsymbols, fieldStart_symbols, wptr_add_tickRecord_length, roundup8]
  have hcount : (List.range u.nsym.toNat).countP (bitmapBit u) = s.changedCount := by
    rw [hsymbols]
    exact List.countP_congr fun i hi => by rw [h.bitmapBit_eq (List.mem_range.mp hi)]
  have hlength : s.wptr.toNat + s.tickRecord.length - u.rptr.toNat = s.tickRecord.length := by
    rw [h.rptr, Nat.add_sub_cancel_left]
  simp only [hend, hcount, hlength] at hexec
  rw [hsymbols] at hnew hkept hbeyond
  refine ⟨v, hexec, fun i hi => ?_, hbeyond⟩
  have hc := hcur i (Nat.zero_le i) (by omega)
  have hv := hval i (Nat.zero_le i) (by omega)
  cases hchanged : s.changed i with
  | true =>
    rw [hnew i hi (by rw [h.bitmapBit_eq hi, hchanged]), BitVec.ofInt_toInt, ← curWord_of_isSome hc 0,
      some_curWord_of_isSome hc]
  | false =>
    have hsame : s.curWord 0 i = s.valWord 0 i := by simpa [State.changed] using hchanged
    rw [hkept i hi (by rw [h.bitmapBit_eq hi, hchanged]) (by rw [h.val i hi]; exact hv), h.val i hi,
      ← some_valWord_of_isSome hv 0, ← hsame, some_curWord_of_isSome hc]

/-- Settles O29: the bytes `u` shares with the encoder's result hold the whole record. -/
theorem decTickInvertsEncTick : Obligations.DecTickInvertsEncTick := by
  intro s t u hp hcur hval hx hok hparams hnsym hrptr hlimit hvals hbytes
  rcases execEncTick_cases hx with ⟨hn, hfit, rfl⟩ | ⟨_, _, rfl⟩ | ⟨_, rfl⟩
  · rw [commit_wptr, toNat_ofNat_position hp hfit] at hlimit hbytes
    have hreads : ReadsRecordOf u s :=
      { nsym := hnsym, rptr := hrptr, fits := hlimit, val := hvals
        bits := fun k hk => by
          rw [getBit_congr (hbytes _ (by omega) (by omega)), commit_buf, getBit_putBits_in (by omega) (by omega),
            Nat.add_sub_cancel_left] }
    have hlegal : u.nsymLegal = true := by
      rw [nsymLegal_iff, hnsym, hparams]
      exact nsymLegal_iff.mp hn
    exact hreads.exec_decTick hlegal hcur hval
  · cases hok
  · cases hok

end Sys2Proof.Machine
end

section
/-! PROOFS. The CRC32 engine (43_crc.md R270 to R279): bytes of BUF fed one after another, the commands that feed them, and
the word CRC_EMIT stores and CRC_CHECK reads. -/

namespace Sys2Proof.Machine

variable {s t : State} {a n : Nat}

/-! ### Bytes fed one after another -/

/-- `crc_update` is the byte XORed in and eight shifts (R271). -/
theorem crcUpdate_eq_iterate (st : Word) (b : Byte) : crcUpdate st b = crcShift^[8] (st ^^^ b.setWidth 32) := rfl

theorem crcFeed_append (st : Word) (xs ys : List Byte) : crcFeed st (xs ++ ys) = crcFeed (crcFeed st xs) ys :=
  List.foldl_append

/-- The bytes of a region are fed in ascending address order (R275). -/
theorem crcFeed_bufBytes (s : State) (st : Word) (a n : Nat) :
    crcFeed st (s.bufBytes a n) = (List.range n).foldl (fun st k => crcUpdate st (byteOr s.draw s.buf (a + k))) st :=
  List.foldl_map

/-- A region is its first bytes and the rest. -/
theorem bufBytes_add (s : State) (a m n : Nat) : s.bufBytes a (m + n) = s.bufBytes a m ++ s.bufBytes (a + m) n := by
  simp only [State.bufBytes, List.range_add, List.map_append, List.map_map, Function.comp_def, Nat.add_assoc]

/-- A byte of BUF that has been written reads as it was written, in every step (R361). -/
theorem bufByte_of_read {b : Byte} (h : Memory.read s.buf a = some b) : s.bufByte a = b := by
  rw [State.bufByte, byteOr, h, Option.getD_some]

theorem bufBytes_of_read {f : Nat → Byte} (h : ∀ k, k < n → Memory.read s.buf (a + k) = some (f k)) :
    s.bufBytes a n = (List.range n).map f :=
  List.map_congr_left fun k hk => bufByte_of_read (h k (List.mem_range.mp hk))

/-- Two states with the same BUF read the same bytes of a written region, in whichever steps. -/
theorem bufBytes_of_written (hw : written s.buf a n) (hbuf : t.buf = s.buf) : t.bufBytes a n = s.bufBytes a n := by
  refine List.map_congr_left fun k hmem => ?_
  have hk : k < n := List.mem_range.mp hmem
  rw [State.bufByte, State.bufByte, hbuf, byteOr_of_isSome (hw (a + k) (by omega) (by omega))]

/-! ### CRC_INIT, CRC_BYTE and CRC_RANGE -/

/-- Settles O17, by the one thing CRC_INIT can do. -/
theorem crcInitStartsChecksum : Obligations.CrcInitStartsChecksum := by
  refine ⟨decode_encode (i := .crcInit) rfl, fun s => ?_⟩
  obtain ⟨t, hx⟩ := exec_answers .crcInit s
  rw [hx, execCrcInit_cases hx, commit_eq_succeeded]

/-- Settles O18: `crc_update` as eight shifts, and the word of every byte decodes to its command. -/
theorem crcByteFeedsByte : Obligations.CrcByteFeedsByte := by
  refine ⟨fun b => decode_encode (i := .crcByte b) rfl, fun s b => ?_⟩
  obtain ⟨t, hx⟩ := exec_answers (.crcByte b) s
  rw [hx, execCrcByte_cases hx, commit_eq_succeeded, crcUpdate_eq_iterate]
  rfl

/-- CRC_RANGE over `n` bytes at address `a` that lie in BUF feeds them (R275). -/
theorem exec_crcRange_of_fit (ha : s.arg0.toNat = a) (hn : s.arg1.toNat = n) (hfit : a + n ≤ s.params.bufBytes) :
    exec .crcRange s = .next (succeeded { s with crcState := crcFeed s.crcState (s.bufBytes a n) }) := by
  subst ha hn
  obtain ⟨t, hx⟩ := exec_answers .crcRange s
  rcases execCrcRange_cases hx with ⟨_, rfl⟩ | ⟨hpast, _⟩
  · exact hx
  · omega

/-- Settles O19: the range fits and is fed, or it passes the end of BUF. -/
theorem crcRangeFeedsBytes : Obligations.CrcRangeFeedsBytes := by
  refine ⟨decode_encode (i := .crcRange) rfl, fun s => ⟨fun hfit => ?_, fun hpast => ?_⟩⟩
  · rw [exec_crcRange_of_fit rfl rfl hfit, crcFeed_bufBytes]
  · obtain ⟨t, hx⟩ := exec_answers .crcRange s
    rcases execCrcRange_cases hx with ⟨hfit, _⟩ | ⟨_, rfl⟩
    · omega
    · rw [hx, raise_byteRange]

/-- CRC_STATE after the nine bytes of the check string (R270). -/
theorem crcFeed_checkString : crcFeed 0xFFFFFFFF#32 ((List.range 9).map fun k => BitVec.ofNat 8 (0x31 + k))
    = 0x340BC6D9#32 := by decide +kernel

/-- Settles O20: the bytes CRC_RANGE feeds are the check string, whatever their address. -/
theorem crcCheckValue : Obligations.CrcCheckValue := by
  intro s harg1 hfit hstate hbytes
  have hfed : crcFeed s.crcState (s.bufBytes s.arg0.toNat 9) = 0x340BC6D9#32 := by
    rw [bufBytes_of_read hbytes, hstate, crcFeed_checkString]
  exact ⟨_, exec_crcRange_of_fit rfl (congrArg BitVec.toNat harg1) hfit, hfed, congrArg (· ^^^ 0xFFFFFFFF#32) hfed⟩

/-- CRC_RANGE with its operands set to a region in BUF changes CRC_STATE and neither BUF nor its size. -/
theorem crcRange_feeds {p q : Word} (hx : exec .crcRange { s with arg0 := p, arg1 := q } = .next t)
    (hp : p.toNat = a) (hq : q.toNat = n) (hfit : a + n ≤ s.params.bufBytes) :
    t.params = s.params ∧ t.buf = s.buf ∧ t.crcState = crcFeed s.crcState (s.bufBytes a n) := by
  cases hx.symm.trans (exec_crcRange_of_fit hp hq hfit)
  exact ⟨rfl, rfl, rfl⟩

/-- Settles O21: both ways feed the bytes of the two parts, and the second command finds BUF as the first did. -/
theorem crcRangeSplits : Obligations.CrcRangeSplits := by
  intro s u v n1 n2 hp hfit hw hu hv
  have hword (k : Nat) (hk : k ≤ s.params.bufBytes) : (BitVec.ofNat 32 k).toNat = k :=
    toNat_ofNat_position hp (hk.trans (Nat.le_mul_of_pos_left _ (by decide)))
  obtain ⟨hparams, hbuf, hfirst⟩ := crcRange_feeds (s := s) hu rfl (hword n1 (by omega)) (by omega)
  obtain ⟨-, -, hsecond⟩ := crcRange_feeds (s := u) hv (hword _ (by omega)) (hword n2 (by omega)) (hparams ▸ hfit)
  refine ⟨_, exec_crcRange_of_fit rfl (hword (n1 + n2) (by omega)) ((Nat.add_assoc _ _ _).symm.trans_le hfit), ?_⟩
  have hrest : written s.buf (s.arg0.toNat + n1) n2 := fun j h1 h2 => hw j (by omega) (by omega)
  calc crcFeed s.crcState (s.bufBytes s.arg0.toNat (n1 + n2))
      = crcFeed (crcFeed s.crcState (s.bufBytes s.arg0.toNat n1)) (s.bufBytes (s.arg0.toNat + n1) n2) := by
        rw [bufBytes_add, crcFeed_append]
    _ = v.crcState := by rw [hsecond, hfirst, bufBytes_of_written hrest hbuf]

/-! ### CRC_EMIT and CRC_CHECK -/

/-- A word is its four bytes, most significant first (R16). -/
theorem append_bytes_eq (w : Word) :
    w.extractLsb' 24 8 ++ w.extractLsb' 16 8 ++ w.extractLsb' 8 8 ++ w.extractLsb' 0 8 = w := by
  rw [BitVec.extractLsb'_append_extractLsb'_eq_extractLsb' (show 24 = 16 + 8 from rfl),
    BitVec.extractLsb'_append_extractLsb'_eq_extractLsb' (show 16 = 8 + 8 from rfl),
    BitVec.extractLsb'_append_extractLsb'_eq_extractLsb' (show 8 = 0 + 8 from rfl)]
  exact BitVec.extractLsb'_eq_self

/-- Byte `k` of a word stored big-endian at address `a` (R97). -/
theorem read_bytesBE {m : List Host.Cell} (w : Word) {k : Nat} (hk : k < 4) :
    Memory.read (Memory.writeAll m a (bytesBE w)) (a + k) = some (w.extractLsb' (8 * (3 - k)) 8) := by
  rw [Memory.read_writeAll, if_pos ⟨Nat.le_add_right a k, Nat.add_lt_add_left hk a⟩, Nat.add_sub_cancel_left]
  match k with
  | 0 | 1 | 2 | 3 => rfl

/-- A word stored at address `a` touches no byte but its four (R277). -/
theorem read_bytesBE_other {m : List Host.Cell} (w : Word) {k : Nat} (hk : k < a ∨ a + 4 ≤ k) :
    Memory.read (Memory.writeAll m a (bytesBE w)) k = Memory.read m k := by
  rw [Memory.read_writeAll, if_neg (by simp only [bytesBE, List.length_cons, List.length_nil]; omega)]

/-- Settles O23: the word fits and is stored, or it passes the end of BUF. -/
theorem crcEmitStoresWord : Obligations.CrcEmitStoresWord := by
  refine ⟨decode_encode (i := .crcEmit) rfl, fun s => ?_⟩
  obtain ⟨t, hx⟩ := exec_answers .crcEmit s
  rw [hx]
  rcases execCrcEmit_cases hx with ⟨hfit, rfl⟩ | ⟨hpast, rfl⟩
  · exact ⟨fun _ => ⟨_, rfl, fun _ hk => read_bytesBE s.crcResult hk, fun _ ha => read_bytesBE_other s.crcResult ha⟩,
      fun _ => by omega⟩
  · exact ⟨fun _ => by omega, fun _ => congrArg _ (raise_byteRange s)⟩

/-- Settles O22: each case of CRC_CHECK leaves the state the statement names for it. -/
theorem crcCheckCompares : Obligations.CrcCheckCompares := by
  refine ⟨fun layer hl => decode_encode (i := .crcCheck layer) (bne_iff_ne.mpr hl), fun s layer hl => ?_, fun s => ?_⟩
  · obtain ⟨t, hx⟩ := exec_answers (.crcCheck layer) s
    rw [hx]
    congr 1
    rcases execCrcCheck_cases hx with ⟨_, hfit, hmatch, rfl⟩ | ⟨_, hfit, hdiff, rfl⟩ | ⟨_, hpast, rfl⟩ | ⟨hreserved, _⟩
    · exact ((if_neg (Nat.not_lt.mpr hfit)).trans (if_pos hmatch)).symm
    · exact (raise_mismatch s layer).trans ((if_neg (Nat.not_lt.mpr hfit)).trans (if_neg hdiff)).symm
    · rw [if_pos hpast, raise_byteRange]
    · exact absurd hreserved hl
  · obtain ⟨t, hx⟩ := exec_answers (.crcCheck 3#2) s
    rw [hx]
    rcases execCrcCheck_cases hx with ⟨hl, _⟩ | ⟨hl, _⟩ | ⟨hl, _⟩ | ⟨_, rfl⟩
    · exact absurd rfl hl
    · exact absurd rfl hl
    · exact absurd rfl hl
    · exact congrArg _ (raise_illegalWord s _)

/-- Four bytes stored big-endian read back as their word, in every step (R97). -/
theorem bufWordBE_of_stored {w : Word}
    (h : ∀ k, k < 4 → Memory.read s.buf (a + k) = some (w.extractLsb' (8 * (3 - k)) 8)) : s.bufWordBE a = w := by
  have hbyte (k : Nat) (hk : k < 4) : s.bufByte (a + k) = w.extractLsb' (8 * (3 - k)) 8 := bufByte_of_read (h k hk)
  have hfirst : s.bufByte a = w.extractLsb' 24 8 := hbyte 0 (by decide)
  calc s.bufWordBE a
      = w.extractLsb' 24 8 ++ w.extractLsb' 16 8 ++ w.extractLsb' 8 8 ++ w.extractLsb' 0 8 := by
        rw [State.bufWordBE, wordOfBytes, hfirst, hbyte 1 (by decide), hbyte 2 (by decide), hbyte 3 (by decide)]
    _ = w := append_bytes_eq w

/-- Settles O24: the four bytes CRC_EMIT leaves in BUF are those of the CRC, which it does not change. -/
theorem emitThenCheckSucceeds : Obligations.EmitThenCheckSucceeds := by
  intro s t layer hl hfit hx
  obtain ⟨u, hcheck⟩ := exec_answers (.crcCheck layer) t
  rcases execCrcEmit_cases hx with ⟨_, rfl⟩ | ⟨hpast, _⟩
  · rcases execCrcCheck_cases hcheck with ⟨_, _, _, rfl⟩ | ⟨_, _, hdiff, _⟩ | ⟨_, hpast, _⟩ | ⟨hreserved, _⟩
    · exact hcheck
    · exact absurd (bufWordBE_of_stored fun k hk => read_bytesBE s.crcResult hk) hdiff
    · exact absurd hfit (Nat.not_le.mpr hpast)
    · exact absurd hreserved hl
  · exact absurd hfit (Nat.not_le.mpr hpast)

end Sys2Proof.Machine
end

section
/-! PROOFS. Engine control (44_control.md R300 to R308): the host's write to CMD, writes while busy, the completion of a
command word, legal or not, and what a successful command may write. -/

namespace Sys2Proof.Machine

variable {s t : State} {c v : Word} {rest : List HostOp}

/-! ### A completing word -/

/-- A due word that decodes runs its command (R303, R307). -/
theorem completeWord_of_decode {i : Instr} (h : decode c = .ok i) : completeWord c s = exec i s := by
  simp only [completeWord, h]

/-- A due word that does not decode raises ILLEGAL_COMMAND (R305). -/
theorem completeWord_of_reject {e : DecodeReject} (h : decode c = .error e) :
    completeWord c s = .next (raiseError s (illegalWord c)) := by
  simp only [completeWord, h]

/-- Settles O8: a due word completes, and one that decodes runs its command. -/
theorem stepRunsDecodedCommand : Obligations.StepRunsDecodedCommand := by
  intro s c i hs hd
  rw [step_due hs, completeWord_of_decode hd]

/-- Settles O9: a word that is not legal does not decode. -/
theorem illegalWordRaises : Obligations.IllegalWordRaises := by
  intro s c hs hillegal
  match hd : decode c with
  | .ok i =>
    have hlegal : legalWord c = true := (legalWordsAreTheTableRows c).mpr ⟨i, hd⟩
    exact absurd (hlegal.symm.trans hillegal) (by decide)
  | .error e => rw [step_due hs, completeWord_of_reject hd, raise_illegalWord]

/-- Settles O16: NOP commits the state as it is. -/
theorem nopCompletes : Obligations.NopCompletes :=
  ⟨decode_encode (i := .nop) rfl, fun s => complete_ok (s := s) s⟩

/-- Every command's meaning is one completion (R302). -/
theorem exec_eq_complete (i : Instr) (s : State) : ∃ r, exec i s = complete s r := by
  cases i with
  | nop | crcInit | crcByte | analyze => exact ⟨.ok _, rfl⟩
  | _ => exact ⟨_, rfl⟩

/-- A due word completes once, whether it is a command or not (R302, R305). -/
theorem completeWord_eq_complete (c : Word) (s : State) : ∃ r, completeWord c s = complete s r := by
  match hd : decode c with
  | .ok i => rw [completeWord_of_decode hd]; exact exec_eq_complete i s
  | .error e => rw [completeWord_of_reject hd]; exact ⟨.error (illegalWord c), rfl⟩

/-- Settles O56: a completion commits or raises an error, and both clear BUSY and set DONE. -/
theorem completionSetsDone : Obligations.CompletionSetsDone := by
  intro s t c hs hstep
  obtain ⟨r, hr⟩ := completeWord_eq_complete c s
  rw [step_due hs, hr] at hstep
  rcases complete_cases hstep with ⟨_, _, rfl⟩ | ⟨_, _, rfl⟩
  · exact ⟨rfl, rfl⟩
  · exact ⟨rfl, rfl⟩

/-! ### The host's writes -/

/-- A legal write to a busy engine that is no soft reset is dropped and sets OVERRUN (R301). -/
theorem hostStep_write_dropped {w : AccessWidth} {off : Offset} (hb : s.busy = true)
    (hh : s.host = .write w off v :: rest) (hl : legalAccess w off = true) (hr : isSoftReset w off v = false) :
    hostStep s = { s with overrun := true, host := rest, draw := s.draw + 1 } := by
  rw [hostStep_cons hh, hostOp]
  rcases hostWrite_busy (s := { s with host := rest }) w off v hb with ⟨hl', _⟩ | ⟨_, _, he⟩ | ⟨hr', _⟩
  · exact absurd (hl.symm.trans hl') (by decide)
  · rw [he]; rfl
  · exact absurd (hr'.symm.trans hr) (by decide)

/-- Settles O42: with one step less to go the engine is still busy, and the host's write to it is dropped. -/
theorem writeWhileBusyIsDropped : Obligations.WriteWhileBusyIsDropped := by
  intro s w off v c k rest hh hs hl hno
  have hr : isSoftReset w off v = false :=
    Bool.eq_false_iff.mpr fun h => hno (isSoftReset_iff.mp h).2
  rw [step_busy hs, hostStep_write_dropped (s := countDown _ k s) rfl hh hl hr]
  rfl

/-- A CMD write while an error is latched is rejected (R300, R328). -/
theorem issue_of_err (h : s.errFlag = true) : issue c s = { s with reject := true } := if_pos h

/-- A CMD write while no error is latched starts its command (R300). -/
theorem issue_of_noErr (h : s.errFlag = false) :
    issue c s = { s with inFlight := some { word := c, remaining := Config.latency s.draw } } :=
  if_neg (Bool.eq_false_iff.mp h)

/-- Settles O41: 0x14 is the offset of CMD, where a write while busy is one of those dropped. -/
theorem cmdWriteStartsOrRejects : Obligations.CmdWriteStartsOrRejects := by
  intro s c rest hh
  refine ⟨fun w k hs => writeWhileBusyIsDropped s _ _ _ w k rest hh hs (legalAccess_reg .cmd) (by simp),
    fun hs herr => ?_, fun hs herr => ⟨Config.latency s.draw, ?_⟩⟩
  · rw [step_writeReg (r := .cmd) hs hh, writeReg, issue_of_err (s := { s with host := rest }) herr]
    rfl
  · rw [step_writeReg (r := .cmd) hs hh, writeReg, issue_of_noErr (s := { s with host := rest }) herr]
    rfl

/-! ### What a successful command writes -/

/-- `s` with the registers and RAMs that the command's row of R308 lists taken from `t`. -/
def rowWrites (i : Instr) (s t : State) : State :=
  match i with
  | .nop => s
  | .crcInit => { s with crcState := t.crcState }
  | .crcByte _ => { s with crcState := t.crcState }
  | .crcRange => { s with crcState := t.crcState }
  | .crcCheck _ => s
  | .crcEmit => { s with buf := t.buf }
  | .refCapture => { s with val := t.val, wptr := t.wptr, tickcnt := t.tickcnt, buf := t.buf }
  | .refLoad => { s with val := t.val, rptr := t.rptr, tickcnt := t.tickcnt }
  | .encTick => { s with
      val := t.val, wptr := t.wptr, tickcnt := t.tickcnt, result := t.result, aux := t.aux, buf := t.buf }
  | .decTick => { s with val := t.val, rptr := t.rptr, tickcnt := t.tickcnt, result := t.result, aux := t.aux }
  | .analyze => { s with result := t.result, aux := t.aux }
  | .wbits _ => { s with wptr := t.wptr, buf := t.buf }
  | .rbits _ => { s with rptr := t.rptr, result := t.result }
  | .wflush => { s with wptr := t.wptr, buf := t.buf }
  | .ralign => { s with rptr := t.rptr }

/-- How a successful command leaves BUF: as it was, with the four bytes of CRC_EMIT, or with bits appended at WPTR. -/
inductive BufEffect (i : Instr) (s t : State) : Prop where
  | kept (hbuf : t.buf = s.buf)
  | emitted (hi : i = .crcEmit) (w : Word) (hbuf : t.buf = Memory.writeAll s.buf s.arg0.toNat (bytesBE w))
  | appended (hi : i ≠ .crcEmit) (bits : List Bool) (hfit : s.wptr.toNat + bits.length ≤ 8 * s.params.bufBytes)
    (hbuf : t.buf = putBits s.draw s.buf s.wptr.toNat bits)
    (hwptr : t.wptr = BitVec.ofNat 32 (s.wptr.toNat + bits.length))

/-- CRC_EMIT writes no byte but the four at ARG0 (R277). -/
theorem BufEffect.read_eq_of_crcEmit {i : Instr} (h : BufEffect i s t) (hi : i = .crcEmit) {a : Nat}
    (ha : a < s.arg0.toNat ∨ s.arg0.toNat + 4 ≤ a) : Memory.read t.buf a = Memory.read s.buf a := by
  cases h with
  | kept hbuf => rw [hbuf]
  | emitted _ w hbuf => rw [hbuf, read_bytesBE_other w ha]
  | appended hne => exact absurd hi hne

/-- Every other command writes only the bits from WPTR up to the WPTR it leaves (R183, R189). -/
theorem BufEffect.eq_outside_cursors {i : Instr} (h : BufEffect i s t) (hi : i ≠ .crcEmit) (hp : s.params.wf = true) :
    (∀ a, (∀ q, s.wptr.toNat ≤ q → q < t.wptr.toNat → q / 8 ≠ a) → Memory.read t.buf a = Memory.read s.buf a) ∧
      ∀ d q, (q < s.wptr.toNat ∨ t.wptr.toNat ≤ q) → (Memory.read s.buf (q / 8)).isSome = true →
        getBit d t.buf q = getBit d s.buf q := by
  cases h with
  | kept hbuf => rw [hbuf]; exact ⟨fun _ _ => rfl, fun _ _ _ _ => rfl⟩
  | emitted hemit => exact absurd hemit hi
  | appended _ bits hfit hbuf hwptr =>
    obtain ⟨_, hother, hread⟩ := bitsWritten_putBits (d := s.draw) (p := s.wptr.toNat) (m := s.buf)
      (bits := bits) rfl fun _ _ => rfl
    rw [hbuf, hwptr, toNat_ofNat_position hp hfit]
    exact ⟨hread, hother⟩

/-- A successful command commits the writes of its row of R308, and BUF is left in one of the three ways. -/
theorem exec_success {i : Instr} (hx : exec i s = .next t) (hok : t.errFlag = false) :
    t = succeeded (rowWrites i s t) ∧ BufEffect i s t := by
  cases i with
  | nop => obtain rfl := execNop_cases hx; exact ⟨rfl, .kept rfl⟩
  | crcInit => obtain rfl := execCrcInit_cases hx; exact ⟨rfl, .kept rfl⟩
  | crcByte b => obtain rfl := execCrcByte_cases hx; exact ⟨rfl, .kept rfl⟩
  | analyze => obtain rfl := execAnalyze_cases hx; exact ⟨rfl, .kept rfl⟩
  | crcRange =>
    rcases execCrcRange_cases hx with ⟨_, rfl⟩ | ⟨_, rfl⟩
    · exact ⟨rfl, .kept rfl⟩
    · cases hok
  | crcCheck layer =>
    rcases execCrcCheck_cases hx with ⟨_, _, _, rfl⟩ | ⟨_, _, _, rfl⟩ | ⟨_, _, rfl⟩ | ⟨_, rfl⟩
    · exact ⟨rfl, .kept rfl⟩
    all_goals cases hok
  | crcEmit =>
    rcases execCrcEmit_cases hx with ⟨_, rfl⟩ | ⟨_, rfl⟩
    · exact ⟨rfl, .emitted rfl s.crcResult rfl⟩
    · cases hok
  | refCapture =>
    rcases execRefCapture_cases hx with ⟨_, hfit, rfl⟩ | ⟨_, _, rfl⟩ | ⟨_, rfl⟩
    · exact ⟨rfl, .appended nofun s.frameBits hfit rfl rfl⟩
    all_goals cases hok
  | refLoad =>
    rcases execRefLoad_cases hx with ⟨_, _, rfl⟩ | ⟨_, _, rfl⟩ | ⟨_, rfl⟩
    · exact ⟨rfl, .kept rfl⟩
    all_goals cases hok
  | encTick =>
    rcases execEncTick_cases hx with ⟨_, hfit, rfl⟩ | ⟨_, _, rfl⟩ | ⟨_, rfl⟩
    · exact ⟨rfl, .appended nofun s.tickRecord hfit rfl rfl⟩
    all_goals cases hok
  | decTick =>
    rcases execDecTick_cases hx with ⟨_, d, _, _, _, _, _, rfl⟩ | ⟨_, _, _, _, rfl⟩ | ⟨_, rfl⟩
    · exact ⟨rfl, .kept rfl⟩
    all_goals cases hok
  | wbits w =>
    rcases execWbits_cases hx with ⟨_, hfit, rfl⟩ | ⟨_, _, rfl⟩ | ⟨_, rfl⟩
    · have hlen := fieldBits_length s.arg0 w.toNat
      exact ⟨rfl, .appended nofun (fieldBits s.arg0 w.toNat) (by rwa [hlen]) rfl (by rw [hlen]; rfl)⟩
    all_goals cases hok
  | rbits w =>
    rcases execRbits_cases hx with ⟨_, _, rfl⟩ | ⟨_, _, rfl⟩ | ⟨_, rfl⟩
    · exact ⟨rfl, .kept rfl⟩
    all_goals cases hok
  | wflush =>
    rcases execWflush_cases hx with ⟨hfit, rfl⟩ | ⟨_, rfl⟩
    · have hlen := zeroBits_length (padTo8 s.wptr.toNat)
      exact ⟨rfl, .appended nofun (zeroBits (padTo8 s.wptr.toNat)) (by rwa [hlen]) rfl (by rw [hlen]; rfl)⟩
    · cases hok
  | ralign =>
    rcases execRalign_cases hx with ⟨_, rfl⟩ | ⟨_, rfl⟩
    · exact ⟨rfl, .kept rfl⟩
    · cases hok

/-- Settles O12: the row and BUF by `exec_success`, and the words of VAL from NSYM up as for R100. -/
theorem commandsWriteOnlyTheirRow : Obligations.CommandsWriteOnlyTheirRow := by
  intro i s t _ hx hok
  obtain ⟨hrow, hbuf⟩ := exec_success hx hok
  obtain ⟨_, hval⟩ := exec_keeps_words hx
  refine ⟨?_, hval, fun hi _ ha => hbuf.read_eq_of_crcEmit hi ha, fun hi hp => hbuf.eq_outside_cursors hi hp⟩
  cases i <;> exact hrow

end Sys2Proof.Machine
end

section
/-! PROOFS. Command errors (60_exceptions.md R320 to R333): a completion commits its row of R308 or raises an error of its
row of R323, and what follows for the error latch, for `irq` and for every step. -/

namespace Sys2Proof.Machine

variable {s t : State}

/-! ### What a completion can do -/

/-- The errors a command can raise: ILLEGAL_COMMAND and those of its row of R323. -/
def rowErrors (i : Instr) : List ErrCode :=
  .illegalCommand :: match i with
    | .nop | .crcInit | .crcByte _ | .analyze => []
    | .crcRange | .crcEmit | .wbits _ | .wflush => [.bufferRange]
    | .crcCheck _ => [.bufferRange, .checksumMismatch]
    | .refCapture | .encTick => [.badConfig, .bufferRange]
    | .refLoad => [.badConfig, .truncatedStream]
    | .decTick => [.badConfig, .truncatedStream, .deltaRangeViolation]
    | .rbits _ | .ralign => [.truncatedStream]

/-- The decoder's errors are in DEC_TICK's row. -/
theorem isDecodeError.mem_rowErrors {e : CmdError} (h : isDecodeError e) :
    (rowErrors .decTick).contains e.code = true := by
  rcases h with h | h <;> rw [h] <;> rfl

/-- A command commits the writes of its row of R308, or changes nothing and raises an error of its row of R323. -/
theorem exec_commits_or_raises {i : Instr} (hx : exec i s = .next t) :
    t = succeeded (rowWrites i s t) ∨ ∃ e, t = raiseError s e ∧ (rowErrors i).contains e.code = true := by
  cases i with
  | nop => obtain rfl := execNop_cases hx; exact .inl rfl
  | crcInit => obtain rfl := execCrcInit_cases hx; exact .inl rfl
  | crcByte b => obtain rfl := execCrcByte_cases hx; exact .inl rfl
  | analyze => obtain rfl := execAnalyze_cases hx; exact .inl rfl
  | crcRange =>
    rcases execCrcRange_cases hx with ⟨_, rfl⟩ | ⟨_, rfl⟩
    · exact .inl rfl
    · exact .inr ⟨s.byteRange, rfl, rfl⟩
  | crcCheck layer =>
    rcases execCrcCheck_cases hx with ⟨_, _, _, rfl⟩ | ⟨_, _, _, rfl⟩ | ⟨_, _, rfl⟩ | ⟨_, rfl⟩
    · exact .inl rfl
    · exact .inr ⟨s.mismatch layer, rfl, rfl⟩
    · exact .inr ⟨s.byteRange, rfl, rfl⟩
    · exact .inr ⟨illegalWord _, rfl, rfl⟩
  | crcEmit =>
    rcases execCrcEmit_cases hx with ⟨_, rfl⟩ | ⟨_, rfl⟩
    · exact .inl rfl
    · exact .inr ⟨s.byteRange, rfl, rfl⟩
  | refCapture =>
    rcases execRefCapture_cases hx with ⟨_, _, rfl⟩ | ⟨_, _, rfl⟩ | ⟨_, rfl⟩
    · exact .inl rfl
    · exact .inr ⟨s.writerRange, rfl, rfl⟩
    · exact .inr ⟨s.badConfig, rfl, rfl⟩
  | refLoad =>
    rcases execRefLoad_cases hx with ⟨_, _, rfl⟩ | ⟨_, _, rfl⟩ | ⟨_, rfl⟩
    · exact .inl rfl
    · exact .inr ⟨truncated _ _, rfl, rfl⟩
    · exact .inr ⟨s.badConfig, rfl, rfl⟩
  | encTick =>
    rcases execEncTick_cases hx with ⟨_, _, rfl⟩ | ⟨_, _, rfl⟩ | ⟨_, rfl⟩
    · exact .inl rfl
    · exact .inr ⟨s.writerRange, rfl, rfl⟩
    · exact .inr ⟨s.badConfig, rfl, rfl⟩
  | decTick =>
    rcases execDecTick_cases hx with ⟨_, d, _, _, _, _, _, rfl⟩ | ⟨_, e, _, he, rfl⟩ | ⟨_, rfl⟩
    · exact .inl rfl
    · exact .inr ⟨e, rfl, he.mem_rowErrors⟩
    · exact .inr ⟨s.badConfig, rfl, rfl⟩
  | wbits w =>
    rcases execWbits_cases hx with ⟨_, _, rfl⟩ | ⟨_, _, rfl⟩ | ⟨_, rfl⟩
    · exact .inl rfl
    · exact .inr ⟨s.writerRange, rfl, rfl⟩
    · exact .inr ⟨illegalWord _, rfl, rfl⟩
  | rbits w =>
    rcases execRbits_cases hx with ⟨_, _, rfl⟩ | ⟨_, _, rfl⟩ | ⟨_, rfl⟩
    · exact .inl rfl
    · exact .inr ⟨truncated _ _, rfl, rfl⟩
    · exact .inr ⟨illegalWord _, rfl, rfl⟩
  | wflush =>
    rcases execWflush_cases hx with ⟨_, rfl⟩ | ⟨_, rfl⟩
    · exact .inl rfl
    · exact .inr ⟨s.writerRange, rfl, rfl⟩
  | ralign =>
    rcases execRalign_cases hx with ⟨_, rfl⟩ | ⟨_, rfl⟩
    · exact .inl rfl
    · exact .inr ⟨truncated _ _, rfl, rfl⟩

/-! ### The error latch -/

/-- No row of R308 writes STATUS.ERR or INT_EN. -/
theorem rowWrites_errFlag (i : Instr) (s t : State) : (rowWrites i s t).errFlag = s.errFlag := by cases i <;> rfl

theorem rowWrites_intEn (i : Instr) (s t : State) : (rowWrites i s t).intEn = s.intEn := by cases i <;> rfl

/-- A command that ends with ERR newly set has raised an error of its row and done nothing else (R323, R325). -/
theorem exec_raises_of_errFlag {i : Instr} (hs : s.errFlag = false) (hx : exec i s = .next t) (ht : t.errFlag = true) :
    ∃ e, t = raiseError s e ∧ (rowErrors i).contains e.code = true := by
  rcases exec_commits_or_raises hx with hok | herr
  · have hkept : t.errFlag = s.errFlag := by rw [hok]; exact rowWrites_errFlag i s t
    rw [hkept, hs] at ht
    cases ht
  · exact herr

/-- Settles O10: the command raised an error, whose latch values are those `t` holds. -/
theorem errorsArePrecise : Obligations.ErrorsArePrecise := by
  intro i s t hs hx ht
  obtain ⟨e, rfl, _⟩ := exec_raises_of_errFlag hs hx ht
  exact raiseError_eq_errored s e

/-- ERR[3:0] is the code of the error (R41, R321). -/
theorem errWord_code (e : CmdError) : e.errWord.extractLsb' 0 4 = e.code.toCode := by
  obtain ⟨c, info, sym, layer⟩ := e
  simp only [CmdError.errWord, CmdError.layerField]
  clear info sym
  revert layer
  cases c <;> decide

/-- Settles O11: the CODE bits are those of an error of the command's row, and the list of R323 is that row's codes. -/
theorem errorsByCommand : Obligations.ErrorsByCommand := by
  intro i s t hs hx ht
  obtain ⟨e, rfl, he⟩ := exec_raises_of_errFlag hs hx ht
  rw [raiseError_errReg, errWord_code]
  have hcode : e.code.toCode.toNat ∈ (rowErrors i).map fun c => c.toCode.toNat :=
    List.mem_map_of_mem (List.contains_iff_mem.mp he)
  cases i <;> exact hcode

/-! ### Every step, and `irq` -/

/-- A completing word answers a next state, legal or not (R302, R305). -/
theorem completeWord_answers (c : Word) (s : State) : ∃ t, completeWord c s = .next t := by
  obtain ⟨r, hr⟩ := completeWord_eq_complete c s
  rw [hr]
  exact complete_answers r

/-- Settles O7: the host's step answers in an idle and in a busy engine, and a due word completes. -/
theorem everyStepGoesOn : Obligations.EveryStepGoesOn := by
  intro s
  match hs : s.inFlight with
  | none => exact ⟨_, step_idle hs⟩
  | some ⟨c, 0⟩ => rw [step_due hs]; exact completeWord_answers c s
  | some ⟨c, k + 1⟩ => exact ⟨_, step_busy hs⟩

/-- R332's formula. -/
theorem irq_iff : s.irq = true ↔
    s.done = true ∧ s.intEn.getLsbD 0 = true ∨ s.errFlag = true ∧ s.intEn.getLsbD 1 = true := by
  simp only [State.irq, State.doneIE, State.errIE, Bool.or_eq_true, Bool.and_eq_true]

/-- A completion sets DONE and keeps INT_EN, on success and on error alike (R303, R325). -/
theorem exec_done_intEn {i : Instr} (hx : exec i s = .next t) : t.done = true ∧ t.intEn = s.intEn := by
  rcases exec_commits_or_raises hx with hok | ⟨e, rfl, _⟩
  · rw [hok]; exact ⟨rfl, rowWrites_intEn i s t⟩
  · exact ⟨rfl, rfl⟩

/-- Settles O54: the completion has set DONE, and either enable bit is still as the host wrote it. -/
theorem irqIsALevel : Obligations.IrqIsALevel := by
  refine ⟨fun s => irq_iff, fun i s t hx henable => ?_⟩
  obtain ⟨hdone, hintEn⟩ := exec_done_intEn hx
  rw [irq_iff, hintEn]
  exact henable.imp_left fun hdoneIE => ⟨hdone, hdoneIE⟩

end Sys2Proof.Machine
end

section
/-! PROOFS. Resets and hazards (70_reset_and_hazards.md R360 to R372): the power-on state, the soft reset of an idle
and of a busy engine, the end of a started command, and the count of steps. -/

namespace Sys2Proof.Machine

variable {s t u : State} {c v : Word} {rest : List HostOp}

/-! ### A started command completes -/

/-- A run whose first step answers goes on from the state it answers. -/
theorem core_run_of_step {M : Host.Core} {s t : M.State} (h : M.step s = .next t) (n : Nat) :
    M.run (n + 1) s = M.run n t := by
  rw [Host.Core.run, h]

/-- A step of a busy engine brings the command one step nearer its completion, or is the soft reset that aborts it
(R301, R363). -/
theorem inFlight_of_step_busy {k : Nat} (hs : s.inFlight = some { word := c, remaining := k + 1 })
    (hstep : step s = .next t) : t.inFlight = some { word := c, remaining := k } ∨ t.inFlight = none := by
  rcases inputFixedWhileBusy s t c k hs hstep with hkept | ⟨_, _, _, _, hreset⟩
  · exact .inl (congrArg State.inFlight hkept)
  · exact .inr (congrArg State.inFlight hreset)

/-- Settles O55, by induction on the steps left: the due step completes, and each step before it counts down or
aborts. -/
theorem startedCommandCompletes : Obligations.StartedCommandCompletes := by
  intro s c k hs
  induction k generalizing s with
  | zero =>
    obtain ⟨t, hstep⟩ := everyStepGoesOn s
    have ⟨hdone, _⟩ := completionSetsDone s t c hs hstep
    exact ⟨0, t, Nat.le_refl 0, core_run_of_step (M := core) hstep 0, hdone⟩
  | succ k ih =>
    obtain ⟨t, hstep⟩ := everyStepGoesOn s
    rcases inFlight_of_step_busy hs hstep with hcount | habort
    · obtain ⟨j, u, hj, hrun, hdone⟩ := ih t hcount
      exact ⟨j + 1, u, Nat.succ_le_succ hj, (core_run_of_step (M := core) hstep (j + 1)).trans hrun, hdone⟩
    · exact ⟨0, t, Nat.zero_le _, core_run_of_step (M := core) hstep 0, habort⟩

/-! ### Power-on reset -/

/-- Settles O4: each register holds its reset value, and CRC_RESULT and STATUS follow from the ones they are made of. -/
theorem powerOnResetValues : Obligations.PowerOnResetValues := by
  refine fun p program => ⟨rfl, rfl, fun r => ?_⟩
  cases r with
  | status => exact statusWord_eq (State.powerOn p program)
  | crcResult => exact BitVec.xor_self
  | _ => rfl

/-- Power-on reset of legal sizes satisfies the invariant: empty RAMs, a clear latch, nothing in flight (R360, R361). -/
theorem inv_powerOn {p : Config.Params} (program : List HostOp) (hp : p.wf = true) : (State.powerOn p program).Inv :=
  have hreserved : (State.powerOn p program).reservedZero = true := reservedZero_iff.mpr (by simp [State.powerOn])
  ⟨hp, ramsWf_iff.mpr (powerOn_rams_wf p program), hreserved, rlimInBuf_iff.mpr (Nat.zero_le _),
    latchConsistent_of_clear rfl rfl rfl rfl, noErrWhileBusy_of_idle rfl⟩

/-- Settles O5: the sizes of `State.reset` are the largest that R7 and R8 allow. -/
theorem resetSatisfiesInvariant : Obligations.ResetSatisfiesInvariant :=
  ⟨fun _ program hp => inv_powerOn program hp, inv_powerOn [] (paramsWf_iff.mpr (by decide))⟩

/-! ### The soft reset -/

/-- A host write to CTRL with bit 0 = 1 is the soft reset, idle or busy (R301, R362). -/
theorem hostWrite_softReset (hv : v.getLsbD 0 = true) : hostWrite .bits32 0x00000C#24 v s = softReset s := by
  cases hs : s.inFlight with
  | none =>
    calc hostWrite .bits32 0x00000C#24 v s
        = writeReg .ctrl v s := hostWrite_reg_idle .ctrl v hs
      _ = softReset s := if_pos hv
  | some f =>
    have hreset : isSoftReset .bits32 0x00000C#24 v = true := isSoftReset_iff.mpr ⟨rfl, rfl, hv⟩
    rcases hostWrite_busy .bits32 0x00000C#24 v (busy_of_inFlight hs) with ⟨hl, _⟩ | ⟨_, hno, _⟩ | ⟨_, he⟩
    · exact absurd (hl.symm.trans (legalAccess_reg .ctrl)) (by decide)
    · exact absurd (hno.symm.trans hreset) (by decide)
    · exact he

/-- The host's step that writes CTRL with bit 0 = 1. -/
theorem hostStep_softReset (hh : s.host = .write .bits32 0x00000C#24 v :: rest) (hv : v.getLsbD 0 = true) :
    hostStep s = advance (softReset { s with host := rest }) := by
  rw [hostStep_cons hh, hostOp, hostWrite_softReset hv]

/-- Settles O44: the soft reset keeps nothing of the command in flight, so the steps of an idle and of a busy engine
agree. -/
theorem softResetAtAnyTime : Obligations.SoftResetAtAnyTime := by
  intro s v rest hh hv hs
  rcases hs with hs | ⟨c, k, hs⟩
  · rw [step_idle hs, hostStep_softReset hh hv]
    rfl
  · rw [step_busy hs, hostStep_softReset (s := countDown _ k s) hh hv]
    rfl

/-! ### The count of steps -/

theorem draw_ite {b : Prop} [Decidable b] (ht : t.draw = s.draw) (hu : u.draw = s.draw) :
    (if b then t else u).draw = s.draw := by
  split
  · exact ht
  · exact hu

/-- No register's write counts a step: STATUS, CMD and the soft reset do not, nor does any other. -/
theorem writeReg_draw (r : Reg) (v : Word) (s : State) : (writeReg r v s).draw = s.draw := by
  cases r with
  | ctrl => exact draw_ite (softReset_draw s) rfl
  | status => rw [writeReg, writeStatus_eq]
  | cmd => exact draw_ite rfl rfl
  | _ => rfl

theorem writeWindowByte_draw (a : Nat) (b : Byte) (s : State) : (writeWindowByte a b s).draw = s.draw :=
  draw_ite rfl rfl

theorem writePlace32_draw (p : Place) (v : Word) (s : State) : (writePlace32 p v s).draw = s.draw := by
  cases p with
  | page off =>
    cases hr : regAt off with
    | none => simp only [writePlace32, hr]
    | some r => simpa only [writePlace32, hr] using writeReg_draw r v s
  | curWindow off => exact draw_ite rfl rfl
  | valWindow off => exact draw_ite rfl rfl
  | reserved => rfl
  | bufWindow a => simp only [writePlace32, writeWindowWordLE, writeWindowByte_draw]

theorem writePlace8_draw (p : Place) (b : Byte) (s : State) : (writePlace8 p b s).draw = s.draw := by
  cases p with
  | bufWindow a => exact writeWindowByte_draw a b s
  | _ => rfl

theorem hostWrite_draw (w : AccessWidth) (off : Offset) (v : Word) (s : State) :
    (hostWrite w off v s).draw = s.draw := by
  cases hf : s.inFlight with
  | none =>
    rcases hostWrite_idle w off v hf with he | he | he <;> rw [he]
    · exact writePlace32_draw _ _ s
    · exact writePlace8_draw _ _ s
  | some f =>
    rcases hostWrite_busy w off v (busy_of_inFlight hf) with ⟨_, he⟩ | ⟨_, _, he⟩ | ⟨_, he⟩ <;> rw [he]
    exact softReset_draw s

theorem hostOp_draw (op : HostOp) (rest : List HostOp) (s : State) : (hostOp op rest s).draw = s.draw := by
  cases op with
  | read w off => rfl
  | write w off v => exact hostWrite_draw w off v { s with host := rest }
  | wait => exact draw_ite rfl rfl
  | awaitIrq => exact draw_ite rfl rfl

/-- The host's step counts one, whatever the host does in it. -/
theorem hostStep_draw (s : State) : (hostStep s).draw = s.draw + 1 := by
  match hh : s.host with
  | [] => rw [hostStep_ended hh, advance_draw]
  | op :: rest => rw [hostStep_cons hh, advance_draw, hostOp_draw]

/-- No row of R308 counts a step by itself. -/
theorem rowWrites_draw (i : Instr) (s t : State) : (rowWrites i s t).draw = s.draw := by cases i <;> rfl

/-- A completion counts one step, on success and on error alike. -/
theorem exec_draw {i : Instr} (hx : exec i s = .next t) : t.draw = s.draw + 1 := by
  rcases exec_commits_or_raises hx with hok | ⟨e, rfl, _⟩
  · rw [hok]; exact congrArg (· + 1) (rowWrites_draw i s t)
  · exact raiseError_draw s e

theorem completeWord_draw (hx : completeWord c s = .next t) : t.draw = s.draw + 1 := by
  match hd : decode c with
  | .ok i => exact exec_draw (completeWord_of_decode hd ▸ hx)
  | .error e =>
    rw [completeWord_of_reject hd] at hx
    cases hx
    exact raiseError_draw s _

/-- Settles O57, along the three cases of a step: the host's step and the completion each count one. -/
theorem everyStepDrawsAnew : Obligations.EveryStepDrawsAnew := by
  intro s t hstep
  match hf : s.inFlight with
  | none =>
    rw [step_idle hf] at hstep
    cases hstep
    exact hostStep_draw s
  | some ⟨c, 0⟩ =>
    rw [step_due hf] at hstep
    exact completeWord_draw hstep
  | some ⟨c, k + 1⟩ =>
    rw [step_busy hf] at hstep
    cases hstep
    exact hostStep_draw (countDown _ k s)

end Sys2Proof.Machine
end
